-- ==== Sys2Proof/Word.lean ====
section
/-! DEFINITION. The word types of CORE: every quantity is unsigned (spec/00_scope.md R2, R5). -/

namespace Sys2Proof

/-- The unit of transfer and of every register the host sees: 8 bits (R2). -/
abbrev Byte := BitVec 8

/-- A delay in DQ, 1/16 microsecond, `DELAYW` = 16 bits (R4). -/
abbrev Delay := BitVec 16

/-- A bit position inside an 8 bit line port (R11). -/
abbrev BitPos := BitVec 3

end Sys2Proof
end

