-- ==== Sys2Proof/Syntax.lean ====
section
/-! DEFINITION. The eight commands (spec/30_encoding.md R60, R64), one constructor per row of
spec/opcode_table.json, each with the operands its packet carries (R63). -/

namespace Sys2Proof

/-- A command with its operand values, legal or not: an illegal operand is the command's own fault
(R66), so it has to be expressible. -/
inductive Instr where
  /-- `init()`, format N (41_init.md R92). -/
  | init
  /-- `register_slave(id, descriptor)`, format R (40_registry.md R81). -/
  | registerSlave (id port : Byte) (rsv : BitVec 5) (bit : BitPos) (sel desel : Delay)
  /-- `select(id)`, format I (42_select.md R102). -/
  | select (id : Byte)
  /-- `deselect(id)`, format I (42_select.md R104). -/
  | deselect (id : Byte)
  /-- `write_byte(b)`, format B (43_transfer.md R115). -/
  | writeByte (b : Byte)
  /-- `write_bytes(buffer, n)`, format V (43_transfer.md R117). The `n` payload bytes stay in the command
  stream: each is taken when its own exchange is about to start (20_memory.md R50, R57). -/
  | writeBytes (n : Byte)
  /-- `read_byte()`, format N (43_transfer.md R119). -/
  | readByte
  /-- `read_bytes(buffer, n)`, format C (43_transfer.md R121). -/
  | readBytes (n : Byte)
deriving DecidableEq, Repr

end Sys2Proof
end

