-- ==== Sys2Proof/WellFormed.lean ====
section
/-! DEFINITION. Which operand values are legal (spec/30_encoding.md R63, R66). A command whose operands
are not all legal still decodes and runs: it faults (R66). -/

namespace Sys2Proof

/-- "`id` constrained to 0–7" (R63). -/
def idLegal (id : Byte) : Bool := decide (id.toNat < 8)

/-- `port` is 0 to `NPORTS - 1` (R63). -/
def portLegal (nports : Nat) (port : Byte) : Bool := decide (port.toNat < nports)

/-- `rsv` is 0 (R63). -/
def rsvLegal (rsv : BitVec 5) : Bool := decide (rsv = 0#5)

/-- Every operand of the command is legal on a platform with `nports` line ports (R63). -/
def Instr.wellFormed (nports : Nat) : Instr → Bool
  | .init => true
  | .registerSlave id port rsv _ _ _ => idLegal id && portLegal nports port && rsvLegal rsv
  | .select id => idLegal id
  | .deselect id => idLegal id
  | .writeByte _ => true
  | .writeBytes _ => true
  | .readByte => true
  | .readBytes _ => true

end Sys2Proof
end

