-- ==== Sys2Proof/Decode.lean ====
section
/-! DEFINITION. The packet decoder and the encoder (spec/30_encoding.md R60 to R67). -/

namespace Sys2Proof

/-- What a sequence of command bytes gives (R67: "it either yields the next command with its operands,
or IllegalCommand, or it waits for more bytes"). -/
inductive Decoded where
  /-- A command and the bytes after its packet (for WRITE_BYTES: after its count byte). -/
  | command (i : Instr) (rest : List Byte)
  /-- The first byte selects no command; only that byte is consumed (R65, 60_exceptions.md R132). -/
  | illegal (opc : Byte) (rest : List Byte)
  /-- The packet is not complete. -/
  | more
deriving DecidableEq, Repr

/-- The command, if there is one. -/
def Decoded.command? (d : Decoded) : Option Instr :=
  match d with
  | .command i _ => some i
  | .illegal _ _ => none
  | .more => none

/-- The operand of formats I, B, C and V: byte 1 (R61, R63). -/
def decodeByteOperand (f : Byte → Instr) : List Byte → Decoded
  | v :: rest => .command (f v) rest
  | [] => .more

/-- `rsv`, bits 7:3 of byte 3 of format R (R63). -/
def rsvOf (b3 : Byte) : BitVec 5 := b3.extractLsb' 3 5

/-- `bit`, bits 2:0 of byte 3 of format R (R63). -/
def bitOf (b3 : Byte) : BitPos := b3.extractLsb' 0 3

/-- Byte 3 of format R: `rsv ++ bit` (R61). -/
def byte3 (rsv : BitVec 5) (bit : BitPos) : Byte := rsv ++ bit

/-- A 16 bit field from its two bytes, the low byte first on the stream (R63, 20_memory.md R51). -/
def delayOf (lo hi : Byte) : Delay := hi ++ lo

/-- The low byte of a 16 bit field. -/
def delayLo (d : Delay) : Byte := d.extractLsb' 0 8

/-- The high byte of a 16 bit field. -/
def delayHi (d : Delay) : Byte := d.extractLsb' 8 8

/-- The seven operand bytes of format R (R61, R63). -/
def decodeRegister : List Byte → Decoded
  | id :: port :: b3 :: selLo :: selHi :: deselLo :: deselHi :: rest =>
    .command (.registerSlave id port (rsvOf b3) (bitOf b3) (delayOf selLo selHi) (delayOf deselLo deselHi)) rest
  | _ => .more

/-- The opcode map (R64): the whole first byte is compared; every other value is illegal (R65). -/
def decode : List Byte → Decoded
  | [] => .more
  | opc :: rest =>
    if opc = 0x01#8 then .command .init rest
    else if opc = 0x02#8 then decodeRegister rest
    else if opc = 0x03#8 then decodeByteOperand .select rest
    else if opc = 0x04#8 then decodeByteOperand .deselect rest
    else if opc = 0x05#8 then decodeByteOperand .writeByte rest
    else if opc = 0x06#8 then decodeByteOperand .writeBytes rest
    else if opc = 0x07#8 then .command .readByte rest
    else if opc = 0x08#8 then decodeByteOperand .readBytes rest
    else .illegal opc rest

/-- The opcode byte (R64). -/
def Instr.opcode : Instr → Byte
  | .init => 0x01#8
  | .registerSlave _ _ _ _ _ _ => 0x02#8
  | .select _ => 0x03#8
  | .deselect _ => 0x04#8
  | .writeByte _ => 0x05#8
  | .writeBytes _ => 0x06#8
  | .readByte => 0x07#8
  | .readBytes _ => 0x08#8

/-- The operand bytes, in packet order (R61, R63). The payload of WRITE_BYTES is not among them. -/
def Instr.operandBytes : Instr → List Byte
  | .init => []
  | .registerSlave id port rsv bit sel desel =>
    [id, port, byte3 rsv bit, delayLo sel, delayHi sel, delayLo desel, delayHi desel]
  | .select id => [id]
  | .deselect id => [id]
  | .writeByte b => [b]
  | .writeBytes n => [n]
  | .readByte => []
  | .readBytes n => [n]

/-- The packet of a command, less the payload of WRITE_BYTES (R61). -/
def encode (i : Instr) : List Byte := i.opcode :: i.operandBytes

/-- The length of the whole packet in bytes, payload included (R62). -/
def Instr.packetLength : Instr → Nat
  | .init => 1
  | .registerSlave _ _ _ _ _ _ => 8
  | .select _ => 2
  | .deselect _ => 2
  | .writeByte _ => 2
  | .writeBytes n => 2 + n.toNat
  | .readByte => 1
  | .readBytes _ => 2

/-- The longest packet: WRITE_BYTES with `n = 255` (43_transfer.md R117). -/
def longestPacket : Nat := 257

/-- The bytes of a table word, the first byte lowest; every bit above `nbits` is 0. -/
def tableBytes (nbits w : Nat) : List Byte :=
  (List.range longestPacket).map fun k => BitVec.ofNat 8 ((w % 2 ^ nbits) >>> (8 * k))

/-- What the decoder reads from a word numbered as spec/opcode_table.json numbers it. -/
def decodeTableWord (nbits w : Nat) : Option Instr :=
  match decode (tableBytes nbits w) with
  | .command i _ => some i
  | .illegal _ _ => none
  | .more => none

/-- The packet of a table word: as many bytes as the command it decodes to takes (R62), or, for a word
that decodes to none, the bytes the table gives it. -/
def tablePacket (nbits w : Nat) : List Byte :=
  match decodeTableWord nbits w with
  | some i => (tableBytes nbits w).take i.packetLength
  | none => (tableBytes nbits w).take (max 1 (nbits / 8))

end Sys2Proof
end

