-- ==== Sys2Proof/Config.lean ====
section
/-! DEFINITION. What a platform fixes (spec/00_scope.md R4) and the free values: what no rule of the
spec gives (spec/93_implementation_defined.md, treatment DRAW). -/

namespace Sys2Proof

/-- Line `(p, b)`: the single-bit output at bit `b` of port `p` (R5, R11). -/
structure Line where
  port : Byte
  bit : BitPos
deriving DecidableEq, Repr

/-- The parameters the spec leaves OPEN (R4; P1, P2 of 93_implementation_defined.md). They are data of
State that no step changes, so that a statement about every state is one about every platform. -/
structure Config where
  /-- `NPORTS`, the number of 8 bit line ports, 1 to 256. -/
  nports : Nat
  /-- `OWN_LINES`, the controller's own select-capable lines, in the order INIT takes them. -/
  ownLines : List Line
deriving DecidableEq, Repr

/-- The defaults of R4: `NPORTS = 4`, `OWN_LINES = [(0, 2)]`. -/
def Config.default : Config := { nports := 4, ownLines := [⟨0x00#8, 2#3⟩] }

/-- `NSLOTS` (R1). -/
abbrev Config.nslots : Nat := 8

/-- `F_CLK` in Hz (R4; DESIGN CHOICE of the spec, D2). No rule of the machine depends on it (R169, R171). -/
def Config.fClk : Nat := 16000000

/-- `SCK_DIV` (R4, R15): periods of `clk` in one period of `sck` under the one legal `CLKDIV`. -/
def Config.sckDiv : Nat := 4

/-- DQ in one microsecond (R4: `DQ` = 1/16 microsecond). -/
def Config.dqPerMicrosecond : Nat := 16

/-- FREE VALUE: the level sampled on `miso` where State lists no answer of the slave environment any
more, one per draw (R112: "a free 8 bit input of the exchange step"). Log entry 5. -/
opaque Config.misoBit : Nat → Bool

/-- FREE VALUE: what `DATA` holds after a reset, one per draw (R29: "unspecified", "a model must not
assume 0"). Log entry 2. -/
opaque Config.dataAfterReset : Nat → Byte

end Sys2Proof
end

