-- ==== Sys2Proof/Machine/State.lean ====
section
/-! DEFINITION. The state of CORE as plain data (spec/10_state.md), the host's moves (60_exceptions.md
R147), and the state after reset (R29). -/

namespace Sys2Proof.Machine

/-- One registered slot (R10, R11). An unregistered slot (`valid = 0`) is `none` (R12). -/
structure Slot where
  port : Byte
  bit : BitPos
  sel : Delay
  desel : Delay
deriving DecidableEq, Repr

/-- The line registers, as (address, byte) pairs: `VAL[p]` at `2p`, `DIR[p]` at `2p + 1` (R26,
20_memory.md R40). Canonical form: `Memory.wf` of Ops.lean. -/
abbrev Memory := List Host.Cell

/-- The spec's four faults (60_exceptions.md R130). They are next states of the machine, not stops of
the model. -/
inductive CoreFault where
  | illegalCommand
  | invalidSlaveId
  | notRegistered
  | illegalOperand
deriving DecidableEq, Repr

/-- The observable events (R30). -/
inductive Event where
  /-- `EvDir(p, b)` -/
  | dir (p : Byte) (b : BitPos)
  /-- `EvCtrl(v)` -/
  | ctrl (v : Byte)
  /-- `EvLine(p, b, l)` -/
  | line (p : Byte) (b : BitPos) (l : Bool)
  /-- `EvWait(d)` -/
  | wait (d : Delay)
  /-- `EvLoad(tx)` -/
  | load (tx : Byte)
  /-- `EvDone(rx)` -/
  | done (rx : Byte)
  /-- `EvRsp(v)` -/
  | rsp (v : Byte)
  /-- `EvFault(code, info)` -/
  | fault (code info : Byte)
  /-- `EvPlat(addr, v)` -/
  | plat (addr : BitVec 9) (v : Byte)
deriving DecidableEq, Repr

/-- The sequencer's position inside a packet or inside the pseudocode of a command (R23). -/
inductive Pos where
  /-- At a `CmdNext()` for an operand byte. -/
  | operands
  /-- The packet is taken; nothing of the pseudocode has happened yet. -/
  | body
  /-- INIT: the own lines whose direction bit is still to be set (41_init.md R92). -/
  | ownLines (rest : List Line)
  /-- REGISTER_SLAVE: the line is high, the slot not yet written (40_registry.md R81). -/
  | storeSlot
  /-- Inside `Wait(d)`, `DCNT` counting (42_select.md R100). -/
  | delay (d : Delay)
  /-- WRITE_BYTES: at the head of the loop (43_transfer.md R117). -/
  | payload
  /-- READ_BYTES: at the head of the loop (43_transfer.md R121). -/
  | readNext
  /-- Step 2 of `Exchange`: waiting for `TC` (43_transfer.md R110). -/
  | shifting
  /-- At `RspPut(v)` of a data byte (20_memory.md R49). -/
  | data (v : Byte)
  /-- At `RspPut(v)` of the status byte (30_encoding.md R68). -/
  | status (v : Byte)
deriving DecidableEq, Repr

/-- What the sequencer holds while `SEQ = BUSY` (R23): `OPC`, the operand bytes taken so far, and its
position. -/
structure Work where
  opc : Byte
  latch : List Byte
  pos : Pos
deriving DecidableEq, Repr

/-- `SEQ` (R22). The latches are unspecified while `SEQ` is not `BUSY` (R23), so they stand here. -/
inductive Seq where
  | idle
  | busy (w : Work)
  | halted
deriving DecidableEq, Repr

/-- The `sck` pin inside one pass of the shifter; while it is high the bit `m` sampled at the rising
edge is held (43_transfer.md R113). -/
inductive Sck where
  | low
  | high (m : Bool)
deriving DecidableEq, Repr

/-- The host's readiness to take response bytes (20_memory.md R49, 60_exceptions.md R147). -/
inductive RspReady where
  /-- It takes every byte as soon as it is offered. -/
  | always
  /-- It takes `n` bytes more, then none until it says otherwise. -/
  | upTo (n : Nat)
deriving DecidableEq, Repr

/-- The moves of the host (60_exceptions.md R147). -/
inductive HostMove where
  /-- No move: CORE takes a step. -/
  | run
  /-- Offer one more byte on the command stream (20_memory.md R48). -/
  | offer (b : Byte)
  /-- Be ready, from now on, for response bytes as said (20_memory.md R49). -/
  | ready (r : RspReady)
  /-- `PlatWrite(addr, v)`, enabled only while `SEQ = IDLE` (20_memory.md R46). -/
  | platWrite (addr : BitVec 9) (v : Byte)
  /-- Apply reset (70_reset_and_hazards.md R150, R151). -/
  | reset
deriving DecidableEq, Repr

/-- How much of a command one step runs (30_encoding.md R67 and 10_state.md R23 allow both). -/
inductive Grain where
  /-- A packet offered whole while `SEQ = IDLE` runs in one step, up to its end or the first wait for
  the host or the shifter. -/
  | command
  /-- Every step is one micro-step of the pseudocode, the shifter or the delay counter. -/
  | fine
deriving DecidableEq, Repr

/-- The state. INVENTORY.md, heading State, lists every field with its rule and its reset value. -/
structure State where
  /-- `NPORTS` and `OWN_LINES` (00_scope.md R4). -/
  cfg : Config
  /-- The model's own: how much one step runs. -/
  grain : Grain
  /-- `x[0]` to `x[7]` (R10). -/
  slots : Vector (Option Slot) 8
  /-- `CTRL` (R14). -/
  ctrl : Byte
  /-- `STAT.TC` (R18). -/
  tc : Bool
  /-- `FAULT` (R20). -/
  fault : Byte
  /-- `FINFO` (R20). -/
  finfo : Byte
  /-- `DATA` (R21). -/
  data : Byte
  /-- `SEQ`, with `OPC`, the latches and the position (R22, R23). -/
  seq : Seq
  /-- `CNT` (R24). -/
  cnt : Byte
  /-- `DCNT` (R24). -/
  dcnt : Delay
  /-- `BITCNT` (R24). -/
  bitcnt : BitVec 4
  /-- The `sck` pin (R27, 43_transfer.md R113). -/
  sck : Sck
  /-- `VAL` and `DIR` (R26). -/
  lines : Memory
  /-- The event history, oldest first (R30). -/
  hist : List Event
  /-- The command stream: bytes offered and not yet taken, next one first (R28). -/
  cmdIn : List Byte
  /-- The response stream: the host's readiness (R28). -/
  rspReady : RspReady
  /-- The slave environment: the levels `miso` will have at the next rising edges (R28). -/
  miso : List Bool
  /-- The model's own: the moves the host will make, next one first. -/
  host : List HostMove
  /-- The model's own: how many free values have been used. -/
  draws : Nat
deriving DecidableEq, Repr

/-- Why the model stops. -/
inductive Fault where
  /-- A line register that does not exist was addressed: `addr >= 2 * NPORTS` (20_memory.md R41 defines
  no access to it). Raised by INIT, SELECT and DESELECT only in states whose own lines or slots name a
  port of `NPORTS` or more, which no run reaches, and by a host move `platWrite` to such an address.
  Safe: nothing is claimed of the machine after it. -/
  | noSuchLineRegister (addr : Nat)
deriving DecidableEq, Repr

/-- Why the model has no answer. -/
inductive Refusal where
  /-- An instruction without a meaning, rejected by `exec` by its mnemonic. Safe. No arm of `exec`
  answers it: every command has its meaning. -/
  | notModelled (mnemonic : String)
deriving DecidableEq, Repr

/-- The outcome of a step of this machine. -/
abbrev Out := Host.Outcome State Fault Refusal

/-- The machine right after reset (R29), on the default platform (00_scope.md R4), with a host that has
offered nothing yet and takes every response byte. `DATA` is unspecified: a free value. -/
def State.reset : State where
  cfg := Config.default
  grain := .command
  slots := Vector.replicate 8 none
  ctrl := 0x00#8
  tc := false
  fault := 0x00#8
  finfo := 0x00#8
  data := Config.dataAfterReset 0
  seq := .idle
  cnt := 0x00#8
  dcnt := 0x0000#16
  bitcnt := 0#4
  sck := .low
  lines := []
  hist := []
  cmdIn := []
  rspReady := .always
  miso := []
  host := []
  draws := 1

end Sys2Proof.Machine
end

