-- ==== Sys2Proof/Machine/Flags.lean ====
section
/-! DEFINITION. The fields of `CTRL` and `STAT` (spec/10_state.md R14 to R19) and the one flag a
computation sets, `TC` (R18, 43_transfer.md R113). -/

namespace Sys2Proof.Machine

/-- `CTRL.EN`, bit 0 (R14). -/
def ctrlEn (ctrl : Byte) : Bool := ctrl.getLsbD 0

/-- `CTRL.MSTR`, bit 1 (R14). -/
def ctrlMstr (ctrl : Byte) : Bool := ctrl.getLsbD 1

/-- `CTRL.CLKDIV`, bits 3:2 (R14). -/
def ctrlClkdiv (ctrl : Byte) : BitVec 2 := ctrl.extractLsb' 2 2

/-- The divisor a `CLKDIV` code selects: `0b00` is `clk / 4`, the others are reserved (R15). -/
def clkDivisor (clkdiv : BitVec 2) : Option Nat :=
  if clkdiv = 0#2 then some Config.sckDiv else none

/-- The value INIT writes: `EN = 1`, `MSTR = 1`, `CLKDIV = 0b00`, reserved bits 0 (41_init.md R92). -/
def ctrlInit : Byte := 0x03#8

/-- An exchange can run: `EN = 1` and `MSTR = 1` (43_transfer.md R110). -/
def State.enabled (s : State) : Bool := ctrlEn s.ctrl && ctrlMstr s.ctrl

/-- `SEQ = BUSY` (R19, R22). -/
def Seq.isBusy : Seq → Bool
  | .idle => false
  | .busy _ => true
  | .halted => false

/-- `SEQ = HALTED` (R19, R22). -/
def Seq.isHalted : Seq → Bool
  | .idle => false
  | .busy _ => false
  | .halted => true

/-- `STAT`: bit 0 `TC`, bit 1 `BUSY`, bit 2 `HALTED`, bits 7:3 zero (R17, R19). -/
def State.stat (s : State) : Byte :=
  0#5 ++ (BitVec.ofBool s.seq.isHalted ++ (BitVec.ofBool s.seq.isBusy ++ BitVec.ofBool s.tc))

/-- `TC` after a pass of the shifter that leaves `bitcnt` bits: set by the eighth bit, else as it was
(R18, 43_transfer.md R113). -/
def tcAfterBit (bitcnt : BitVec 4) (tc : Bool) : Bool := if bitcnt = 0#4 then true else tc

end Sys2Proof.Machine
end

