-- ==== Sys2Proof/Machine/Operands.lean ====
section
/-! DEFINITION. What the operands of a command denote: slots, line register addresses, codes and the
checks of 60_exceptions.md R138. -/

namespace Sys2Proof.Machine

/-- The address of `VAL[p]` (20_memory.md R40). -/
def valAddr (p : Byte) : Nat := 2 * p.toNat

/-- The address of `DIR[p]` (20_memory.md R40). -/
def dirAddr (p : Byte) : Nat := 2 * p.toNat + 1

/-- `1 << b` in a line register (20_memory.md R43). -/
def bitMask (b : BitPos) : Byte := 1#8 <<< b.toNat

/-- The fault codes (30_encoding.md R69, 60_exceptions.md R130). -/
def CoreFault.code : CoreFault → Byte
  | .illegalCommand => 0x01#8
  | .invalidSlaveId => 0x02#8
  | .notRegistered => 0x03#8
  | .illegalOperand => 0x04#8

/-- The status byte of a command that completed (30_encoding.md R69). -/
def statusOk : Byte := 0x00#8

/-- The dummy byte READ_BYTE and READ_BYTES send (43_transfer.md R120). -/
def dummyByte : Byte := 0x00#8

/-- The slot an identifier names: 0 to 7 (R1, 60_exceptions.md R133: no modulo, no aliasing). -/
def slotIndex (id : Byte) : Option (Fin 8) :=
  if h : id.toNat < 8 then some ⟨id.toNat, h⟩ else none

/-- The contents of slot `id`; `none` when `id > 7` or the slot was never written. -/
def State.slot (s : State) (id : Byte) : Option Slot :=
  match slotIndex id with
  | some k => s.slots[k]
  | none => none

/-- The slot SELECT and DESELECT read, after the range check and the `valid` check, in that order
(40_registry.md R84, 60_exceptions.md R138 (2) and (5)). -/
def State.lookup (s : State) (id : Byte) : Except CoreFault Slot :=
  match idLegal id, s.slot id with
  | false, _ => .error .invalidSlaveId
  | true, none => .error .notRegistered
  | true, some d => .ok d

/-- The first check of REGISTER_SLAVE that fails, with the byte `FINFO` gets (40_registry.md R81,
60_exceptions.md R130 and R138 (2), (3), (4)). -/
def registerFault (nports : Nat) (id port : Byte) (rsv : BitVec 5) (b3 : Byte) : Option (CoreFault × Byte) :=
  if idLegal id = false then some (.invalidSlaveId, id)
  else if portLegal nports port = false then some (.illegalOperand, port)
  else if rsvLegal rsv = false then some (.illegalOperand, b3)
  else none

end Sys2Proof.Machine
end

