-- ==== Sys2Proof/Machine/Ops.lean ====
section
/-! DEFINITION. The named operations of CORE over its line registers, slots, streams, shifter and delay
counter, and the raising of a fault: the primitives of spec/00_scope.md R6. -/

namespace Sys2Proof.Machine

/-- Run `k` on the next state, if there is one. -/
def Out.andThen (o : Out) (k : State → Out) : Out :=
  match o with
  | .next s => k s
  | .fault r => .fault r
  | .refused r => .refused r

/-- The next state, if there is one (for tests and statements). -/
def Out.state? (o : Out) : Option State :=
  match o with
  | .next s => some s
  | .fault _ => none
  | .refused _ => none

/-! ### Line register memory -/

/-- What a line register that nothing has written since power-on holds. DESIGN CHOICE: the spec leaves
`VAL` and `DIR` unspecified at power-on (R29). Unsafe. Log entry 1. -/
def Memory.unlisted : Byte := 0x00#8

/-- The byte at an address. -/
def Memory.read : Memory → Nat → Byte
  | [], _ => Memory.unlisted
  | (k, v) :: rest, a => if k = a then v else Memory.read rest a

/-- The memory with `v` at address `a`, in canonical form again. -/
def Memory.write : Memory → Nat → Byte → Memory
  | [], a, v => if v = Memory.unlisted then [] else [(a, v)]
  | (k, w) :: rest, a, v =>
    if a < k then (if v = Memory.unlisted then (k, w) :: rest else (a, v) :: (k, w) :: rest)
    else if a = k then (if v = Memory.unlisted then rest else (a, v) :: rest)
    else (k, w) :: Memory.write rest a v

/-- Every address of the list is above `lo`, the addresses rise strictly, and no entry holds the
unlisted byte. -/
def Memory.wfFrom : Nat → Memory → Bool
  | _, [] => true
  | lo, (k, v) :: rest => decide (lo ≤ k) && decide (v ≠ Memory.unlisted) && Memory.wfFrom (k + 1) rest

/-- The canonical form of the line registers. -/
def Memory.wf (m : Memory) : Bool := Memory.wfFrom 0 m

/-- `addr < 2 * NPORTS`: the line register exists (20_memory.md R40, R41). -/
def State.lineExists (s : State) (addr : Nat) : Bool := decide (addr < 2 * s.cfg.nports)

/-- The byte at `addr` of the line register space. -/
def State.lineByte (s : State) (addr : Nat) : Byte := Memory.read s.lines addr

/-- `MemRead(addr, 1)` (20_memory.md R41). -/
def State.memRead (s : State) (addr : Nat) : Option Byte :=
  if s.lineExists addr then some (s.lineByte addr) else none

/-- The state with `v` in line register `addr`. -/
def State.setLineByte (s : State) (addr : Nat) (v : Byte) : State :=
  { s with lines := Memory.write s.lines addr v }

/-- `MemWrite(addr, 1, v)` (20_memory.md R41). -/
def State.memWrite (s : State) (addr : Nat) (v : Byte) : Out :=
  if s.lineExists addr then .next (s.setLineByte addr v) else .fault (.noSuchLineRegister addr)

/-! ### History, position, latches -/

/-- `emit` (R30). -/
def State.emit (s : State) (e : Event) : State := { s with hist := s.hist ++ [e] }

/-- The same command at another position. -/
def Seq.moveTo (q : Seq) (pos : Pos) : Seq :=
  match q with
  | .idle => .idle
  | .busy w => .busy { w with pos := pos }
  | .halted => .halted

/-- The sequencer moves to another position of its command (R23). -/
def State.moveTo (s : State) (pos : Pos) : State := { s with seq := s.seq.moveTo pos }

/-- The packet of `i` has been taken: `SEQ = BUSY` with `OPC` and the operand latches (R22, R23). -/
def State.begin (s : State) (i : Instr) : State :=
  { s with seq := .busy { opc := i.opcode, latch := i.operandBytes, pos := .body } }

/-! ### Single-bit line writes (20_memory.md R43, R44) -/

/-- Read the register at `addr`, set the bits of `set`, clear the bits of `clear`, write it back and
append the event: one atomic read-modify-write. -/
def State.rmw (s : State) (addr : Nat) (set clear : Byte) (e : Event) : Out :=
  match s.memRead addr with
  | some v => (s.memWrite addr ((v ||| set) &&& ~~~clear)).andThen fun t => .next (t.emit e)
  | none => .fault (.noSuchLineRegister addr)

/-- `LineSet(p, b)` (R43). -/
def State.lineSet (s : State) (p : Byte) (b : BitPos) : Out :=
  s.rmw (valAddr p) (bitMask b) 0#8 (.line p b true)

/-- `LineClear(p, b)` (R43). -/
def State.lineClear (s : State) (p : Byte) (b : BitPos) : Out :=
  s.rmw (valAddr p) 0#8 (bitMask b) (.line p b false)

/-- `DirSet(p, b)` (R44). -/
def State.dirSet (s : State) (p : Byte) (b : BitPos) : Out :=
  s.rmw (dirAddr p) (bitMask b) 0#8 (.dir p b)

/-- `DirSet` of every line of a list, in list order (41_init.md R92). -/
def State.dirSetAll : List Line → State → Out
  | [], s => .next s
  | l :: rest, s => (s.dirSet l.port l.bit).andThen fun t => State.dirSetAll rest t

/-! ### Slots and the control register -/

/-- `x[id] <- { valid = 1, .. }`, the whole slot (R13, 40_registry.md R81); no slot has another number. -/
def State.writeSlot (s : State) (id : Byte) (d : Slot) : State :=
  match slotIndex id with
  | some k => { s with slots := s.slots.set k (some d) }
  | none => s

/-- `CTRL <- v` with its event (41_init.md R92). -/
def State.writeCtrl (s : State) (v : Byte) : State := { s with ctrl := v }.emit (.ctrl v)

/-! ### The byte streams (20_memory.md R48, R49) -/

/-- The host takes the offered byte `v`, if it is ready to: `EvRsp(v)` (R49). -/
def State.takeRsp (s : State) (v : Byte) : Option State :=
  match s.rspReady with
  | .always => some (s.emit (.rsp v))
  | .upTo 0 => none
  | .upTo (n + 1) => some ({ s with rspReady := .upTo n }.emit (.rsp v))

/-- `CmdNext()`: the next byte of the command stream, if the host has offered one (R48). -/
def State.cmdNext (s : State) : Option (Byte × State) :=
  match s.cmdIn with
  | [] => none
  | b :: rest => some (b, { s with cmdIn := rest })

/-- `SEQ` once the status byte `v` has been taken: `IDLE`, or `HALTED` after IllegalCommand (R22,
60_exceptions.md R131). -/
def seqAfterStatus (v : Byte) : Seq :=
  if v = CoreFault.illegalCommand.code then .halted else .idle

/-- The last act of every command, also the return from a fault: `RspPut` of the status byte, then
`SEQ` (30_encoding.md R68, 60_exceptions.md R131, R141). While the host does not take the byte the
sequencer stays at it (R49). -/
def State.putStatus (s : State) (v : Byte) : State :=
  match s.takeRsp v with
  | some t => { t with seq := seqAfterStatus v }
  | none => s.moveTo (.status v)

/-! ### Raising a fault -/

/-- `FAULT` and `FINFO` hold the first fault since reset (R20, 60_exceptions.md R131). -/
def State.recordFault (s : State) (f : CoreFault) (info : Byte) : State :=
  if s.fault = 0x00#8 then { s with fault := f.code, finfo := info } else s

/-- `raise F(info)` up to the offer of the status byte (60_exceptions.md R131). -/
def State.enterFault (s : State) (f : CoreFault) (info : Byte) : State :=
  (s.recordFault f info).emit (.fault f.code info)

/-- `raise F(info)` (60_exceptions.md R131): the one way a command ends with a fault. -/
def State.raise (s : State) (f : CoreFault) (info : Byte) : State :=
  (s.enterFault f info).putStatus f.code

/-! ### The delay counter (42_select.md R100) -/

/-- `Wait(d)` as a whole: `DCNT` has counted down from `d` to 0, and `EvWait(d)` says that at least `d`
DQ passed. The count itself is the position `delay` of `microStep`. -/
def State.wait (s : State) (d : Delay) : State := { s with dcnt := 0x0000#16 }.emit (.wait d)

/-! ### The byte shifter (43_transfer.md R110, R113) -/

/-- The level `miso` has at this rising edge: the slave environment's next answer, a free value where
State lists none (R112). Log entry 5. -/
def State.sampleMiso (s : State) : Bool × State :=
  match s.miso with
  | m :: rest => (m, { s with miso := rest })
  | [] => (Config.misoBit s.draws, { s with draws := s.draws + 1 })

/-- Rising edge of `sck`: CORE samples `miso` (R113). -/
def State.sckRise (s : State) : State :=
  { s.sampleMiso.2 with sck := .high s.sampleMiso.1 }

/-- `DATA[6:0] ++ m` (R113). -/
def shiftIn (data : Byte) (m : Bool) : Byte := data.extractLsb' 0 7 ++ BitVec.ofBool m

/-- Falling edge of `sck`: the sampled bit enters `DATA`, `BITCNT` counts, and the eighth bit sets `TC`
(R113). -/
def State.sckFall (s : State) : State :=
  match s.sck with
  | .low => s
  | .high m =>
    { s with sck := .low, data := shiftIn s.data m, bitcnt := s.bitcnt - 1#4,
             tc := tcAfterBit (s.bitcnt - 1#4) s.tc }

/-- One pass of the shifter: one period of `sck` (R113). -/
def State.shiftBit (s : State) : State := s.sckRise.sckFall

/-- `n` passes of the shifter. -/
def State.shiftBits : Nat → State → State
  | 0, s => s
  | n + 1, s => State.shiftBits n s.shiftBit

/-- Step 1 of `Exchange(tx)`, atomic: load `DATA`, clear `TC`, and start the shifter if `EN = 1` and
`MSTR = 1` (R110, R111). -/
def State.loadData (s : State) (tx : Byte) : State :=
  { s with data := tx, tc := false, bitcnt := if s.enabled then 8#4 else s.bitcnt }.emit (.load tx)

/-- Step 3 of `Exchange`: `rx` is read from `DATA` (R110). -/
def State.readData (s : State) : State := s.emit (.done s.data)

/-- How an exchange ends. -/
inductive Xfer where
  /-- It completed with the captured byte. -/
  | done (rx : Byte) (s : State)
  /-- The shifter was not started: nothing will ever set `TC` (R111). -/
  | stuck (s : State)
deriving DecidableEq, Repr

/-- `Exchange(tx)` (R110): all eight passes of R113, or the hang of R111. -/
def State.exchange (s : State) (tx : Byte) : Xfer :=
  if s.enabled then
    .done (State.shiftBits 8 (s.loadData tx)).data (State.shiftBits 8 (s.loadData tx)).readData
  else .stuck ((s.loadData tx).moveTo .shifting)

/-! ### Reset (70_reset_and_hazards.md R150 to R153) -/

/-- Reset in a run: every piece of CORE's state at its value of 10_state.md R29. The line registers keep
what they held (R152), `DATA` is unspecified (a free value), the offered bytes that were not taken are
withdrawn with the packet they belonged to (R151). The platform, the slaves and the host's further moves
are no state of CORE. -/
def State.applyReset (s : State) : State :=
  { State.reset with
    cfg := s.cfg, grain := s.grain, lines := s.lines, rspReady := s.rspReady, miso := s.miso,
    host := s.host, data := Config.dataAfterReset s.draws, draws := s.draws + 1 }

end Sys2Proof.Machine
end

