-- ==== Sys2Proof/Machine/Init.lean ====
section
/-! DEFINITION. The initialisation command (spec/41_init.md). -/

namespace Sys2Proof.Machine

/-- INIT (R92): the direction bits of the own lines, then the one write of `CTRL`, then the status. -/
def execInit (s : State) : Out :=
  (State.dirSetAll s.cfg.ownLines (s.begin .init)).andThen fun t =>
    .next ((t.writeCtrl ctrlInit).putStatus statusOk)

end Sys2Proof.Machine
end

