-- ==== Sys2Proof/Machine/Registry.lean ====
section
/-! DEFINITION. The slave registry command (spec/40_registry.md). -/

namespace Sys2Proof.Machine

/-- REGISTER_SLAVE (R81): the checks in order, then the line high, then the slot, then the status. -/
def execRegisterSlave (id port : Byte) (rsv : BitVec 5) (bit : BitPos) (sel desel : Delay) (s : State) : Out :=
  match registerFault s.cfg.nports id port rsv (byte3 rsv bit) with
  | some (f, info) => .next ((s.begin (.registerSlave id port rsv bit sel desel)).raise f info)
  | none =>
    ((s.begin (.registerSlave id port rsv bit sel desel)).lineSet port bit).andThen fun t =>
      .next ((t.writeSlot id { port := port, bit := bit, sel := sel, desel := desel }).putStatus statusOk)

end Sys2Proof.Machine
end

