-- ==== Sys2Proof/Machine/Select.lean ====
section
/-! DEFINITION. The chip-select commands (spec/42_select.md). -/

namespace Sys2Proof.Machine

/-- SELECT (R102): the checks, the slot's line low, `Wait(sel)`, the status. -/
def execSelect (id : Byte) (s : State) : Out :=
  match s.lookup id with
  | .error f => .next ((s.begin (.select id)).raise f id)
  | .ok d =>
    ((s.begin (.select id)).lineClear d.port d.bit).andThen fun t =>
      .next ((t.wait d.sel).putStatus statusOk)

/-- DESELECT (R104): the checks, the slot's line high, `Wait(desel)`, the status. -/
def execDeselect (id : Byte) (s : State) : Out :=
  match s.lookup id with
  | .error f => .next ((s.begin (.deselect id)).raise f id)
  | .ok d =>
    ((s.begin (.deselect id)).lineSet d.port d.bit).andThen fun t =>
      .next ((t.wait d.desel).putStatus statusOk)

end Sys2Proof.Machine
end

