-- ==== Sys2Proof/Machine/Transfer.lean ====
section
/-! DEFINITION. The transfer commands (spec/43_transfer.md). -/

namespace Sys2Proof.Machine

/-- WRITE_BYTE (R115): one exchange, the captured byte discarded (R116), the status. -/
def execWriteByte (b : Byte) (s : State) : Out :=
  match (s.begin (.writeByte b)).exchange b with
  | .done _ t => .next (t.putStatus statusOk)
  | .stuck t => .next t

/-- READ_BYTE (R119): one exchange of the dummy byte (R120), the data byte, the status. -/
def execReadByte (s : State) : Out :=
  match (s.begin .readByte).exchange dummyByte with
  | .done rx t =>
    match t.takeRsp rx with
    | some u => .next (u.putStatus statusOk)
    | none => .next (t.moveTo (.data rx))
  | .stuck t => .next t

/-- `CNT <- CNT - 1` (R125: only where `CNT` is not 0). -/
def State.countByte (s : State) : State := { s with cnt := s.cnt - 1#8 }

/-- The loop of WRITE_BYTES (R117) with `n` bytes to go: `CmdNext`, `Exchange`, count; at 0 the status.
It stops where the host has offered no payload byte (20_memory.md R48) and where the shifter was not
started (R111). -/
def writeLoop : Nat → State → State
  | 0, s => s.putStatus statusOk
  | n + 1, s =>
    match s.cmdNext with
    | none => s.moveTo .payload
    | some (b, t) =>
      match t.exchange b with
      | .done _ u => writeLoop n u.countByte
      | .stuck u => u

/-- WRITE_BYTES (R117). -/
def execWriteBytes (n : Byte) (s : State) : Out :=
  .next (writeLoop n.toNat { s.begin (.writeBytes n) with cnt := n })

/-- The loop of READ_BYTES (R121) with `n` bytes to go: `Exchange(0x00)`, the data byte, count; at 0 the
status. It stops where the host does not take the data byte (20_memory.md R49) and where the shifter was
not started (R111). -/
def readLoop : Nat → State → State
  | 0, s => s.putStatus statusOk
  | n + 1, s =>
    match s.exchange dummyByte with
    | .done rx t =>
      match t.takeRsp rx with
      | some u => readLoop n u.countByte
      | none => t.moveTo (.data rx)
    | .stuck t => t

/-- READ_BYTES (R121). -/
def execReadBytes (n : Byte) (s : State) : Out :=
  .next (readLoop n.toNat { s.begin (.readBytes n) with cnt := n })

end Sys2Proof.Machine
end

