-- ==== Sys2Proof/Machine/Dispatch.lean ====
section
/-! DEFINITION. The meaning of every command: what it does once its packet has been taken, up to its end
or to the first point where it has to wait for the host or is stuck. -/

namespace Sys2Proof.Machine

def exec (i : Instr) (s : State) : Host.Outcome State Fault Refusal :=
  match i with
  | .init => Sys2Proof.Machine.execInit s
  | .registerSlave id port rsv bit sel desel => Sys2Proof.Machine.execRegisterSlave id port rsv bit sel desel s
  | .select id => Sys2Proof.Machine.execSelect id s
  | .deselect id => Sys2Proof.Machine.execDeselect id s
  | .writeByte b => Sys2Proof.Machine.execWriteByte b s
  | .writeBytes n => Sys2Proof.Machine.execWriteBytes n s
  | .readByte => Sys2Proof.Machine.execReadByte s
  | .readBytes n => Sys2Proof.Machine.execReadBytes n s

end Sys2Proof.Machine
end

