-- ==== Sys2Proof/Machine/HostMoves.lean ====
section
/-! DEFINITION. The moves of the host (spec/60_exceptions.md R147). -/

namespace Sys2Proof.Machine

/-- `SEQ = IDLE`. -/
def Seq.isIdle : Seq → Bool
  | .idle => true
  | .busy _ => false
  | .halted => false

/-- `PlatWrite` is enabled only while `SEQ = IDLE` (20_memory.md R46); every other move at any time. -/
def HostMove.enabled (m : HostMove) (s : State) : Bool :=
  match m with
  | .run => true
  | .offer _ => true
  | .ready _ => true
  | .platWrite _ _ => s.seq.isIdle
  | .reset => true

/-- The byte a move offers on the command stream (20_memory.md R48), if it is an offer. -/
def HostMove.offeredByte (m : HostMove) : Option Byte :=
  match m with
  | .offer b => some b
  | .run => none
  | .ready _ => none
  | .platWrite _ _ => none
  | .reset => none

/-- `PlatWrite(addr, v)` (20_memory.md R46). -/
def State.platWrite (s : State) (addr : BitVec 9) (v : Byte) : Out :=
  (s.memWrite addr.toNat v).andThen fun t => .next (t.emit (.plat addr v))

/-- What the host does with its turn. -/
inductive HostTurn where
  /-- Its move is this step. -/
  | moved (o : Out)
  /-- CORE has the step. -/
  | core (s : State)

/-- An enabled move, taken off the script. -/
def State.hostMove (s : State) (m : HostMove) : HostTurn :=
  match m with
  | .run => .core s
  | .offer b => .moved (.next { s with cmdIn := s.cmdIn ++ [b] })
  | .ready r => .moved (.next { s with rspReady := r })
  | .platWrite addr v => .moved (s.platWrite addr v)
  | .reset => .moved (.next s.applyReset)

/-- The host makes its next move if that is enabled; a move that is not yet enabled waits while CORE
goes on (20_memory.md R46). -/
def hostTurn (s : State) : HostTurn :=
  match s.host with
  | [] => .core s
  | m :: rest => if m.enabled s then { s with host := rest }.hostMove m else .core s

end Sys2Proof.Machine
end

