-- ==== Sys2Proof/Machine/Sequencer.lean ====
section
/-! DEFINITION. The sequencer, the shifter and the delay counter one micro-step at a time
(spec/10_state.md R22, R23; 20_memory.md R55), and the taking of command bytes (20_memory.md R48). -/

namespace Sys2Proof.Machine

/-- A fault inside a command: `FAULT`, `FINFO`, the event, and the sequencer at the status byte
(60_exceptions.md R131). -/
def State.microRaise (s : State) (f : CoreFault) (info : Byte) : State :=
  (s.enterFault f info).moveTo (.status f.code)

/-- `SEQ = BUSY` with these packet bytes taken (R22, R23). -/
def State.latchPacket (s : State) (opc : Byte) (latch : List Byte) (pos : Pos) : State :=
  { s with seq := .busy { opc := opc, latch := latch, pos := pos } }

/-- The sequencer has taken `b`, with `packet` the bytes of this packet up to and with `b`: the packet
is complete, or wants more bytes, or its opcode is illegal (30_encoding.md R67, 60_exceptions.md R132). -/
def State.acceptPacket (s : State) (opc : Byte) (latch : List Byte) : State :=
  match decode (opc :: latch) with
  | .command _ _ => s.latchPacket opc latch .body
  | .more => s.latchPacket opc latch .operands
  | .illegal c _ => (s.latchPacket opc latch .operands).microRaise .illegalCommand c

/-- `IDLE`: take the offered byte, if any, as an opcode (R22). -/
def State.takeOpcode (s : State) : State :=
  match s.cmdNext with
  | none => s
  | some (b, t) => t.acceptPacket b []

/-- Inside a packet: take the next offered byte, if any, as an operand byte (20_memory.md R48). -/
def State.takeOperand (s : State) (w : Work) : State :=
  match s.cmdNext with
  | none => s
  | some (b, t) => t.acceptPacket w.opc (w.latch ++ [b])

/-- The first micro-step of a command whose packet has been taken. -/
def microBody (i : Instr) (s : State) : Out :=
  match i with
  | .init => .next (s.moveTo (.ownLines s.cfg.ownLines))
  | .registerSlave id port rsv bit _ _ =>
    match registerFault s.cfg.nports id port rsv (byte3 rsv bit) with
    | some (f, info) => .next (s.microRaise f info)
    | none => (s.lineSet port bit).andThen fun t => .next (t.moveTo .storeSlot)
  | .select id =>
    match s.lookup id with
    | .error f => .next (s.microRaise f id)
    | .ok d => (s.lineClear d.port d.bit).andThen fun t => .next ({ t with dcnt := d.sel }.moveTo (.delay d.sel))
  | .deselect id =>
    match s.lookup id with
    | .error f => .next (s.microRaise f id)
    | .ok d => (s.lineSet d.port d.bit).andThen fun t => .next ({ t with dcnt := d.desel }.moveTo (.delay d.desel))
  | .writeByte b => .next ((s.loadData b).moveTo .shifting)
  | .writeBytes n => .next ({ s with cnt := n }.moveTo .payload)
  | .readByte => .next ((s.loadData dummyByte).moveTo .shifting)
  | .readBytes n => .next ({ s with cnt := n }.moveTo .readNext)

/-- INIT between its packet and its status: the next own line, or the write of `CTRL` (41_init.md R92). -/
def microOwnLines (rest : List Line) (s : State) : Out :=
  match rest with
  | l :: more => (s.dirSet l.port l.bit).andThen fun t => .next (t.moveTo (.ownLines more))
  | [] => .next ((s.writeCtrl ctrlInit).moveTo (.status statusOk))

/-- REGISTER_SLAVE after its line write: the slot (40_registry.md R81). -/
def microStoreSlot (i : Instr) (s : State) : State :=
  match i with
  | .registerSlave id port _ bit sel desel =>
    (s.writeSlot id { port := port, bit := bit, sel := sel, desel := desel }).moveTo (.status statusOk)
  | .init | .select _ | .deselect _ | .writeByte _ | .writeBytes _ | .readByte | .readBytes _ => s

/-- `Wait(d)`: one DQ passes, or the count is at 0 and the wait has ended (42_select.md R100). -/
def microDelay (d : Delay) (s : State) : State :=
  if s.dcnt = 0x0000#16 then (s.emit (.wait d)).moveTo (.status statusOk)
  else { s with dcnt := s.dcnt - 1#16 }

/-- WRITE_BYTES at the head of its loop (43_transfer.md R117). -/
def microPayload (s : State) : State :=
  if s.cnt = 0x00#8 then s.moveTo (.status statusOk)
  else
    match s.cmdNext with
    | none => s
    | some (b, t) => (t.loadData b).moveTo .shifting

/-- READ_BYTES at the head of its loop (43_transfer.md R121). -/
def microReadNext (s : State) : State :=
  if s.cnt = 0x00#8 then s.moveTo (.status statusOk)
  else (s.loadData dummyByte).moveTo .shifting

/-- The shifter's step while the sequencer waits: an edge of `sck`, or nothing when the shifter is not
running (43_transfer.md R111, R113). -/
def microShifter (s : State) : State :=
  if s.bitcnt = 0#4 then s
  else
    match s.sck with
    | .low => s.sckRise
    | .high _ => s.sckFall

/-- The sequencer's step once `TC = 1`: `DATA` is read and the command goes on (43_transfer.md R110). -/
def microExchanged (i : Instr) (s : State) : State :=
  match i with
  | .writeByte _ => s.readData.moveTo (.status statusOk)
  | .writeBytes _ => s.readData.countByte.moveTo .payload
  | .readByte => s.readData.moveTo (.data s.data)
  | .readBytes _ => s.readData.moveTo (.data s.data)
  | .init | .registerSlave _ _ _ _ _ _ | .select _ | .deselect _ => s

/-- `RspPut` of a data byte (20_memory.md R49, 43_transfer.md R119, R121). -/
def microData (i : Instr) (v : Byte) (s : State) : State :=
  match s.takeRsp v with
  | none => s
  | some t =>
    match i with
    | .readBytes _ => t.countByte.moveTo .readNext
    | .init | .registerSlave _ _ _ _ _ _ | .select _ | .deselect _ | .writeByte _ | .writeBytes _ | .readByte =>
      t.moveTo (.status statusOk)

/-- One micro-step of command `i` at position `pos`. -/
def microCommand (i : Instr) (pos : Pos) (s : State) : Out :=
  match pos with
  | .operands => .next s
  | .body => microBody i s
  | .ownLines rest => microOwnLines rest s
  | .storeSlot => .next (microStoreSlot i s)
  | .delay d => .next (microDelay d s)
  | .payload => .next (microPayload s)
  | .readNext => .next (microReadNext s)
  | .shifting => .next (if s.tc then microExchanged i s else microShifter s)
  | .data v => .next (microData i v s)
  | .status v => .next (s.putStatus v)

/-- One micro-step while `SEQ = BUSY`: the next byte of an incomplete packet, the status byte, or a step
of the command the latches hold (R23). -/
def microStep (w : Work) (s : State) : Out :=
  match w.pos, decode (w.opc :: w.latch) with
  | .operands, _ => .next (s.takeOperand w)
  | .status v, _ => .next (s.putStatus v)
  | pos, .command i _ => microCommand i pos s
  | _, _ => .next s

/-- One step of CORE that is not a whole command. In `IDLE` with no byte offered, at a wait that nothing
has lifted, and in `HALTED` the state stays as it is (60_exceptions.md R137). -/
def coreStep (s : State) : Out :=
  match s.seq with
  | .idle => .next s.takeOpcode
  | .busy w => microStep w s
  | .halted => .next s

/-- What the command fetch finds. -/
inductive Fetched where
  /-- A packet offered whole, taken; the command runs in this step. -/
  | run (i : Instr) (s : State)
  /-- An illegal opcode, taken and answered in this step. -/
  | illegal (s : State)
  /-- Neither: CORE takes a micro-step. -/
  | micro
deriving DecidableEq, Repr

/-- The command fetch (R22, 30_encoding.md R67): in `IDLE`, with `grain = command`, a packet that is
offered whole is taken at once. -/
def fetch (s : State) : Fetched :=
  match s.grain, s.seq with
  | .command, .idle =>
    match decode s.cmdIn with
    | .command i rest => .run i { s with cmdIn := rest }
    | .illegal opc rest =>
      .illegal (({ s with cmdIn := rest }.latchPacket opc [] .operands).raise .illegalCommand opc)
    | .more => .micro
  | _, _ => .micro

end Sys2Proof.Machine
end

