-- ==== Sys2Proof/Machine/Step.lean ====
section
/-! DEFINITION. One step of the closed system: the host's next move, or else CORE's. -/

namespace Sys2Proof.Machine

/-- CORE's step: a packet offered whole is fetched and run, else one micro-step. -/
def coreTurn (s : State) : Host.Outcome State Fault Refusal :=
  match fetch s with
  | .run i t => exec i t
  | .illegal t => .next t
  | .micro => coreStep s

/-- One step (spec/00_scope.md R7: the host and CORE take turns; which one moves is data of the state). -/
def step (s : State) : Host.Outcome State Fault Refusal :=
  match hostTurn s with
  | .moved o => o
  | .core t => coreTurn t

/-- `s` with the packet of a table word as the command stream, and CORE ready to fetch it whole: `SEQ` at
`IDLE`, no host move before it. -/
def State.withFetchWord (s : State) (nbits w : Nat) : State :=
  { s with cmdIn := tablePacket nbits w, seq := .idle, grain := .command, host := [] }

end Sys2Proof.Machine
end

