-- ==== Sys2Proof/Machine/Assembler.lean ====
section
/-! DEFINITION. The assembler of spec/30_encoding.md R70 to R72: lines, the delay literal `us(t)` and the
two pseudo-instructions. It makes packets; it is no part of the machine's step. -/

namespace Sys2Proof.Machine

/-- A delay operand (R70): a number of DQ, or `us(t)` with `t = num / den` microseconds. -/
inductive DelayLit where
  | dq (d : Delay)
  | us (num den : Nat)
deriving DecidableEq, Repr

/-- One line of assembly (R70), its operands read. -/
inductive AsmLine where
  | init
  | registerSlave (id port : Byte) (bit : BitPos) (sel desel : DelayLit)
  | select (id : Byte)
  | deselect (id : Byte)
  | writeByte (b : Byte)
  | writeBytes (buf : List Byte)
  | readByte
  | readBytes (n : Nat)
deriving DecidableEq, Repr

/-- `ceil(16 * num / den)` (R71). -/
def dqOfMicros (num den : Nat) : Nat := (Config.dqPerMicrosecond * num + (den - 1)) / den

/-- The value of a delay literal; refused if it has no encoding (R71) or is no number. -/
def DelayLit.value : DelayLit → Option Delay
  | .dq d => some d
  | .us num den =>
    if den = 0 then none
    else if dqOfMicros num den ≤ 65535 then some (BitVec.ofNat 16 (dqOfMicros num den))
    else none

/-- `write_bytes` of any length as WRITE_BYTES packets of at most 255 bytes, in order, the largest first
(R72 (a)); `fuel` bounds the number of packets. -/
def splitWrite : Nat → List Byte → List Byte
  | 0, buf => encode (.writeBytes (BitVec.ofNat 8 buf.length)) ++ buf
  | fuel + 1, buf =>
    if buf.length ≤ 255 then encode (.writeBytes (BitVec.ofNat 8 buf.length)) ++ buf
    else encode (.writeBytes 0xFF#8) ++ buf.take 255 ++ splitWrite fuel (buf.drop 255)

/-- `read_bytes n` as READ_BYTES packets whose counts sum to `n` (R72 (b)). -/
def splitRead : Nat → Nat → List Byte
  | 0, n => encode (.readBytes (BitVec.ofNat 8 n))
  | fuel + 1, n =>
    if n ≤ 255 then encode (.readBytes (BitVec.ofNat 8 n))
    else encode (.readBytes 0xFF#8) ++ splitRead fuel (n - 255)

/-- The bytes of a line (R70 to R72); `none` where a delay literal is refused. -/
def assemble : AsmLine → Option (List Byte)
  | .init => some (encode .init)
  | .registerSlave id port bit sel desel =>
    match sel.value, desel.value with
    | some a, some b => some (encode (.registerSlave id port 0#5 bit a b))
    | _, _ => none
  | .select id => some (encode (.select id))
  | .deselect id => some (encode (.deselect id))
  | .writeByte b => some (encode (.writeByte b))
  | .writeBytes buf => some (splitWrite (buf.length / 255) buf)
  | .readByte => some (encode .readByte)
  | .readBytes n => some (splitRead (n / 255) n)

end Sys2Proof.Machine
end

