-- ==== Sys2Proof/Machine/AsmText.lean ====
section
/-! DEFINITION. The text of assembly programs (spec/30_encoding.md R70, with the raw bytes of P4 in
95_test_vectors.md): from characters to the lines of Assembler.lean. Log entry 21. -/

namespace Sys2Proof.Machine

/-! ### Numbers (00_scope.md R5: `0x` hexadecimal, `0b` binary, otherwise decimal) -/

/-- A digit in a base of at most 16, in either case. -/
def digitOf (base : Nat) (c : Char) : Option Nat :=
  let n := c.toNat
  let d := if 48 ≤ n ∧ n ≤ 57 then n - 48
    else if 97 ≤ n ∧ n ≤ 102 then n - 87
    else if 65 ≤ n ∧ n ≤ 70 then n - 55
    else base
  if d < base then some d else none

/-- Digits after what has been read so far. -/
def readDigitsFrom (base : Nat) : Nat → List Char → Option Nat
  | acc, [] => some acc
  | acc, c :: rest =>
    match digitOf base c with
    | some d => readDigitsFrom base (acc * base + d) rest
    | none => none

/-- One digit or more. -/
def readDigits (base : Nat) (w : List Char) : Option Nat :=
  if w = [] then none else readDigitsFrom base 0 w

/-- A number (R5). -/
def readNumber : List Char → Option Nat
  | '0' :: 'x' :: ds => readDigits 16 ds
  | '0' :: 'b' :: ds => readDigits 2 ds
  | ds => readDigits 10 ds

/-- A number that fits in `w` bits. -/
def readField (w : Nat) (t : List Char) : Option (BitVec w) :=
  match readNumber t with
  | some n => if n < 2 ^ w then some (BitVec.ofNat w n) else none
  | none => none

/-! ### Cutting text -/

/-- Space and tab. -/
def isBlank (c : Char) : Bool := c == ' ' || c == '\t'

/-- Without the blanks at either end. -/
def trimBlanks (t : List Char) : List Char :=
  ((t.dropWhile isBlank).reverse.dropWhile isBlank).reverse

/-- The pieces between the characters `c`. -/
def splitAtChar (c : Char) : List Char → List (List Char)
  | [] => [[]]
  | x :: rest =>
    if x = c then [] :: splitAtChar c rest
    else match splitAtChar c rest with
      | w :: ws => (x :: w) :: ws
      | [] => [[x]]

/-- "A semicolon starts a comment" (R70). -/
def dropComment (t : List Char) : List Char := t.takeWhile (· != ';')

/-- Comma-separated operands (R70), trimmed; no text is no operand. -/
def operandsOf (t : List Char) : List (List Char) :=
  if trimBlanks t = [] then [] else (splitAtChar ',' t).map trimBlanks

/-- All of them, or none. -/
def allRead {α : Type} (f : List Char → Option α) : List (List Char) → Option (List α)
  | [] => some []
  | w :: ws =>
    match f w, allRead f ws with
    | some a, some rest => some (a :: rest)
    | _, _ => none

/-! ### Delay operands (R70, R71) -/

/-- The decimal between the brackets of `us()`, as numerator and denominator. -/
def readDecimal (t : List Char) : Option (Nat × Nat) :=
  match splitAtChar '.' t with
  | [whole] => (readDigits 10 whole).map fun n => (n, 1)
  | [whole, part] =>
    match readDigits 10 whole, readDigits 10 part with
    | some n, some m => some (n * 10 ^ part.length + m, 10 ^ part.length)
    | _, _ => none
  | _ => none

/-- A delay operand: a number of DQ, or `us(<decimal>)`. -/
def readDelay : List Char → Option DelayLit
  | 'u' :: 's' :: '(' :: rest =>
    match rest.reverse with
    | ')' :: inner => (readDecimal (trimBlanks inner.reverse)).map fun d => .us d.1 d.2
    | _ => none
  | t => (readField 16 t).map .dq

/-! ### Mnemonics (R70: the operation's name, in upper or in lower case) -/

/-- What a line can start with. -/
inductive Mnemonic where
  | init | registerSlave | select | deselect | writeByte | writeBytes | readByte | readBytes
  /-- `.bytes`, raw bytes (95_test_vectors.md P4). -/
  | bytes
deriving DecidableEq, Repr

/-- The lower-case letter of an upper-case one; any other character is itself. -/
def lowerChar (c : Char) : Char :=
  if 65 ≤ c.toNat ∧ c.toNat ≤ 90 then Char.ofNat (c.toNat + 32) else c

/-- The mnemonics in lower case. -/
def mnemonicNames : List (List Char × Mnemonic) :=
  [(['i', 'n', 'i', 't'], .init),
   (['r', 'e', 'g', 'i', 's', 't', 'e', 'r', '_', 's', 'l', 'a', 'v', 'e'], .registerSlave),
   (['s', 'e', 'l', 'e', 'c', 't'], .select),
   (['d', 'e', 's', 'e', 'l', 'e', 'c', 't'], .deselect),
   (['w', 'r', 'i', 't', 'e', '_', 'b', 'y', 't', 'e'], .writeByte),
   (['w', 'r', 'i', 't', 'e', '_', 'b', 'y', 't', 'e', 's'], .writeBytes),
   (['r', 'e', 'a', 'd', '_', 'b', 'y', 't', 'e'], .readByte),
   (['r', 'e', 'a', 'd', '_', 'b', 'y', 't', 'e', 's'], .readBytes),
   (['.', 'b', 'y', 't', 'e', 's'], .bytes)]

/-- The mnemonic a word names. -/
def readMnemonic (w : List Char) : Option Mnemonic :=
  ((mnemonicNames.find? fun e => e.1 == w.map lowerChar)).map (·.2)

/-! ### Lines and programs -/

/-- A line of a program, read. -/
inductive AsmItem where
  /-- A command or a pseudo-instruction (R70, R72). -/
  | line (l : AsmLine)
  /-- Raw bytes. -/
  | raw (bs : List Byte)
deriving DecidableEq, Repr

/-- The operands of a mnemonic (R70). -/
def readOperands (m : Mnemonic) (t : List Char) : Option AsmItem :=
  match m, operandsOf t with
  | .init, [] => some (.line .init)
  | .registerSlave, [id, port, bit, sel, desel] =>
    match readField 8 id, readField 8 port, readField 3 bit, readDelay sel, readDelay desel with
    | some i, some p, some b, some s, some d => some (.line (.registerSlave i p b s d))
    | _, _, _, _, _ => none
  | .select, [id] => (readField 8 id).map fun i => .line (.select i)
  | .deselect, [id] => (readField 8 id).map fun i => .line (.deselect i)
  | .writeByte, [b] => (readField 8 b).map fun v => .line (.writeByte v)
  | .writeBytes, bs => (allRead (readField 8) bs).map fun vs => .line (.writeBytes vs)
  | .readByte, [] => some (.line .readByte)
  | .readBytes, [n] => (readNumber n).map fun k => .line (.readBytes k)
  | .bytes, _ =>
    (allRead (fun w => (readDigits 16 w).bind fun n => if n < 256 then some (BitVec.ofNat 8 n) else none)
      ((splitAtChar ' ' (trimBlanks t)).filter (· != []))).map .raw
  | _, _ => none

/-- One line of text: nothing but blanks and a comment (`some none`), an item, or refused (`none`). -/
def readLine (t : List Char) : Option (Option AsmItem) :=
  let body := trimBlanks (dropComment t)
  if body = [] then some none
  else
    match readMnemonic (body.takeWhile fun c => !isBlank c) with
    | some m => (readOperands m (body.dropWhile fun c => !isBlank c)).map some
    | none => none

/-- The bytes of one line. -/
def assembleLine (t : List Char) : Option (List Byte) :=
  match readLine t with
  | some none => some []
  | some (some (.line l)) => assemble l
  | some (some (.raw bs)) => some bs
  | none => none

/-- The command stream of a program, one command per line (R70). -/
def assembleText (t : List Char) : Option (List Byte) :=
  (allRead assembleLine (splitAtChar '\n' t)).map List.flatten

end Sys2Proof.Machine
end

