-- ==== Sys2Proof/Machine/Ports.lean ====
section
/-! DEFINITION. What can be seen of CORE from outside: ports and pins as functions of state
(spec/10_state.md R27, R31; 20_memory.md R46, R48, R49), and the source's state names (00_scope.md R8). -/

namespace Sys2Proof.Machine

/-- The level of a pin. -/
inductive PinLevel where
  /-- Driven by CORE at a level. -/
  | driven (l : Bool)
  /-- Driven or not, the spec gives no level (a draw each time something observes it). -/
  | unspecified
deriving DecidableEq, Repr

/-- The bit `b` of `VAL[p]`. -/
def State.valBit (s : State) (l : Line) : Bool := (s.lineByte (valAddr l.port)).getLsbD l.bit.toNat

/-- The bit `b` of `DIR[p]`. -/
def State.dirBit (s : State) (l : Line) : Bool := (s.lineByte (dirAddr l.port)).getLsbD l.bit.toNat

/-- The pin of line `(p, b)` carries `VAL[p][b]` while `DIR[p][b] = 1` (R27). -/
def State.linePin (s : State) (l : Line) : PinLevel :=
  if s.dirBit l then .driven (s.valBit l) else .unspecified

/-- The pin `sck`: driven only while `EN = 1` and `MSTR = 1` (R27); high from the rising to the falling
edge of a pass, low otherwise (43_transfer.md R113). -/
def State.sckPin (s : State) : PinLevel :=
  if s.enabled then
    match s.sck with
    | .low => .driven false
    | .high _ => .driven true
  else .unspecified

/-- The pin `mosi`: `DATA[7]` during an exchange, unspecified between exchanges (R27, 43_transfer.md
R113). -/
def State.mosiPin (s : State) : PinLevel :=
  if s.enabled && decide (s.bitcnt ≠ 0#4) then .driven (s.data.getLsbD 7) else .unspecified

/-- A slave on line `l` is selected: its line is an output and low (R27). -/
def State.lineSelected (s : State) (l : Line) : Bool := s.dirBit l && !s.valBit l

/-- `Selected` of the source's state machine: the slot is valid and its line is driven low (R8). -/
def State.selected (s : State) (id : Byte) : Bool :=
  match s.slot id with
  | some d => s.lineSelected ⟨d.port, d.bit⟩
  | none => false

/-- The line `l` is an output and high (R27). -/
def State.lineDeselected (s : State) (l : Line) : Bool := s.dirBit l && s.valBit l

/-- `Deselected` of the source's state machine: the slot is valid and its line is driven high (R8). A slave
whose line is no output is neither selected nor deselected: its pin has no level (R27). -/
def State.deselected (s : State) (id : Byte) : Bool :=
  match s.slot id with
  | some d => s.lineDeselected ⟨d.port, d.bit⟩
  | none => false

/-- `Initialized` of the source's state machine (R8); `Uninitialized` is its negation. -/
def State.initialized (s : State) : Bool := s.enabled

/-- The input `rst`: 1 while the host's move is a reset (70_reset_and_hazards.md R150). A reset that is
held for several clock edges is that move several times. -/
def State.rst (s : State) : Bool :=
  match s.host with
  | .reset :: _ => true
  | _ => false

/-- CORE stands at a `CmdNext()` (20_memory.md R48). -/
def State.atCmdNext (s : State) : Bool :=
  match s.seq with
  | .idle => true
  | .busy w =>
    match w.pos with
    | .operands => true
    | .payload => decide (s.cnt ≠ 0x00#8)
    | .body | .ownLines _ | .storeSlot | .delay _ | .readNext | .shifting | .data _ | .status _ => false
  | .halted => false

/-- The port `cmd_ready`: 1 only while CORE stands at a `CmdNext()` (20_memory.md R48), and 0 during reset
(70_reset_and_hazards.md R151). -/
def State.cmdReady (s : State) : Bool := !s.rst && s.atCmdNext

/-- The byte of the `RspPut` CORE stands at, if it stands at one (R49). -/
def State.atRspPut (s : State) : Option Byte :=
  match s.seq with
  | .idle => none
  | .busy w =>
    match w.pos with
    | .data v => some v
    | .status v => some v
    | .operands | .body | .ownLines _ | .storeSlot | .delay _ | .payload | .readNext | .shifting => none
  | .halted => none

/-- The ports `rsp_valid` and `rsp_data`: the byte CORE offers (R49); none during reset
(70_reset_and_hazards.md R151). -/
def State.rspOffered (s : State) : Option Byte := if s.rst then none else s.atRspPut

/-- The response stream so far: the bytes the host has taken since reset (R30). -/
def responses (h : List Event) : List Byte :=
  h.filterMap fun e =>
    match e with
    | .rsp v => some v
    | .dir _ _ | .ctrl _ | .line _ _ _ | .wait _ | .load _ | .done _ | .fault _ _ | .plat _ _ => none

/-- The `EvLoad` and `EvDone` events of a history (43_transfer.md R118, R122). -/
def transfers (h : List Event) : List Event :=
  h.filter fun e =>
    match e with
    | .load _ | .done _ => true
    | .dir _ _ | .ctrl _ | .line _ _ _ | .wait _ | .rsp _ | .fault _ _ | .plat _ _ => false

/-- The host's read of a line register, which it may make while `SEQ = IDLE` (20_memory.md R46); it
changes nothing. -/
def State.hostRead (s : State) (addr : BitVec 9) : Option Byte :=
  if s.seq.isIdle then s.memRead addr.toNat else none

end Sys2Proof.Machine
end

