-- ==== Sys2Proof/Safety.lean ====
section
/-! DEFINITION. What claims about CORE are stated in: the invariant, the end of a run and the hangs
(spec/70_reset_and_hazards.md R168, 60_exceptions.md R137), and what a host must not do. -/

namespace Sys2Proof.Machine

/-- The platform's parameters are legal: `NPORTS` is 1 to 256, `OWN_LINES` is not empty and names legal
ports (00_scope.md R4, 41_init.md R91). -/
def configOk (c : Config) : Prop :=
  1 ≤ c.nports ∧ c.nports ≤ 256 ∧ c.ownLines ≠ [] ∧ ∀ l ∈ c.ownLines, portLegal c.nports l.port = true

/-- The line registers are canonical and none lies outside the line register space (20_memory.md R40). -/
def linesOk (s : State) : Prop :=
  Memory.wf s.lines = true ∧ ∀ c ∈ s.lines, c.1 < 2 * s.cfg.nports

/-- No slot names a line register that does not exist (20_memory.md R41, 60_exceptions.md R135). -/
def slotsOk (s : State) : Prop :=
  ∀ id d, s.slot id = some d → portLegal s.cfg.nports d.port = true

/-- `CTRL` holds its reset value or what INIT writes; its reserved bits are 0 (10_state.md R14 to R16). -/
def ctrlOk (s : State) : Prop := s.ctrl = 0x00#8 ∨ s.ctrl = ctrlInit

/-- `FAULT` is 0 or one of the four codes, and `FINFO` is 0 while there has been no fault (10_state.md
R20, 60_exceptions.md R130). -/
def faultOk (s : State) : Prop := s.fault.toNat ≤ 4 ∧ (s.fault = 0x00#8 → s.finfo = 0x00#8)

/-- The shifter is at rest. -/
def shifterIdle (s : State) : Prop := s.bitcnt = 0#4 ∧ s.sck = .low

/-- All three counters are 0 and the shifter is at rest (10_state.md R24). -/
def countersIdle (s : State) : Prop := s.cnt = 0x00#8 ∧ s.dcnt = 0x0000#16 ∧ shifterIdle s

/-- What `CNT` holds while a transfer command is at an exchange or a data byte (43_transfer.md R117,
R121). -/
def cntOk (i : Instr) (cnt : Byte) : Prop :=
  match i with
  | .writeByte _ => cnt = 0x00#8
  | .readByte => cnt = 0x00#8
  | .writeBytes n => cnt ≠ 0x00#8 ∧ cnt.toNat ≤ n.toNat
  | .readBytes n => cnt ≠ 0x00#8 ∧ cnt.toNat ≤ n.toNat
  | .init | .registerSlave _ _ _ _ _ _ | .select _ | .deselect _ => False

/-- The shifter during an exchange: while bits are left it is enabled and `TC` is 0; when none is left,
`TC` is 1 exactly if it was started (43_transfer.md R110, R111, R113). -/
def shiftingOk (s : State) : Prop :=
  s.bitcnt.toNat ≤ 8 ∧ (s.bitcnt ≠ 0#4 → s.enabled = true ∧ s.tc = false) ∧
    (s.bitcnt = 0#4 → s.sck = .low ∧ s.tc = s.enabled)

/-- The positions a command can be at, and what the counters hold there. -/
def posOk (i : Instr) (pos : Pos) (s : State) : Prop :=
  match pos with
  | .operands => False
  | .body => countersIdle s
  | .ownLines rest => i = .init ∧ rest <:+ s.cfg.ownLines ∧ countersIdle s
  | .storeSlot =>
    match i with
    | .registerSlave _ port _ _ _ _ => portLegal s.cfg.nports port = true ∧ countersIdle s
    | .init | .select _ | .deselect _ | .writeByte _ | .writeBytes _ | .readByte | .readBytes _ => False
  | .delay d => s.cnt = 0x00#8 ∧ s.dcnt.toNat ≤ d.toNat ∧ shifterIdle s
  | .payload => (∃ n, i = .writeBytes n ∧ s.cnt.toNat ≤ n.toNat) ∧ s.dcnt = 0x0000#16 ∧ shifterIdle s
  | .readNext => (∃ n, i = .readBytes n ∧ s.cnt.toNat ≤ n.toNat) ∧ s.dcnt = 0x0000#16 ∧ shifterIdle s
  | .shifting => cntOk i s.cnt ∧ s.dcnt = 0x0000#16 ∧ shiftingOk s
  | .data _ =>
    (i = .readByte ∨ ∃ n, i = .readBytes n) ∧ cntOk i s.cnt ∧ s.dcnt = 0x0000#16 ∧ shifterIdle s
  | .status _ => False

/-- What the sequencer holds while `SEQ = BUSY` fits the state: an incomplete packet, a status byte on
offer, or a command at one of its positions (10_state.md R23). -/
def workOk (w : Work) (s : State) : Prop :=
  (w.pos = .operands ∧ decode (w.opc :: w.latch) = .more ∧ countersIdle s) ∨
  (∃ v, w.pos = .status v ∧ v.toNat ≤ 4 ∧ (v ≠ statusOk → s.fault ≠ 0x00#8) ∧ countersIdle s) ∨
  (∃ i, decode (w.opc :: w.latch) = .command i [] ∧ posOk i w.pos s)

/-- `SEQ` fits the state: the counters are 0 whenever no command is in progress (10_state.md R24), and
`HALTED` is only reached by a fault (60_exceptions.md R132). -/
def seqOk (s : State) : Prop :=
  match s.seq with
  | .idle => countersIdle s
  | .busy w => workOk w s
  | .halted => countersIdle s ∧ s.fault ≠ 0x00#8

/-- The invariant of CORE. -/
structure State.Inv (s : State) : Prop where
  config : configOk s.cfg
  lines : linesOk s
  slots : slotsOk s
  ctrl : ctrlOk s
  fault : faultOk s
  seq : seqOk s

/-- A move of the host that addresses no line register that does not exist (20_memory.md R41). -/
def HostMove.legal (nports : Nat) (m : HostMove) : Prop :=
  match m with
  | .platWrite addr _ => addr.toNat < 2 * nports
  | .run | .offer _ | .ready _ | .reset => True

/-- Every move the host will make is legal. -/
def State.hostLegal (s : State) : Prop := ∀ m ∈ s.host, m.legal s.cfg.nports

/-- The host takes at least `n` more response bytes (20_memory.md R49). -/
def State.takes (s : State) (n : Nat) : Prop :=
  match s.rspReady with
  | .always => True
  | .upTo k => n ≤ k

/-- The host's readiness after it has taken a byte. -/
def RspReady.afterTake (r : RspReady) : RspReady :=
  match r with
  | .always => .always
  | .upTo n => .upTo (n - 1)

/-- How many data bytes the response of a command that completes has before its status byte
(30_encoding.md R68). -/
def dataBytes (i : Instr) : Nat :=
  match i with
  | .readByte => 1
  | .readBytes n => n.toNat
  | .init | .registerSlave _ _ _ _ _ _ | .select _ | .deselect _ | .writeByte _ | .writeBytes _ => 0

/-- The status bytes a command that faults can send (30_encoding.md R68). -/
def faultCodes (i : Instr) : List Byte :=
  match i with
  | .registerSlave _ _ _ _ _ _ => [0x02#8, 0x04#8]
  | .select _ | .deselect _ => [0x02#8, 0x03#8]
  | .init | .writeByte _ | .writeBytes _ | .readByte | .readBytes _ => []

/-- One of the four transfer commands (43_transfer.md). -/
def isTransfer (i : Instr) : Bool :=
  match i with
  | .writeByte _ | .writeBytes _ | .readByte | .readBytes _ => true
  | .init | .registerSlave _ _ _ _ _ _ | .select _ | .deselect _ => false

/-- Commands one after the other, each on the state the one before left. -/
def execAll : List Instr → State → Host.Outcome State Fault Refusal
  | [], s => .next s
  | i :: rest, s => Out.andThen (exec i s) (execAll rest)

/-- What is left of the command stream: the bytes offered and not yet taken, then those the host will
still offer (20_memory.md R48, 70_reset_and_hazards.md R168). -/
def State.streamLeft (s : State) : List Byte := s.cmdIn ++ s.host.filterMap HostMove.offeredByte

/-- The run has ended well: every byte of the stream taken, `SEQ = IDLE`, every response byte taken,
`FAULT = 0x00` (70_reset_and_hazards.md R168). -/
def State.endedWell (s : State) : Prop :=
  s.streamLeft = [] ∧ s.seq = .idle ∧ s.rspOffered = none ∧ s.fault = 0x00#8

/-- A hang that only reset ends: an exchange whose shifter was not started, or `HALTED`
(60_exceptions.md R137, first and last row). -/
def State.hung (s : State) : Prop :=
  (∃ opc latch, s.seq = .busy ⟨opc, latch, .shifting⟩ ∧ s.tc = false ∧ s.bitcnt = 0#4) ∨ s.seq = .halted

/-- The next move of the host is a reset. -/
def State.resetNext (s : State) : Prop := ∃ rest, s.host = .reset :: rest

/-- The byte the host's next move offers, if that move is an offer (20_memory.md R48). -/
def State.offeredNext (s : State) : List Byte := (s.host.head?.bind HostMove.offeredByte).toList

/-- The command whose pseudocode a step of CORE runs: the one the latches hold (10_state.md R23), or, where
a packet offered whole is fetched and run in one step, the one it decodes to (30_encoding.md R67). -/
def State.running (s : State) : Option Instr :=
  match s.seq, s.grain with
  | .busy w, _ => (decode (w.opc :: w.latch)).command?
  | .idle, .command => (decode s.cmdIn).command?
  | .idle, .fine => none
  | .halted, _ => none

/-- `n` steps of the machine. -/
def State.runs (s : State) (n : Nat) : Host.Outcome State Fault Refusal := core.run n s

end Sys2Proof.Machine
end

