-- ==== Sys2Proof/Certificates/Slice0/Obligations.lean ====
section
/-! DEFINITION. The statements about CORE for the provers, each with the rule of spec/ it formalises. -/

open Sys2Proof Sys2Proof.Machine

/-! ### Encoding (spec/30_encoding.md) -/

/-- Decoding the packet of any command, legal operands or not, less the payload of WRITE_BYTES, gives that
command and the bytes after it: no bit of an encoding is dropped (R61, R63, R64). That the decoder ends
the packet of WRITE_BYTES after its count byte and leaves the payload in the stream is the model's choice
(log entry 16). -/
def Obligations.DecodeOfEncode : Prop :=
  ∀ (i : Instr) (rest : List Byte), decode (encode i ++ rest) = .command i rest

/-- What decodes to a command begins with exactly the bytes `encode` gives for it, opcode and operands, and
the rest is what follows them: no two such byte sequences decode to one command (R61, R64). The payload
of WRITE_BYTES is no part of what is decoded: it is left in the rest, the model's choice (log entry 16). -/
def Obligations.EncodeOfDecode : Prop :=
  ∀ (bs : List Byte) (i : Instr) (rest : List Byte), decode bs = .command i rest → bs = encode i ++ rest

/-- Words written out from the opcode map (R64): the vectors E1 to E7, E9, E14 of 95_test_vectors.md, the
packets `05 A5` and `07`, E8 with its payload left in the rest (the model's choice, log entry 16), and
E13, a packet that is not complete. -/
def Obligations.DecodedWords : Prop :=
  decode [0x01#8] = .command .init [] ∧
  decode [0x02#8, 0x03#8, 0x01#8, 0x04#8, 0x10#8, 0x00#8, 0x20#8, 0x00#8]
    = .command (.registerSlave 3#8 1#8 0#5 4#3 16#16 32#16) [] ∧
  decode [0x02#8, 0x07#8, 0x03#8, 0x07#8, 0xFF#8, 0xFF#8, 0x34#8, 0x12#8]
    = .command (.registerSlave 7#8 3#8 0#5 7#3 65535#16 4660#16) [] ∧
  decode [0x02#8, 0x03#8, 0x01#8, 0x0C#8, 0x10#8, 0x00#8, 0x20#8, 0x00#8]
    = .command (.registerSlave 3#8 1#8 1#5 4#3 16#16 32#16) [] ∧
  decode [0x03#8, 0x00#8] = .command (.select 0#8) [] ∧
  decode [0x04#8, 0x07#8] = .command (.deselect 7#8) [] ∧
  decode [0x05#8, 0x00#8] = .command (.writeByte 0x00#8) [] ∧
  decode [0x05#8, 0xA5#8] = .command (.writeByte 0xA5#8) [] ∧
  decode [0x06#8, 0x00#8] = .command (.writeBytes 0#8) [] ∧
  decode [0x06#8, 0x02#8, 0x01#8, 0x00#8, 0x07#8] = .command (.writeBytes 2#8) [0x01#8, 0x00#8, 0x07#8] ∧
  decode [0x07#8] = .command .readByte [] ∧
  decode [0x08#8, 0xFF#8] = .command (.readBytes 255#8) [] ∧
  decode [0x03#8] = .more

/-- R65: exactly the opcodes `0x00` and `0x09` to `0xFF` select no command, and taking one raises
IllegalCommand: the one byte is consumed, the status byte 0x01 is sent, `FAULT` and `FINFO` record it if
they are free, nothing else changes, and the sequencer is `HALTED`. How many steps that takes is the
model's choice (log entries 10, 17): at most two. -/
def Obligations.IllegalOpcodeHalts : Prop :=
  (∀ (opc : Byte) (rest : List Byte),
    decode (opc :: rest) = .illegal opc rest ↔ (opc = 0x00#8 ∨ 9 ≤ opc.toNat)) ∧
  (∀ (s : State) (opc : Byte) (rest : List Byte),
    s.seq = .idle → s.host = [] → s.cmdIn = opc :: rest → (opc = 0x00#8 ∨ 9 ≤ opc.toNat) → s.takes 1 →
    ∃ n, n ≤ 2 ∧ s.runs n = .next
      { s with
        cmdIn := rest, seq := .halted, rspReady := s.rspReady.afterTake,
        fault := if s.fault = 0x00#8 then 0x01#8 else s.fault,
        finfo := if s.fault = 0x00#8 then opc else s.finfo,
        hist := s.hist ++ [.fault 0x01#8 opc, .rsp 0x01#8] })

/-! ### The step -/

/-- A packet offered whole while `SEQ = IDLE` is fetched and run: the step is `exec` of the decoded
command on the state with the packet's bytes taken off the stream. The script of host moves and the grain
are the model's own (log entries 9, 10): the script is empty, or its next entry is the move `run`, which
the step takes off, and the grain is `command`. -/
def Obligations.StepRunsDecoded : Prop :=
  ∀ (s : State) (i : Instr) (rest : List Byte),
    (s.host = [] ∨ ∃ hs, s.host = .run :: hs) → s.grain = .command → s.seq = .idle →
    decode s.cmdIn = .command i rest →
    step s = exec i { s with cmdIn := rest, host := s.host.tail }

/-- The fine grain reaches what `exec` says: a command whose packet is offered whole, run micro-step by
micro-step (each pass of the shifter, each DQ of a wait, each response byte a step of its own), arrives
at exactly the state `exec` gives, whether the command completes, waits for the host, or hangs (R67 of
30_encoding.md, R114 of 43_transfer.md: "one atomic step"; the two grains are the model's own, log entry
10). -/
def Obligations.MicroStepsReachExec : Prop :=
  ∀ (s t : State) (i : Instr) (rest : List Byte),
    s.Inv → s.host = [] → s.grain = .fine → s.seq = .idle → decode s.cmdIn = .command i rest →
    exec i { s with cmdIn := rest } = .next t → ∃ n, s.runs n = .next t

/-- R48: the command bytes are taken in order, each once, and none that was not asked for. A step that is
not a reset takes bytes from the front of those offered and leaves the others as they were, with the byte
the host's move offers, if it offers one, behind them. It takes none where CORE stands at no `CmdNext`, and
none where the step is a move of the host, whichever move that is; it takes at most the packet of the
command it runs where it runs a whole packet, and at most one byte elsewhere. (The list of offered bytes,
the script of host moves and the running of a packet in one step are the model's, log entries 6, 9 and
10.) -/
def Obligations.CommandBytesInOrder : Prop :=
  ∀ (s t : State), step s = .next t → ¬ s.resetNext →
    ∃ taken left, s.cmdIn = taken ++ left ∧ t.cmdIn = left ++ s.offeredNext ∧
      (∀ m, s.host.head? = some m → m.enabled s = true → m ≠ .run → taken = []) ∧
      (s.atCmdNext = false → taken = []) ∧
      taken.length ≤ (if s.seq = .idle then (s.running.map Instr.packetLength).getD 1 else 1)

/-! ### INIT (spec/41_init.md) -/

/-- R92: INIT, of encoding [0x01], completes on every platform with legal own lines, for a host that takes
the status byte. It sets the direction bits of the own lines and no others, touches no level, writes
`CTRL` with 0x03, emits the events in order, and changes nothing else. -/
def Obligations.InitCompletes : Prop :=
  ∀ (s : State), configOk s.cfg → Memory.wf s.lines = true → s.takes 1 →
    encode .init = [0x01#8] ∧
    ∃ t, exec .init s = .next t ∧ t.ctrl = 0x03#8 ∧ t.seq = .idle ∧
      (∀ l, t.dirBit l = (s.dirBit l || decide (l ∈ s.cfg.ownLines))) ∧
      (∀ l, t.valBit l = s.valBit l) ∧
      t.hist = s.hist ++ s.cfg.ownLines.map (fun l => Event.dir l.port l.bit) ++ [.ctrl 0x03#8, .rsp 0x00#8] ∧
      t.slots = s.slots ∧ t.tc = s.tc ∧ t.data = s.data ∧ t.fault = s.fault ∧ t.finfo = s.finfo ∧
      t.cnt = s.cnt ∧ t.dcnt = s.dcnt ∧ t.bitcnt = s.bitcnt ∧ t.sck = s.sck

/-- What INIT leaves unchanged: slots, `TC`, `DATA`, `FAULT`, `FINFO`, counters, the shifter, the streams
it does not use, and every line register but the direction registers of the own lines' ports. -/
def Obligations.InitFrame : Prop :=
  ∀ (s t : State), exec .init s = .next t →
    t.slots = s.slots ∧ t.tc = s.tc ∧ t.data = s.data ∧ t.fault = s.fault ∧ t.finfo = s.finfo ∧
    t.cnt = s.cnt ∧ t.dcnt = s.dcnt ∧ t.bitcnt = s.bitcnt ∧ t.sck = s.sck ∧ t.cmdIn = s.cmdIn ∧
    t.miso = s.miso ∧ t.host = s.host ∧ t.cfg = s.cfg ∧ t.draws = s.draws ∧
    (∀ a, (∀ l ∈ s.cfg.ownLines, a ≠ dirAddr l.port) → t.lineByte a = s.lineByte a)

/-- R93, an inference the spec marks as its own: INIT issued again changes no state and emits the same
events again. -/
def Obligations.InitIdempotent : Prop :=
  ∀ (s t u : State), Memory.wf s.lines = true → s.takes 2 →
    exec .init s = .next t → exec .init t = .next u →
    u = { t with rspReady := t.rspReady.afterTake, hist := t.hist ++ t.hist.drop s.hist.length }

/-! ### REGISTER_SLAVE (spec/40_registry.md) -/

/-- R81: with legal operands REGISTER_SLAVE completes: the line of the new descriptor is high, the slot
holds the descriptor, no other slot, line level or direction bit changes, and the line event comes
before the status byte. -/
def Obligations.RegisterSlaveCompletes : Prop :=
  ∀ (s : State) (id port : Byte) (bit : BitPos) (sel desel : Delay),
    idLegal id = true → portLegal s.cfg.nports port = true → Memory.wf s.lines = true → s.takes 1 →
    ∃ t, exec (.registerSlave id port 0#5 bit sel desel) s = .next t ∧ t.seq = .idle ∧
      t.slot id = some { port := port, bit := bit, sel := sel, desel := desel } ∧
      (∀ j, j ≠ id → t.slot j = s.slot j) ∧
      (∀ l, t.valBit l = (s.valBit l || decide (l = ⟨port, bit⟩))) ∧
      (∀ l, t.dirBit l = s.dirBit l) ∧
      t.hist = s.hist ++ [.line port bit true, .rsp 0x00#8] ∧
      t.ctrl = s.ctrl ∧ t.tc = s.tc ∧ t.data = s.data ∧ t.fault = s.fault ∧ t.finfo = s.finfo

/-- R81, R130, R138 (2) to (4): an illegal operand makes REGISTER_SLAVE fault, the first check that fails
deciding the code and the byte `FINFO` gets, and nothing but `FAULT`, `FINFO` (if they are free), the
history and the response stream changes. -/
def Obligations.RegisterSlaveFaults : Prop :=
  ∀ (s : State) (id port : Byte) (rsv : BitVec 5) (bit : BitPos) (sel desel : Delay),
    Instr.wellFormed s.cfg.nports (.registerSlave id port rsv bit sel desel) = false → s.takes 1 →
    ∃ code info, exec (.registerSlave id port rsv bit sel desel) s = .next
        { s with
          seq := .idle, rspReady := s.rspReady.afterTake,
          fault := if s.fault = 0x00#8 then code else s.fault,
          finfo := if s.fault = 0x00#8 then info else s.finfo,
          hist := s.hist ++ [.fault code info, .rsp code] } ∧
      (if 8 ≤ id.toNat then code = 0x02#8 ∧ info = id
       else if s.cfg.nports ≤ port.toNat then code = 0x04#8 ∧ info = port
       else code = 0x04#8 ∧ info = rsv ++ bit)

/-- What REGISTER_SLAVE leaves unchanged, whether it completes, faults or waits for the host to take its
status byte: every slot but its own, every line register but `VAL[port]` and in that every bit but
`bit`, and all control, data and counter registers; with legal operands also `FAULT` and `FINFO`; with an
illegal operand every slot and every line register (R139). -/
def Obligations.RegisterSlaveFrame : Prop :=
  ∀ (s t : State) (id port : Byte) (rsv : BitVec 5) (bit : BitPos) (sel desel : Delay),
    exec (.registerSlave id port rsv bit sel desel) s = .next t →
    (∀ j, j ≠ id → t.slot j = s.slot j) ∧
    (∀ a, a ≠ valAddr port → t.lineByte a = s.lineByte a) ∧
    (Memory.wf s.lines = true → ∀ l, l ≠ ⟨port, bit⟩ → t.valBit l = s.valBit l) ∧
    (Instr.wellFormed s.cfg.nports (.registerSlave id port rsv bit sel desel) = true →
      t.fault = s.fault ∧ t.finfo = s.finfo) ∧
    (Instr.wellFormed s.cfg.nports (.registerSlave id port rsv bit sel desel) = false →
      t.lines = s.lines ∧ t.slots = s.slots) ∧
    t.ctrl = s.ctrl ∧ t.tc = s.tc ∧ t.data = s.data ∧ t.cnt = s.cnt ∧ t.dcnt = s.dcnt ∧
    t.bitcnt = s.bitcnt ∧ t.sck = s.sck ∧ t.cmdIn = s.cmdIn ∧ t.miso = s.miso ∧ t.host = s.host ∧
    t.cfg = s.cfg ∧ t.draws = s.draws

/-! ### SELECT and DESELECT (spec/42_select.md) -/

/-- R102: SELECT of a registered slave completes: its line's bit is 0, no other bit of a line register
changes, and `EvLine`, `EvWait(sel)`, `EvRsp(0x00)` come in that order with nothing between. -/
def Obligations.SelectCompletes : Prop :=
  ∀ (s : State) (id : Byte) (d : Slot),
    s.slot id = some d → portLegal s.cfg.nports d.port = true → Memory.wf s.lines = true → s.takes 1 →
    ∃ t, exec (.select id) s = .next t ∧ t.seq = .idle ∧ t.dcnt = 0x0000#16 ∧
      (∀ l, t.valBit l = (s.valBit l && !decide (l = ⟨d.port, d.bit⟩))) ∧
      (∀ l, t.dirBit l = s.dirBit l) ∧
      t.hist = s.hist ++ [.line d.port d.bit false, .wait d.sel, .rsp 0x00#8] ∧
      t.slots = s.slots ∧ t.ctrl = s.ctrl ∧ t.tc = s.tc ∧ t.data = s.data ∧ t.fault = s.fault ∧ t.finfo = s.finfo

/-- R104: DESELECT of a registered slave completes: its line's bit is 1, no other bit of a line register
changes, and the wait comes after the line has gone high. -/
def Obligations.DeselectCompletes : Prop :=
  ∀ (s : State) (id : Byte) (d : Slot),
    s.slot id = some d → portLegal s.cfg.nports d.port = true → Memory.wf s.lines = true → s.takes 1 →
    ∃ t, exec (.deselect id) s = .next t ∧ t.seq = .idle ∧ t.dcnt = 0x0000#16 ∧
      (∀ l, t.valBit l = (s.valBit l || decide (l = ⟨d.port, d.bit⟩))) ∧
      (∀ l, t.dirBit l = s.dirBit l) ∧
      t.hist = s.hist ++ [.line d.port d.bit true, .wait d.desel, .rsp 0x00#8] ∧
      t.slots = s.slots ∧ t.ctrl = s.ctrl ∧ t.tc = s.tc ∧ t.data = s.data ∧ t.fault = s.fault ∧ t.finfo = s.finfo

/-- R133, R134: SELECT and DESELECT of an identifier above 7 fault InvalidSlaveId, of a slot never
written NotRegistered, with the id byte recorded; nothing but `FAULT`, `FINFO` (if they are free), the
history and the response stream changes: no line and no wait. -/
def Obligations.ChipSelectFaults : Prop :=
  ∀ (s : State) (id : Byte) (i : Instr),
    (i = .select id ∨ i = .deselect id) → s.slot id = none → s.takes 1 →
    exec i s = .next
      { s with
        seq := .idle, rspReady := s.rspReady.afterTake,
        fault := if s.fault = 0x00#8 then (if 8 ≤ id.toNat then 0x02#8 else 0x03#8) else s.fault,
        finfo := if s.fault = 0x00#8 then id else s.finfo,
        hist := s.hist ++
          [.fault (if 8 ≤ id.toNat then 0x02#8 else 0x03#8) id, .rsp (if 8 ≤ id.toNat then 0x02#8 else 0x03#8)] }

/-- What SELECT and DESELECT leave unchanged, whether they complete, fault or wait for the host: slots,
`CTRL`, `TC`, `DATA`, `CNT`, `BITCNT`, the shifter, every line register but the `VAL` register of the
slot's port and in that every bit but the slot's; for a registered slave also `FAULT` and `FINFO`. -/
def Obligations.ChipSelectFrame : Prop :=
  ∀ (s t : State) (id : Byte) (i : Instr), (i = .select id ∨ i = .deselect id) → exec i s = .next t →
    (∀ a, (∀ d, s.slot id = some d → a ≠ valAddr d.port) → t.lineByte a = s.lineByte a) ∧
    (Memory.wf s.lines = true → ∀ l, (∀ d, s.slot id = some d → l ≠ ⟨d.port, d.bit⟩) → t.valBit l = s.valBit l) ∧
    (s.slot id ≠ none → t.fault = s.fault ∧ t.finfo = s.finfo) ∧
    (s.slot id = none → t.dcnt = s.dcnt) ∧
    t.slots = s.slots ∧ t.ctrl = s.ctrl ∧ t.tc = s.tc ∧ t.data = s.data ∧ t.cnt = s.cnt ∧
    t.bitcnt = s.bitcnt ∧ t.sck = s.sck ∧ t.cmdIn = s.cmdIn ∧ t.miso = s.miso ∧ t.host = s.host ∧
    t.cfg = s.cfg ∧ t.draws = s.draws

/-- R105, an inference the spec marks as its own (S2 of 95_test_vectors.md): SELECT followed at once by
DESELECT of a slave whose line was high leaves every bit of every line register as it was. -/
def Obligations.SelectDeselectRoundTrip : Prop :=
  ∀ (s : State) (id : Byte) (d : Slot),
    s.slot id = some d → portLegal s.cfg.nports d.port = true → Memory.wf s.lines = true → s.takes 2 →
    s.valBit ⟨d.port, d.bit⟩ = true →
    ∃ t u, exec (.select id) s = .next t ∧ t.valBit ⟨d.port, d.bit⟩ = false ∧
      exec (.deselect id) t = .next u ∧ u.lines = s.lines

/-- R106, an inference the spec marks as its own (S7): SELECT and DESELECT of one slave never change the
level, the direction or the pin of the line of another slave on a distinct line. -/
def Obligations.LineIndependence : Prop :=
  ∀ (s t : State) (i j : Byte) (d e : Slot) (c : Instr),
    (c = .select i ∨ c = .deselect i) → s.slot i = some d → s.slot j = some e →
    (⟨d.port, d.bit⟩ : Line) ≠ ⟨e.port, e.bit⟩ → Memory.wf s.lines = true → exec c s = .next t →
    t.valBit ⟨e.port, e.bit⟩ = s.valBit ⟨e.port, e.bit⟩ ∧
    t.dirBit ⟨e.port, e.bit⟩ = s.dirBit ⟨e.port, e.bit⟩ ∧
    t.linePin ⟨e.port, e.bit⟩ = s.linePin ⟨e.port, e.bit⟩ ∧ t.selected j = s.selected j

/-- R102, R104 with R27 and R8 of the state files: on a line that is an output, SELECT of a registered
slave makes it `Selected` (line driven low) and no longer `Deselected`, and DESELECT makes it
`Deselected` (line driven high) and no longer `Selected`. -/
def Obligations.SelectSelects : Prop :=
  ∀ (s : State) (id : Byte) (d : Slot),
    s.slot id = some d → portLegal s.cfg.nports d.port = true → Memory.wf s.lines = true → s.takes 1 →
    s.dirBit ⟨d.port, d.bit⟩ = true →
    (∃ t, exec (.select id) s = .next t ∧ t.selected id = true ∧ t.deselected id = false ∧
      t.linePin ⟨d.port, d.bit⟩ = .driven false) ∧
    (∃ t, exec (.deselect id) s = .next t ∧ t.selected id = false ∧ t.deselected id = true ∧
      t.linePin ⟨d.port, d.bit⟩ = .driven true)

/-- R98, R101 (inferences the spec marks as its own): REGISTER_SLAVE, SELECT and DESELECT read no control
bit: on two states that differ in `CTRL` alone they do the same. -/
def Obligations.ChipSelectIgnoresControl : Prop :=
  ∀ (i : Instr) (s t : State) (c : Byte),
    isTransfer i = false → i ≠ .init → exec i s = .next t →
    exec i { s with ctrl := c } = .next { t with ctrl := c }

/-! ### The shifter and the transfer commands (spec/43_transfer.md) -/

/-- R114 (b), (c), an inference the spec marks as its own: the eight bits sampled from `miso`, first one
in bit 7, are what the exchange returns and leaves in `DATA`, and `TC = 1`, `BITCNT = 0`. -/
def Obligations.ExchangeCaptures : Prop :=
  ∀ (s : State) (tx : Byte) (bits rest : List Bool),
    s.enabled = true → bits.length = 8 → s.miso = bits ++ rest →
    ∃ rx t, s.exchange tx = .done rx t ∧ (∀ k, k < 8 → some (rx.getLsbD (7 - k)) = bits[k]?) ∧
      t.data = rx ∧ t.tc = true ∧ t.bitcnt = 0#4 ∧ t.miso = rest ∧
      t.hist = s.hist ++ [.load tx, .done rx]

/-- R114 (a), an inference the spec marks as its own: during the pass after `k` passes `mosi` carries bit
`7 - k` of the byte that was loaded, `sck` being low before the pass and high inside it. -/
def Obligations.MosiMostSignificantFirst : Prop :=
  ∀ (s : State) (tx : Byte) (k : Nat), s.enabled = true → s.sck = .low → k < 8 →
    (State.shiftBits k (s.loadData tx)).mosiPin = .driven (tx.getLsbD (7 - k)) ∧
    (State.shiftBits k (s.loadData tx)).sckPin = .driven false ∧
    (State.shiftBits k (s.loadData tx)).sckRise.mosiPin = .driven (tx.getLsbD (7 - k)) ∧
    (State.shiftBits k (s.loadData tx)).sckRise.sckPin = .driven true

/-- R115: with `EN = 1` and `MSTR = 1` WRITE_BYTE completes, whatever the slaves answer: `b` is loaded,
one exchange is made, the captured byte stays in `DATA` and is not reported, the status is 0x00. -/
def Obligations.WriteByteCompletes : Prop :=
  ∀ (s : State) (b : Byte), s.enabled = true → s.takes 1 →
    ∃ t, exec (.writeByte b) s = .next t ∧ t.seq = .idle ∧ t.tc = true ∧ t.bitcnt = 0#4 ∧
      t.hist = s.hist ++ [.load b, .done t.data, .rsp 0x00#8]

/-- R119: with `EN = 1` and `MSTR = 1` READ_BYTE completes: 0x00 is loaded, the captured byte is the data
byte, then the status 0x00. -/
def Obligations.ReadByteCompletes : Prop :=
  ∀ (s : State), s.enabled = true → s.takes 2 →
    ∃ t, exec .readByte s = .next t ∧ t.seq = .idle ∧ t.tc = true ∧ t.bitcnt = 0#4 ∧
      t.hist = s.hist ++ [.load 0x00#8, .done t.data, .rsp t.data, .rsp 0x00#8]

/-- R117: with `EN = 1` and `MSTR = 1` and the whole payload offered, WRITE_BYTES completes for every `n`:
the payload bytes are taken in order, each loaded for an exchange of its own, one status byte at the
end, and the bytes after the payload are left in the stream. -/
def Obligations.WriteBytesCompletes : Prop :=
  ∀ (s : State) (n : Byte) (buf rest : List Byte),
    s.enabled = true → buf.length = n.toNat → s.cmdIn = buf ++ rest → s.takes 1 →
    ∃ (t : State) (rx : List Byte), exec (.writeBytes n) s = .next t ∧ t.seq = .idle ∧ t.cnt = 0x00#8 ∧
      t.cmdIn = rest ∧ rx.length = buf.length ∧
      t.hist = s.hist ++ (List.zipWith (fun b r => [Event.load b, Event.done r]) buf rx).flatten ++ [.rsp 0x00#8]

/-- R121: with `EN = 1` and `MSTR = 1` READ_BYTES completes for every `n`: `n` exchanges of 0x00, each
captured byte sent as soon as its exchange completes, then one status byte. -/
def Obligations.ReadBytesCompletes : Prop :=
  ∀ (s : State) (n : Byte), s.enabled = true → s.takes (n.toNat + 1) →
    ∃ (t : State) (rx : List Byte), exec (.readBytes n) s = .next t ∧ t.seq = .idle ∧ t.cnt = 0x00#8 ∧
      rx.length = n.toNat ∧
      t.hist = s.hist ++ (rx.map fun r => [Event.load 0x00#8, Event.done r, Event.rsp r]).flatten ++ [.rsp 0x00#8]

/-- R118, an inference the spec marks as its own (S4): WRITE_BYTES makes the same `EvLoad` and `EvDone`
events in the same order as one WRITE_BYTE per payload byte, and leaves the same state but for the
command stream, the counter and the response events. -/
def Obligations.WriteBytesIsWriteByteRepeated : Prop :=
  ∀ (s : State) (n : Byte) (buf rest : List Byte),
    s.enabled = true → s.rspReady = .always → s.cnt = 0x00#8 → s.seq = .idle →
    buf.length = n.toNat → s.cmdIn = buf ++ rest →
    ∃ t u, exec (.writeBytes n) s = .next t ∧ execAll (buf.map .writeByte) { s with cmdIn := rest } = .next u ∧
      transfers t.hist = transfers u.hist ∧ { t with hist := u.hist } = u

/-- R122, an inference the spec marks as its own (S5): READ_BYTES makes the same `EvLoad` and `EvDone`
events in the same order as `n` READ_BYTE commands, returns the same `n` data bytes `rx` in the same
order, with one status byte where the others have one each, and leaves the same state but for the
response events. -/
def Obligations.ReadBytesIsReadByteRepeated : Prop :=
  ∀ (s : State) (n : Byte),
    s.enabled = true → s.rspReady = .always → s.cnt = 0x00#8 → s.seq = .idle →
    ∃ t u, exec (.readBytes n) s = .next t ∧ execAll (List.replicate n.toNat .readByte) s = .next u ∧
      transfers t.hist = transfers u.hist ∧ { t with hist := u.hist } = u ∧
      ∃ rx : List Byte, rx.length = n.toNat ∧ responses t.hist = responses s.hist ++ rx ++ [0x00#8] ∧
        responses u.hist = responses s.hist ++ (rx.map fun r => [r, 0x00#8]).flatten

/-- R117, R121 (corner cases): a bulk command with `n = 0` makes no exchange, takes no payload byte and
answers [0x00] at once, whatever `CTRL` holds; `DATA` and `TC` keep their values. -/
def Obligations.ZeroCountDoesNothing : Prop :=
  ∀ (s : State) (i : Instr), (i = .writeBytes 0#8 ∨ i = .readBytes 0#8) → s.takes 1 →
    exec i s = .next
      { s with seq := .idle, cnt := 0x00#8, rspReady := s.rspReady.afterTake, hist := s.hist ++ [.rsp 0x00#8] }

/-- R111: an exchange started while `EN = 0` or `MSTR = 0` hangs: the byte is loaded, nothing is sent, no
fault is recorded, and the state is one only reset ends. For every transfer command that comes to an
exchange: the two single ones, READ_BYTES with `n > 0`, WRITE_BYTES with `n > 0` and a payload byte
offered (of which only that one is taken). -/
def Obligations.TransferHangsWhenDisabled : Prop :=
  ∀ (s : State) (i : Instr) (tx : Byte) (left : List Byte), s.enabled = false → s.bitcnt = 0#4 →
    ((i = .writeByte tx ∧ left = s.cmdIn) ∨ (i = .readByte ∧ tx = 0x00#8 ∧ left = s.cmdIn) ∨
      (∃ n, i = .readBytes n ∧ n ≠ 0#8 ∧ tx = 0x00#8 ∧ left = s.cmdIn) ∨
      (∃ n, i = .writeBytes n ∧ n ≠ 0#8 ∧ s.cmdIn = tx :: left)) →
    ∃ t, exec i s = .next t ∧ t.hung ∧ t.seq.isBusy = true ∧ t.data = tx ∧ t.tc = false ∧ t.cmdIn = left ∧
      t.fault = s.fault ∧ t.finfo = s.finfo ∧ t.hist = s.hist ++ [.load tx]

/-- R137 (first and last row), R132: nothing but a reset ends a hang. Every step of a hung state that is
not a reset gives a hung state with the same `SEQ`, in which nothing has been sent, no fault recorded
and no command byte taken. -/
def Obligations.HangEndsOnlyByReset : Prop :=
  ∀ (s : State), s.hung → ¬ s.resetNext →
    ∃ t, step s = .next t ∧ t.hung ∧ t.seq = s.seq ∧ t.hist = s.hist ∧ t.fault = s.fault ∧
      t.finfo = s.finfo ∧ ∃ offered, t.cmdIn = s.cmdIn ++ offered

/-- R124, an inference the spec marks as its own: what the four transfer commands leave unchanged,
whether they complete, wait or hang: every line register, every slot, `CTRL`, `FAULT`, `FINFO`,
`DCNT`. -/
def Obligations.TransferFrame : Prop :=
  ∀ (s t : State) (i : Instr), isTransfer i = true → exec i s = .next t →
    (∀ a, t.lineByte a = s.lineByte a) ∧ t.lines = s.lines ∧ t.slots = s.slots ∧ t.ctrl = s.ctrl ∧
    t.fault = s.fault ∧ t.finfo = s.finfo ∧ t.dcnt = s.dcnt ∧ t.cfg = s.cfg ∧ t.host = s.host ∧
    ((i = .readByte ∨ ∃ b, i = .writeByte b) → t.cnt = s.cnt ∧ t.cmdIn = s.cmdIn) ∧
    ((∃ n, i = .readBytes n) → t.cmdIn = s.cmdIn)

/-- R48, R117: WRITE_BYTES whose next payload byte the host has not offered waits for it: `SEQ = BUSY`,
`cmd_ready = 1`, nothing sent, `CNT = n`. -/
def Obligations.WriteBytesWaitsForPayload : Prop :=
  ∀ (s : State) (n : Byte), n ≠ 0#8 → s.cmdIn = [] → s.rst = false →
    ∃ t, exec (.writeBytes n) s = .next t ∧ t.seq.isBusy = true ∧ t.cmdReady = true ∧ t.cnt = n ∧
      t.hist = s.hist ∧ t.data = s.data ∧ t.tc = s.tc

/-- R49: while the host does not take the byte CORE offers, CORE holds it: no step changes anything. -/
def Obligations.OfferedByteHeld : Prop :=
  ∀ (s : State) (v : Byte), s.rspOffered = some v → s.rspReady = .upTo 0 → s.host = [] → step s = .next s

/-- R48: while the host offers no byte, CORE at a `CmdNext` (opcode, operand or payload byte) waits: no
step changes anything. -/
def Obligations.MissingByteWaits : Prop :=
  ∀ (s : State), s.cmdReady = true → s.cmdIn = [] → s.host = [] → step s = .next s

/-- R49, R119: READ_BYTE whose data byte the host does not take waits with that byte offered, the status
byte not yet sent. -/
def Obligations.ReadByteOffersData : Prop :=
  ∀ (s : State), s.enabled = true → s.rspReady = .upTo 0 → s.rst = false →
    ∃ t, exec .readByte s = .next t ∧ t.seq.isBusy = true ∧ t.rspOffered = some t.data ∧
      t.hist = s.hist ++ [.load 0x00#8, .done t.data]

/-! ### The delay counter (spec/42_select.md) -/

/-- R100: a wait of which `DCNT` DQ are left ends after exactly that many counts, never earlier, with one
`EvWait(d)`, `DCNT = 0`, and the sequencer at the status byte. (That one DQ is one step is the model's
choice, log entries 10 and 19.) -/
def Obligations.WaitCountsDown : Prop :=
  ∀ (s : State) (opc : Byte) (latch : List Byte) (d : Delay) (i : Instr) (rest : List Byte),
    s.seq = .busy ⟨opc, latch, .delay d⟩ → s.host = [] → decode (opc :: latch) = .command i rest →
    (∀ k, k ≤ s.dcnt.toNat → ∃ t, s.runs k = .next t ∧ t.hist = s.hist ∧ t.dcnt.toNat = s.dcnt.toNat - k) ∧
    s.runs (s.dcnt.toNat + 1) = .next
      { s with dcnt := 0x0000#16, hist := s.hist ++ [.wait d], seq := .busy ⟨opc, latch, .status 0x00#8⟩ }

/-- R100, R102, R104, R170: SELECT and DESELECT of a registered slave load `DCNT` with the slot's own `sel`
or `desel` as the line changes, and that many counts lie between the line's event and `EvWait`, after
which alone the status byte comes: for every count nothing else is sent and no other event appended.
(That one DQ is one step is the model's choice, log entries 10 and 19.) -/
def Obligations.ChipSelectWaitsItsDelay : Prop :=
  ∀ (s : State) (opc : Byte) (latch rest : List Byte) (i : Instr) (id : Byte) (d : Slot) (level : Bool) (delay : Delay),
    s.seq = .busy ⟨opc, latch, .body⟩ → s.host = [] → decode (opc :: latch) = .command i rest →
    ((i = .select id ∧ level = false ∧ delay = d.sel) ∨ (i = .deselect id ∧ level = true ∧ delay = d.desel)) →
    s.slot id = some d → portLegal s.cfg.nports d.port = true →
    (∀ k, k ≤ delay.toNat → ∃ t, s.runs (k + 1) = .next t ∧ t.dcnt.toNat = delay.toNat - k ∧
      t.hist = s.hist ++ [.line d.port d.bit level] ∧ t.seq = .busy ⟨opc, latch, .delay delay⟩) ∧
    ∃ t, s.runs (delay.toNat + 2) = .next t ∧ t.dcnt = 0x0000#16 ∧
      t.hist = s.hist ++ [.line d.port d.bit level, .wait delay] ∧ t.seq = .busy ⟨opc, latch, .status 0x00#8⟩

/-! ### Faults (spec/60_exceptions.md) -/

/-- R131: `raise F(info)` records the first fault, emits `EvFault`, sends the code as the status byte, and
leaves `SEQ` at `HALTED` for IllegalCommand and at `IDLE` for the others; it changes nothing else. -/
def Obligations.RaiseEffect : Prop :=
  ∀ (s : State) (f : CoreFault) (info : Byte), s.takes 1 →
    s.raise f info =
      { s with
        fault := if s.fault = 0x00#8 then f.code else s.fault,
        finfo := if s.fault = 0x00#8 then info else s.finfo,
        hist := s.hist ++ [.fault f.code info, .rsp f.code],
        rspReady := s.rspReady.afterTake,
        seq := if f = .illegalCommand then .halted else .idle }

/-- R20: once `FAULT` is non-zero no step but a reset changes `FAULT` or `FINFO`. -/
def Obligations.FaultSticky : Prop :=
  ∀ (s t : State), s.fault ≠ 0x00#8 → ¬ s.resetNext → step s = .next t →
    t.fault = s.fault ∧ t.finfo = s.finfo

/-- R68: the response of every command that has ended is its data bytes and then exactly one status byte:
status 0x00 with as many data bytes as the command returns, or, with none, one of the codes the table of
R68 lists for that command when it faults. -/
def Obligations.OneStatusByte : Prop :=
  ∀ (s t : State) (i : Instr), exec i s = .next t → t.seq = .idle →
    ∃ data status, responses t.hist = responses s.hist ++ data ++ [status] ∧
      ((status = 0x00#8 ∧ data.length = dataBytes i) ∨
        (status ∈ faultCodes i ∧ data = []))

/-! ### Whole-machine rules -/

/-- R29 and R8, at the values they give: right after reset no slot is valid, `CTRL`, `STAT`, `FAULT`,
`FINFO` and the counters are 0, `SEQ = IDLE`, the history is empty, the shifter's pins are not driven to
a level, and the source's state is `Uninitialized`. (`DATA`, `VAL` and `DIR` have no value in the spec
and none is stated here.) -/
def Obligations.ResetValues : Prop :=
  (∀ id, State.reset.slot id = none) ∧ State.reset.ctrl = 0x00#8 ∧ State.reset.stat = 0x00#8 ∧
  State.reset.tc = false ∧ State.reset.fault = 0x00#8 ∧ State.reset.finfo = 0x00#8 ∧
  State.reset.seq = .idle ∧ State.reset.cnt = 0x00#8 ∧ State.reset.dcnt = 0x0000#16 ∧
  State.reset.bitcnt = 0#4 ∧ State.reset.hist = [] ∧ State.reset.initialized = false ∧
  State.reset.sckPin = .unspecified ∧ State.reset.mosiPin = .unspecified

/-- The invariant of CORE holds right after reset. -/
def Obligations.ResetInvariant : Prop := State.reset.Inv

/-- Every step keeps the invariant: legal platform, canonical line registers inside their space, slots
that name existing ports, `CTRL` 0 or 3, `FAULT` and `FINFO` legal, counters 0 whenever no command is in
progress, and a sequencer position that fits its command. -/
def Obligations.StepKeepsInvariant : Prop :=
  ∀ (s t : State), s.Inv → step s = .next t → t.Inv

/-- From a state that meets the invariant, with a host that names only line registers that exist, the
model never stops: R41, "CORE never issues another address". -/
def Obligations.StepNeverStops : Prop :=
  ∀ (s : State), s.Inv → s.hostLegal → ∃ t, step s = .next t ∧ t.hostLegal

/-- Every step keeps the line registers in canonical form, from any state at all. -/
def Obligations.StepKeepsMemoryCanonical : Prop :=
  ∀ (s t : State), Memory.wf s.lines = true → step s = .next t → Memory.wf t.lines = true

/-- R4, R28: the parameters `NPORTS` and `OWN_LINES` are no state of CORE, so no step changes them. That they
stand in a field of State at all, and the field `grain`, which no step changes either, are the model's
own (log entries 8 and 10). -/
def Obligations.StepKeepsConfig : Prop :=
  ∀ (s t : State), step s = .next t → t.cfg = s.cfg ∧ t.grain = s.grain

/-- R30: the history is append-only; a step that is not a reset only adds events at its end. -/
def Obligations.HistoryAppendOnly : Prop :=
  ∀ (s t : State), step s = .next t → ¬ s.resetNext → ∃ added, t.hist = s.hist ++ added

/-- R43, R45, and R83, which the spec marks as derived: a line level falls only where the history says so,
and CORE lets it fall only for a SELECT: if a step takes `VAL[p][b]` from 1 to 0 then it appended
`EvLine(p, b, 0)`, or the host wrote `VAL[p]` in it; and a step that appends `EvLine(p, b, 0)` ran a SELECT
of an identifier whose slot names that line. -/
def Obligations.LineFallsOnlyBySelect : Prop :=
  ∀ (s t : State) (l : Line), Memory.wf s.lines = true → step s = .next t → ¬ s.resetNext →
    (s.valBit l = true → t.valBit l = false →
      ∃ added, t.hist = s.hist ++ added ∧
        (Event.line l.port l.bit false ∈ added ∨ ∃ addr v, Event.plat addr v ∈ added ∧ addr.toNat = valAddr l.port)) ∧
    (∀ added, t.hist = s.hist ++ added → Event.line l.port l.bit false ∈ added →
      ∃ id d, s.running = some (.select id) ∧ s.slot id = some d ∧ d.port = l.port ∧ d.bit = l.bit)

/-- R16: only INIT writes `CTRL`; it writes the whole register with 0x03. Whatever `exec` of a command does,
and in every step, under either grain: a step that changes `CTRL` runs INIT, or is a reset, which leaves
0x00 (R29). -/
def Obligations.ControlOnlyByInit : Prop :=
  (∀ (s t : State) (i : Instr), exec i s = .next t → t.ctrl = if i = .init then 0x03#8 else s.ctrl) ∧
  (∀ (s t : State), s.Inv → step s = .next t →
    t.ctrl = s.ctrl ∨ (s.running = some .init ∧ t.ctrl = 0x03#8) ∨ (s.resetNext ∧ t.ctrl = 0x00#8))

/-- R44: only INIT changes a direction bit, it sets those of the own lines, and no command ever clears one.
Whatever `exec` of a command does, and in every step, under either grain: a step that changes a direction
bit runs INIT, which sets the bit of an own line, or is the host's `PlatWrite` of that direction register
while `SEQ = IDLE` (R46); a reset changes none (R152). -/
def Obligations.DirectionOnlyByInit : Prop :=
  (∀ (s t : State) (i : Instr), Memory.wf s.lines = true → exec i s = .next t →
    ∀ l, t.dirBit l = (s.dirBit l || decide (i = .init ∧ l ∈ s.cfg.ownLines))) ∧
  (∀ (s t : State) (l : Line), s.Inv → step s = .next t → t.dirBit l ≠ s.dirBit l →
    (s.running = some .init ∧ l ∈ s.cfg.ownLines ∧ t.dirBit l = true) ∨
    (∃ addr v rest, s.host = .platWrite addr v :: rest ∧ s.seq = .idle ∧ addr.toNat = dirAddr l.port))

/-- R168: a run that has ended well is at its end. It is no hang, and whatever the host still does (it has
no byte left to offer) it stays ended well; but for a reset, no byte is sent and no exchange made. -/
def Obligations.EndedWellIsTheEnd : Prop :=
  ∀ (s t : State), s.endedWell → step s = .next t →
    ¬ s.hung ∧ t.endedWell ∧
    (¬ s.resetNext → responses t.hist = responses s.hist ∧ transfers t.hist = transfers s.hist)

/-- R29, R151, R152: reset acts at once and from any state. `SEQ = IDLE`, every slot invalid, the
registers, flags and counters 0, no response byte offered, `sck` and `mosi` not driven to a level, the
history empty; the line registers keep what they held. While `rst` is 1 no command byte is taken and no
response byte offered. (`DATA`, `OPC` and the latches are unspecified: nothing is stated of them. That
reset is a move of a script, that the script goes on after it, and that `rst` is 1 while it is the next
move are the model's, log entries 9 and 18.) -/
def Obligations.ResetFromAnyState : Prop :=
  ∀ (s : State) (rest : List HostMove), s.host = .reset :: rest →
    s.cmdReady = false ∧ s.rspOffered = none ∧
    ∃ t, step s = .next t ∧ t.host = rest ∧ t.seq = .idle ∧ (∀ id, t.slot id = none) ∧ t.ctrl = 0x00#8 ∧
      t.tc = false ∧ t.stat = 0x00#8 ∧ t.fault = 0x00#8 ∧ t.finfo = 0x00#8 ∧ t.cnt = 0x00#8 ∧
      t.dcnt = 0x0000#16 ∧ t.bitcnt = 0#4 ∧ t.rspOffered = none ∧ t.sckPin = .unspecified ∧
      t.mosiPin = .unspecified ∧ t.hist = [] ∧ t.lines = s.lines

/-- R46: `PlatWrite` while `SEQ = IDLE` writes the whole line register and no other, and emits `EvPlat`,
and the host may read any line register then; while `SEQ` is not `IDLE` it is not enabled: CORE has the
step (and the move waits in the model's script, log entry 12). -/
def Obligations.PlatWriteOnlyWhileIdle : Prop :=
  ∀ (s : State) (addr : BitVec 9) (v : Byte) (rest : List HostMove),
    s.host = .platWrite addr v :: rest → addr.toNat < 2 * s.cfg.nports → Memory.wf s.lines = true →
    (s.seq = .idle → ∃ t, step s = .next t ∧ t.host = rest ∧ t.lineByte addr.toNat = v ∧
      (∀ a, a ≠ addr.toNat → t.lineByte a = s.lineByte a) ∧ t.hist = s.hist ++ [.plat addr v] ∧
      t.seq = .idle ∧ t.slots = s.slots ∧ t.ctrl = s.ctrl ∧ t.data = s.data ∧
      s.hostRead addr = some (s.lineByte addr.toNat)) ∧
    (s.seq ≠ .idle → step s = coreTurn s)

/-- R17 (the fields) and R19: bit 0 of `STAT` is `TC`, bit 1 is 1 exactly while `SEQ = BUSY`, bit 2 exactly while
`SEQ = HALTED`, bits 7:3 are 0. -/
def Obligations.StatusPort : Prop :=
  ∀ (s : State), s.stat.getLsbD 0 = s.tc ∧
    (s.stat.getLsbD 1 = true ↔ ∃ w, s.seq = .busy w) ∧ (s.stat.getLsbD 2 = true ↔ s.seq = .halted) ∧
    (∀ k, 3 ≤ k → s.stat.getLsbD k = false)

/-! ### The assembler (spec/30_encoding.md R70 to R72) -/

/-- R71: `us(t)` is `ceil(16 t)`: the least number of DQ that is not shorter than `t = num / den`
microseconds; it has no encoding exactly when that is above 65535. -/
def Obligations.DelayLiteralRoundsUp : Prop :=
  ∀ (num den : Nat), den ≠ 0 →
    (∀ d, (DelayLit.us num den).value = some d →
      16 * num ≤ d.toNat * den ∧ ∀ k, 16 * num ≤ k * den → d.toNat ≤ k) ∧
    ((DelayLit.us num den).value = none ↔ 65535 * den < 16 * num)

/-- R72: a long bulk command is assembled as consecutive packets of at most 255 bytes, in order. R72 leaves
open how it is split; a packet of 255 first and then the assembly of the rest is the model's choice (log
entry 21), that of the spec's examples. -/
def Obligations.LongBulkSplits : Prop :=
  (∀ (n : Nat), 255 < n →
    assemble (.readBytes n) = (assemble (.readBytes (n - 255))).map (fun bs => [0x08#8, 0xFF#8] ++ bs)) ∧
  (∀ (buf : List Byte), 255 < buf.length →
    assemble (.writeBytes buf) =
      (assemble (.writeBytes (buf.drop 255))).map (fun bs => [0x06#8, 0xFF#8] ++ buf.take 255 ++ bs)) ∧
  (∀ (n : Byte), assemble (.readBytes n.toNat) = some [0x08#8, n]) ∧
  (∀ (n : Byte) (buf : List Byte), buf.length = n.toNat → assemble (.writeBytes buf) = some (0x06#8 :: n :: buf))

/-- R70 with R5: a number of the assembly text, written with the digits of its base (`0x` hexadecimal,
`0b` binary, otherwise decimal), is read as that number, whatever its size. Hexadecimal digits are read in
upper case, as the spec's programs write them, and in lower case, which is the model's choice (log entry
21). -/
def Obligations.NumbersReadBack : Prop :=
  ∀ (n : Nat), readNumber ('0' :: 'x' :: Nat.toDigits 16 n) = some n ∧
    readNumber ('0' :: 'x' :: (Nat.toDigits 16 n).map Char.toUpper) = some n ∧
    readNumber ('0' :: 'b' :: Nat.toDigits 2 n) = some n ∧ readNumber (Nat.toDigits 10 n) = some n
end

