-- ==== Sys2Proof/Laws/Bits.lean ====
section
/-! SUPPORT. The bits of the concatenations the packets and the shifter use. -/

namespace Sys2Proof.Machine

theorem byte3_getLsbD (rsv : BitVec 5) (bit : BitPos) (i : Nat) :
    (byte3 rsv bit).getLsbD i = if i < 3 then bit.getLsbD i else rsv.getLsbD (i - 3) := by
  have h : (byte3 rsv bit).getLsbD i = (rsv ++ bit).getLsbD i := rfl
  rw [h, BitVec.getLsbD_append]

theorem delayOf_getLsbD (lo hi : Byte) (i : Nat) :
    (delayOf lo hi).getLsbD i = if i < 8 then lo.getLsbD i else hi.getLsbD (i - 8) := by
  have h : (delayOf lo hi).getLsbD i = (hi ++ lo).getLsbD i := rfl
  rw [h, BitVec.getLsbD_append]

/-- The shifter moves every bit up by one and puts the sampled bit at the bottom (43_transfer.md R113). -/
theorem shiftIn_getLsbD (data : Byte) (m : Bool) (i : Nat) :
    (shiftIn data m).getLsbD i = if i = 0 then m else decide (i < 8) && data.getLsbD (i - 1) := by
  have h : (shiftIn data m).getLsbD i = (data.extractLsb' 0 7 ++ BitVec.ofBool m).getLsbD i := rfl
  rw [h, BitVec.getLsbD_append]
  by_cases hi : i = 0
  · subst hi; cases m <;> rfl
  · have h1 : ¬ i < 1 := by omega
    simp only [hi, h1, if_false, BitVec.getLsbD_extractLsb', Nat.zero_add]
    congr 1
    simp only [decide_eq_decide]
    omega

/-- The two halves of a delay field make it up again. -/
theorem delayOf_halves (d : Delay) : delayOf (delayLo d) (delayHi d) = d := by
  apply BitVec.eq_of_getLsbD_eq
  intro i hi
  rw [delayOf_getLsbD]
  by_cases h : i < 8
  · simp [delayLo, h]
  · have h1 : i - 8 < 8 := by omega
    have h2 : 8 + (i - 8) = i := by omega
    simp [delayHi, h, h1, h2]

theorem delayLo_delayOf (lo hi : Byte) : delayLo (delayOf lo hi) = lo := by
  apply BitVec.eq_of_getLsbD_eq
  intro i hi
  simp only [delayLo, BitVec.getLsbD_extractLsb', delayOf_getLsbD, Nat.zero_add]
  simp [hi]

theorem delayHi_delayOf (lo hi : Byte) : delayHi (delayOf lo hi) = hi := by
  apply BitVec.eq_of_getLsbD_eq
  intro i h
  simp only [delayHi, BitVec.getLsbD_extractLsb', delayOf_getLsbD]
  simp [h]

theorem rsvOf_byte3 (rsv : BitVec 5) (bit : BitPos) : rsvOf (byte3 rsv bit) = rsv := by
  apply BitVec.eq_of_getLsbD_eq
  intro i h
  simp only [rsvOf, BitVec.getLsbD_extractLsb', byte3_getLsbD]
  simp [h]

theorem bitOf_byte3 (rsv : BitVec 5) (bit : BitPos) : bitOf (byte3 rsv bit) = bit := by
  apply BitVec.eq_of_getLsbD_eq
  intro i h
  simp only [bitOf, BitVec.getLsbD_extractLsb', byte3_getLsbD, Nat.zero_add]
  simp [h]

theorem byte3_parts (b3 : Byte) : byte3 (rsvOf b3) (bitOf b3) = b3 := by
  apply BitVec.eq_of_getLsbD_eq
  intro i hi
  rw [byte3_getLsbD]
  by_cases h : i < 3
  · simp [bitOf, h]
  · have h1 : i - 3 < 5 := by omega
    have h2 : 3 + (i - 3) = i := by omega
    simp [rsvOf, h, h1, h2]

end Sys2Proof.Machine
end

