-- ==== Sys2Proof/Laws/Memory.lean ====
section
/-! SUPPORT. Laws of the line register memory: reading after writing, the canonical form, the bound on
addresses. -/

namespace Sys2Proof.Machine

/-- A canonical memory above `lo` holds nothing below it. -/
theorem Memory.read_of_lt_wfFrom {m : Memory} {lo a : Nat} (h : Memory.wfFrom lo m = true) (ha : a < lo) :
    Memory.read m a = Memory.unlisted := by
  induction m generalizing lo with
  | nil => rfl
  | cons c rest ih =>
    obtain ⟨k, v⟩ := c
    simp only [Memory.wfFrom, Bool.and_eq_true, decide_eq_true_eq] at h
    have hk : k ≠ a := by omega
    simp only [Memory.read, hk, if_false]
    exact ih h.2 (by omega)

/-- The canonical form above a higher bound is one above a lower bound. -/
theorem Memory.wfFrom_mono {m : Memory} {lo hi : Nat} (h : Memory.wfFrom hi m = true) (hle : lo ≤ hi) :
    Memory.wfFrom lo m = true := by
  cases m with
  | nil => rfl
  | cons c rest =>
    obtain ⟨k, v⟩ := c
    simp only [Memory.wfFrom, Bool.and_eq_true, decide_eq_true_eq] at h ⊢
    exact ⟨⟨by omega, h.1.2⟩, h.2⟩

/-- A write keeps the canonical form. -/
theorem Memory.wfFrom_write {m : Memory} {lo a : Nat} (v : Byte) (h : Memory.wfFrom lo m = true) (ha : lo ≤ a) :
    Memory.wfFrom lo (Memory.write m a v) = true := by
  induction m generalizing lo with
  | nil =>
    simp only [Memory.write]
    split
    · rfl
    · simp_all [Memory.wfFrom]
  | cons c rest ih =>
    obtain ⟨k, w⟩ := c
    simp only [Memory.wfFrom, Bool.and_eq_true, decide_eq_true_eq] at h
    simp only [Memory.write]
    split
    · split
      · simp [Memory.wfFrom, h]
      · rename_i hak hv
        simp only [Memory.wfFrom, Bool.and_eq_true, decide_eq_true_eq]
        exact ⟨⟨ha, hv⟩, ⟨by omega, h.1.2⟩, h.2⟩
    · split
      · subst_vars
        split
        · exact Memory.wfFrom_mono h.2 (by omega)
        · rename_i hv
          simp only [Memory.wfFrom, Bool.and_eq_true, decide_eq_true_eq]
          exact ⟨⟨ha, hv⟩, h.2⟩
      · simp only [Memory.wfFrom, Bool.and_eq_true, decide_eq_true_eq]
        exact ⟨h.1, ih h.2 (by omega)⟩

/-- A write keeps the canonical form. -/
theorem Memory.wf_write {m : Memory} (a : Nat) (v : Byte) (h : Memory.wf m = true) :
    Memory.wf (Memory.write m a v) = true :=
  Memory.wfFrom_write v h (Nat.zero_le a)

/-- Reading elsewhere gives what it gave before, whatever the memory. -/
theorem Memory.read_write_other (m : Memory) {a b : Nat} (v : Byte) (hb : b ≠ a) :
    Memory.read (Memory.write m a v) b = Memory.read m b := by
  have hab : a ≠ b := Ne.symm hb
  induction m with
  | nil =>
    simp only [Memory.write]
    split <;> simp [Memory.read, hab]
  | cons c rest ih =>
    obtain ⟨k, w⟩ := c
    simp only [Memory.write]
    split
    · split <;> simp [Memory.read, hab]
    · split
      · subst_vars
        split <;> simp [Memory.read, hab]
      · simp only [Memory.read, ih]

/-- Reading what was written gives the byte written. -/
theorem Memory.read_writeFrom_same {m : Memory} {lo a : Nat} (v : Byte) (h : Memory.wfFrom lo m = true) :
    Memory.read (Memory.write m a v) a = v := by
  induction m generalizing lo with
  | nil =>
    simp only [Memory.write]
    split <;> simp_all [Memory.read]
  | cons c rest ih =>
    obtain ⟨k, w⟩ := c
    simp only [Memory.wfFrom, Bool.and_eq_true, decide_eq_true_eq] at h
    simp only [Memory.write]
    split
    · rename_i hak
      split
      · have hk : k ≠ a := by omega
        simp only [Memory.read, hk, if_false]
        rw [Memory.read_of_lt_wfFrom h.2 (by omega)]
        simp_all
      · simp [Memory.read]
    · split
      · subst_vars
        split
        · rw [Memory.read_of_lt_wfFrom h.2 (by omega)]
          simp_all
        · simp [Memory.read]
      · rename_i h1 h2
        have hk : k ≠ a := fun e => h2 e.symm
        simp only [Memory.read, hk, if_false]
        exact ih h.2

/-- Reading what was written gives the byte written. -/
theorem Memory.read_write_same {m : Memory} (a : Nat) (v : Byte) (h : Memory.wf m = true) :
    Memory.read (Memory.write m a v) a = v :=
  Memory.read_writeFrom_same v h

/-- Writing back what an address holds changes nothing. -/
theorem Memory.writeFrom_read {m : Memory} {lo : Nat} (a : Nat) (h : Memory.wfFrom lo m = true) :
    Memory.write m a (Memory.read m a) = m := by
  induction m generalizing lo with
  | nil => simp [Memory.write, Memory.read]
  | cons c rest ih =>
    obtain ⟨k, w⟩ := c
    simp only [Memory.wfFrom, Bool.and_eq_true, decide_eq_true_eq] at h
    by_cases hka : k = a
    · subst hka
      simp [Memory.read, Memory.write, h.1.2]
    · simp only [Memory.read, hka, if_false, Memory.write]
      split
      · rw [Memory.read_of_lt_wfFrom h.2 (by omega)]
        simp
      · rw [if_neg (fun e => hka e.symm), ih h.2]

/-- Writing back what an address holds changes nothing. -/
theorem Memory.write_read {m : Memory} (a : Nat) (h : Memory.wf m = true) :
    Memory.write m a (Memory.read m a) = m :=
  Memory.writeFrom_read a h

/-- Canonical memories that read the same at every address are the same list. -/
theorem Memory.extFrom_of_read {m n : Memory} {lo : Nat} (hm : Memory.wfFrom lo m = true)
    (hn : Memory.wfFrom lo n = true) (h : ∀ a, Memory.read m a = Memory.read n a) : m = n := by
  induction m generalizing n lo with
  | nil =>
    cases n with
    | nil => rfl
    | cons c rest =>
      obtain ⟨k, v⟩ := c
      simp only [Memory.wfFrom, Bool.and_eq_true, decide_eq_true_eq] at hn
      have := h k
      simp only [Memory.read, if_true] at this
      exact absurd this.symm hn.1.2
  | cons c m' ih =>
    obtain ⟨k, v⟩ := c
    simp only [Memory.wfFrom, Bool.and_eq_true, decide_eq_true_eq] at hm
    cases n with
    | nil =>
      have := h k
      simp only [Memory.read, if_true] at this
      exact absurd this hm.1.2
    | cons d n' =>
      obtain ⟨j, w⟩ := d
      simp only [Memory.wfFrom, Bool.and_eq_true, decide_eq_true_eq] at hn
      have hkj : k = j := by
        by_contra hne
        have hk := h k
        have hj := h j
        simp only [Memory.read, if_true, if_neg hne, if_neg (fun e : j = k => hne e.symm)] at hk hj
        rcases Nat.lt_or_gt_of_ne hne with hlt | hlt
        · rw [Memory.read_of_lt_wfFrom hn.2 (by omega)] at hk
          exact hm.1.2 hk
        · rw [Memory.read_of_lt_wfFrom hm.2 (by omega)] at hj
          exact hn.1.2 hj.symm
      subst hkj
      have hvw : v = w := by simpa [Memory.read] using h k
      subst hvw
      have hrest : m' = n' := by
        apply ih hm.2 hn.2
        intro a
        have ha := h a
        simp only [Memory.read] at ha
        by_cases hka : k = a
        · subst hka
          rw [Memory.read_of_lt_wfFrom hm.2 (by omega), Memory.read_of_lt_wfFrom hn.2 (by omega)]
        · simpa [hka] using ha
      rw [hrest]

/-- Canonical memories that read the same at every address are the same list. -/
theorem Memory.ext_of_read {m n : Memory} (hm : Memory.wf m = true) (hn : Memory.wf n = true)
    (h : ∀ a, Memory.read m a = Memory.read n a) : m = n :=
  Memory.extFrom_of_read hm hn h

/-- A write adds no address but its own. -/
theorem Memory.mem_write {m : Memory} {a : Nat} {v : Byte} {c : Host.Cell} (h : c ∈ Memory.write m a v) :
    c ∈ m ∨ c.1 = a := by
  induction m with
  | nil =>
    simp only [Memory.write] at h
    split at h <;> simp_all
  | cons d rest ih =>
    obtain ⟨k, w⟩ := d
    simp only [Memory.write] at h
    split at h
    · split at h
      · exact .inl h
      · rcases List.mem_cons.mp h with rfl | h
        · exact .inr rfl
        · exact .inl h
    · split at h
      · split at h
        · exact .inl (List.mem_cons_of_mem _ h)
        · rcases List.mem_cons.mp h with rfl | h
          · exact .inr rfl
          · exact .inl (List.mem_cons_of_mem _ h)
      · rcases List.mem_cons.mp h with rfl | h
        · exact .inl (List.mem_cons_self ..)
        · rcases ih h with h | h
          · exact .inl (List.mem_cons_of_mem _ h)
          · exact .inr h

end Sys2Proof.Machine
end

