-- ==== Sys2Proof/Laws/State.lean ====
section
/-! SUPPORT. One lemma per field per state update, true by definition, for the simp set. -/

namespace Sys2Proof.Machine

@[simp] theorem State.emit_cfg (s : State) (e : Event) : (s.emit e).cfg = s.cfg := rfl
@[simp] theorem State.emit_grain (s : State) (e : Event) : (s.emit e).grain = s.grain := rfl
@[simp] theorem State.emit_slots (s : State) (e : Event) : (s.emit e).slots = s.slots := rfl
@[simp] theorem State.emit_ctrl (s : State) (e : Event) : (s.emit e).ctrl = s.ctrl := rfl
@[simp] theorem State.emit_tc (s : State) (e : Event) : (s.emit e).tc = s.tc := rfl
@[simp] theorem State.emit_fault (s : State) (e : Event) : (s.emit e).fault = s.fault := rfl
@[simp] theorem State.emit_finfo (s : State) (e : Event) : (s.emit e).finfo = s.finfo := rfl
@[simp] theorem State.emit_data (s : State) (e : Event) : (s.emit e).data = s.data := rfl
@[simp] theorem State.emit_seq (s : State) (e : Event) : (s.emit e).seq = s.seq := rfl
@[simp] theorem State.emit_cnt (s : State) (e : Event) : (s.emit e).cnt = s.cnt := rfl
@[simp] theorem State.emit_dcnt (s : State) (e : Event) : (s.emit e).dcnt = s.dcnt := rfl
@[simp] theorem State.emit_bitcnt (s : State) (e : Event) : (s.emit e).bitcnt = s.bitcnt := rfl
@[simp] theorem State.emit_sck (s : State) (e : Event) : (s.emit e).sck = s.sck := rfl
@[simp] theorem State.emit_lines (s : State) (e : Event) : (s.emit e).lines = s.lines := rfl
@[simp] theorem State.emit_hist (s : State) (e : Event) : (s.emit e).hist = s.hist ++ [e] := rfl
@[simp] theorem State.emit_cmdIn (s : State) (e : Event) : (s.emit e).cmdIn = s.cmdIn := rfl
@[simp] theorem State.emit_rspReady (s : State) (e : Event) : (s.emit e).rspReady = s.rspReady := rfl
@[simp] theorem State.emit_miso (s : State) (e : Event) : (s.emit e).miso = s.miso := rfl
@[simp] theorem State.emit_host (s : State) (e : Event) : (s.emit e).host = s.host := rfl
@[simp] theorem State.emit_draws (s : State) (e : Event) : (s.emit e).draws = s.draws := rfl

@[simp] theorem State.moveTo_cfg (s : State) (p : Pos) : (s.moveTo p).cfg = s.cfg := rfl
@[simp] theorem State.moveTo_grain (s : State) (p : Pos) : (s.moveTo p).grain = s.grain := rfl
@[simp] theorem State.moveTo_slots (s : State) (p : Pos) : (s.moveTo p).slots = s.slots := rfl
@[simp] theorem State.moveTo_ctrl (s : State) (p : Pos) : (s.moveTo p).ctrl = s.ctrl := rfl
@[simp] theorem State.moveTo_tc (s : State) (p : Pos) : (s.moveTo p).tc = s.tc := rfl
@[simp] theorem State.moveTo_fault (s : State) (p : Pos) : (s.moveTo p).fault = s.fault := rfl
@[simp] theorem State.moveTo_finfo (s : State) (p : Pos) : (s.moveTo p).finfo = s.finfo := rfl
@[simp] theorem State.moveTo_data (s : State) (p : Pos) : (s.moveTo p).data = s.data := rfl
@[simp] theorem State.moveTo_seq (s : State) (p : Pos) : (s.moveTo p).seq = s.seq.moveTo p := rfl
@[simp] theorem State.moveTo_cnt (s : State) (p : Pos) : (s.moveTo p).cnt = s.cnt := rfl
@[simp] theorem State.moveTo_dcnt (s : State) (p : Pos) : (s.moveTo p).dcnt = s.dcnt := rfl
@[simp] theorem State.moveTo_bitcnt (s : State) (p : Pos) : (s.moveTo p).bitcnt = s.bitcnt := rfl
@[simp] theorem State.moveTo_sck (s : State) (p : Pos) : (s.moveTo p).sck = s.sck := rfl
@[simp] theorem State.moveTo_lines (s : State) (p : Pos) : (s.moveTo p).lines = s.lines := rfl
@[simp] theorem State.moveTo_hist (s : State) (p : Pos) : (s.moveTo p).hist = s.hist := rfl
@[simp] theorem State.moveTo_cmdIn (s : State) (p : Pos) : (s.moveTo p).cmdIn = s.cmdIn := rfl
@[simp] theorem State.moveTo_rspReady (s : State) (p : Pos) : (s.moveTo p).rspReady = s.rspReady := rfl
@[simp] theorem State.moveTo_miso (s : State) (p : Pos) : (s.moveTo p).miso = s.miso := rfl
@[simp] theorem State.moveTo_host (s : State) (p : Pos) : (s.moveTo p).host = s.host := rfl
@[simp] theorem State.moveTo_draws (s : State) (p : Pos) : (s.moveTo p).draws = s.draws := rfl

@[simp] theorem State.begin_cfg (s : State) (i : Instr) : (s.begin i).cfg = s.cfg := rfl
@[simp] theorem State.begin_grain (s : State) (i : Instr) : (s.begin i).grain = s.grain := rfl
@[simp] theorem State.begin_slots (s : State) (i : Instr) : (s.begin i).slots = s.slots := rfl
@[simp] theorem State.begin_ctrl (s : State) (i : Instr) : (s.begin i).ctrl = s.ctrl := rfl
@[simp] theorem State.begin_tc (s : State) (i : Instr) : (s.begin i).tc = s.tc := rfl
@[simp] theorem State.begin_fault (s : State) (i : Instr) : (s.begin i).fault = s.fault := rfl
@[simp] theorem State.begin_finfo (s : State) (i : Instr) : (s.begin i).finfo = s.finfo := rfl
@[simp] theorem State.begin_data (s : State) (i : Instr) : (s.begin i).data = s.data := rfl
@[simp] theorem State.begin_seq (s : State) (i : Instr) : (s.begin i).seq = .busy ⟨i.opcode, i.operandBytes, .body⟩ := rfl
@[simp] theorem State.begin_cnt (s : State) (i : Instr) : (s.begin i).cnt = s.cnt := rfl
@[simp] theorem State.begin_dcnt (s : State) (i : Instr) : (s.begin i).dcnt = s.dcnt := rfl
@[simp] theorem State.begin_bitcnt (s : State) (i : Instr) : (s.begin i).bitcnt = s.bitcnt := rfl
@[simp] theorem State.begin_sck (s : State) (i : Instr) : (s.begin i).sck = s.sck := rfl
@[simp] theorem State.begin_lines (s : State) (i : Instr) : (s.begin i).lines = s.lines := rfl
@[simp] theorem State.begin_hist (s : State) (i : Instr) : (s.begin i).hist = s.hist := rfl
@[simp] theorem State.begin_cmdIn (s : State) (i : Instr) : (s.begin i).cmdIn = s.cmdIn := rfl
@[simp] theorem State.begin_rspReady (s : State) (i : Instr) : (s.begin i).rspReady = s.rspReady := rfl
@[simp] theorem State.begin_miso (s : State) (i : Instr) : (s.begin i).miso = s.miso := rfl
@[simp] theorem State.begin_host (s : State) (i : Instr) : (s.begin i).host = s.host := rfl
@[simp] theorem State.begin_draws (s : State) (i : Instr) : (s.begin i).draws = s.draws := rfl

@[simp] theorem State.latchPacket_cfg (s : State) (o : Byte) (l : List Byte) (p : Pos) : (s.latchPacket o l p).cfg = s.cfg := rfl
@[simp] theorem State.latchPacket_grain (s : State) (o : Byte) (l : List Byte) (p : Pos) : (s.latchPacket o l p).grain = s.grain := rfl
@[simp] theorem State.latchPacket_slots (s : State) (o : Byte) (l : List Byte) (p : Pos) : (s.latchPacket o l p).slots = s.slots := rfl
@[simp] theorem State.latchPacket_ctrl (s : State) (o : Byte) (l : List Byte) (p : Pos) : (s.latchPacket o l p).ctrl = s.ctrl := rfl
@[simp] theorem State.latchPacket_tc (s : State) (o : Byte) (l : List Byte) (p : Pos) : (s.latchPacket o l p).tc = s.tc := rfl
@[simp] theorem State.latchPacket_fault (s : State) (o : Byte) (l : List Byte) (p : Pos) : (s.latchPacket o l p).fault = s.fault := rfl
@[simp] theorem State.latchPacket_finfo (s : State) (o : Byte) (l : List Byte) (p : Pos) : (s.latchPacket o l p).finfo = s.finfo := rfl
@[simp] theorem State.latchPacket_data (s : State) (o : Byte) (l : List Byte) (p : Pos) : (s.latchPacket o l p).data = s.data := rfl
@[simp] theorem State.latchPacket_seq (s : State) (o : Byte) (l : List Byte) (p : Pos) : (s.latchPacket o l p).seq = .busy ⟨o, l, p⟩ := rfl
@[simp] theorem State.latchPacket_cnt (s : State) (o : Byte) (l : List Byte) (p : Pos) : (s.latchPacket o l p).cnt = s.cnt := rfl
@[simp] theorem State.latchPacket_dcnt (s : State) (o : Byte) (l : List Byte) (p : Pos) : (s.latchPacket o l p).dcnt = s.dcnt := rfl
@[simp] theorem State.latchPacket_bitcnt (s : State) (o : Byte) (l : List Byte) (p : Pos) : (s.latchPacket o l p).bitcnt = s.bitcnt := rfl
@[simp] theorem State.latchPacket_sck (s : State) (o : Byte) (l : List Byte) (p : Pos) : (s.latchPacket o l p).sck = s.sck := rfl
@[simp] theorem State.latchPacket_lines (s : State) (o : Byte) (l : List Byte) (p : Pos) : (s.latchPacket o l p).lines = s.lines := rfl
@[simp] theorem State.latchPacket_hist (s : State) (o : Byte) (l : List Byte) (p : Pos) : (s.latchPacket o l p).hist = s.hist := rfl
@[simp] theorem State.latchPacket_cmdIn (s : State) (o : Byte) (l : List Byte) (p : Pos) : (s.latchPacket o l p).cmdIn = s.cmdIn := rfl
@[simp] theorem State.latchPacket_rspReady (s : State) (o : Byte) (l : List Byte) (p : Pos) : (s.latchPacket o l p).rspReady = s.rspReady := rfl
@[simp] theorem State.latchPacket_miso (s : State) (o : Byte) (l : List Byte) (p : Pos) : (s.latchPacket o l p).miso = s.miso := rfl
@[simp] theorem State.latchPacket_host (s : State) (o : Byte) (l : List Byte) (p : Pos) : (s.latchPacket o l p).host = s.host := rfl
@[simp] theorem State.latchPacket_draws (s : State) (o : Byte) (l : List Byte) (p : Pos) : (s.latchPacket o l p).draws = s.draws := rfl

@[simp] theorem State.setLineByte_cfg (s : State) (a : Nat) (v : Byte) : (s.setLineByte a v).cfg = s.cfg := rfl
@[simp] theorem State.setLineByte_grain (s : State) (a : Nat) (v : Byte) : (s.setLineByte a v).grain = s.grain := rfl
@[simp] theorem State.setLineByte_slots (s : State) (a : Nat) (v : Byte) : (s.setLineByte a v).slots = s.slots := rfl
@[simp] theorem State.setLineByte_ctrl (s : State) (a : Nat) (v : Byte) : (s.setLineByte a v).ctrl = s.ctrl := rfl
@[simp] theorem State.setLineByte_tc (s : State) (a : Nat) (v : Byte) : (s.setLineByte a v).tc = s.tc := rfl
@[simp] theorem State.setLineByte_fault (s : State) (a : Nat) (v : Byte) : (s.setLineByte a v).fault = s.fault := rfl
@[simp] theorem State.setLineByte_finfo (s : State) (a : Nat) (v : Byte) : (s.setLineByte a v).finfo = s.finfo := rfl
@[simp] theorem State.setLineByte_data (s : State) (a : Nat) (v : Byte) : (s.setLineByte a v).data = s.data := rfl
@[simp] theorem State.setLineByte_seq (s : State) (a : Nat) (v : Byte) : (s.setLineByte a v).seq = s.seq := rfl
@[simp] theorem State.setLineByte_cnt (s : State) (a : Nat) (v : Byte) : (s.setLineByte a v).cnt = s.cnt := rfl
@[simp] theorem State.setLineByte_dcnt (s : State) (a : Nat) (v : Byte) : (s.setLineByte a v).dcnt = s.dcnt := rfl
@[simp] theorem State.setLineByte_bitcnt (s : State) (a : Nat) (v : Byte) : (s.setLineByte a v).bitcnt = s.bitcnt := rfl
@[simp] theorem State.setLineByte_sck (s : State) (a : Nat) (v : Byte) : (s.setLineByte a v).sck = s.sck := rfl
@[simp] theorem State.setLineByte_lines (s : State) (a : Nat) (v : Byte) : (s.setLineByte a v).lines = Memory.write s.lines a v := rfl
@[simp] theorem State.setLineByte_hist (s : State) (a : Nat) (v : Byte) : (s.setLineByte a v).hist = s.hist := rfl
@[simp] theorem State.setLineByte_cmdIn (s : State) (a : Nat) (v : Byte) : (s.setLineByte a v).cmdIn = s.cmdIn := rfl
@[simp] theorem State.setLineByte_rspReady (s : State) (a : Nat) (v : Byte) : (s.setLineByte a v).rspReady = s.rspReady := rfl
@[simp] theorem State.setLineByte_miso (s : State) (a : Nat) (v : Byte) : (s.setLineByte a v).miso = s.miso := rfl
@[simp] theorem State.setLineByte_host (s : State) (a : Nat) (v : Byte) : (s.setLineByte a v).host = s.host := rfl
@[simp] theorem State.setLineByte_draws (s : State) (a : Nat) (v : Byte) : (s.setLineByte a v).draws = s.draws := rfl

@[simp] theorem State.writeCtrl_cfg (s : State) (v : Byte) : (s.writeCtrl v).cfg = s.cfg := rfl
@[simp] theorem State.writeCtrl_grain (s : State) (v : Byte) : (s.writeCtrl v).grain = s.grain := rfl
@[simp] theorem State.writeCtrl_slots (s : State) (v : Byte) : (s.writeCtrl v).slots = s.slots := rfl
@[simp] theorem State.writeCtrl_ctrl (s : State) (v : Byte) : (s.writeCtrl v).ctrl = v := rfl
@[simp] theorem State.writeCtrl_tc (s : State) (v : Byte) : (s.writeCtrl v).tc = s.tc := rfl
@[simp] theorem State.writeCtrl_fault (s : State) (v : Byte) : (s.writeCtrl v).fault = s.fault := rfl
@[simp] theorem State.writeCtrl_finfo (s : State) (v : Byte) : (s.writeCtrl v).finfo = s.finfo := rfl
@[simp] theorem State.writeCtrl_data (s : State) (v : Byte) : (s.writeCtrl v).data = s.data := rfl
@[simp] theorem State.writeCtrl_seq (s : State) (v : Byte) : (s.writeCtrl v).seq = s.seq := rfl
@[simp] theorem State.writeCtrl_cnt (s : State) (v : Byte) : (s.writeCtrl v).cnt = s.cnt := rfl
@[simp] theorem State.writeCtrl_dcnt (s : State) (v : Byte) : (s.writeCtrl v).dcnt = s.dcnt := rfl
@[simp] theorem State.writeCtrl_bitcnt (s : State) (v : Byte) : (s.writeCtrl v).bitcnt = s.bitcnt := rfl
@[simp] theorem State.writeCtrl_sck (s : State) (v : Byte) : (s.writeCtrl v).sck = s.sck := rfl
@[simp] theorem State.writeCtrl_lines (s : State) (v : Byte) : (s.writeCtrl v).lines = s.lines := rfl
@[simp] theorem State.writeCtrl_hist (s : State) (v : Byte) : (s.writeCtrl v).hist = s.hist ++ [.ctrl v] := rfl
@[simp] theorem State.writeCtrl_cmdIn (s : State) (v : Byte) : (s.writeCtrl v).cmdIn = s.cmdIn := rfl
@[simp] theorem State.writeCtrl_rspReady (s : State) (v : Byte) : (s.writeCtrl v).rspReady = s.rspReady := rfl
@[simp] theorem State.writeCtrl_miso (s : State) (v : Byte) : (s.writeCtrl v).miso = s.miso := rfl
@[simp] theorem State.writeCtrl_host (s : State) (v : Byte) : (s.writeCtrl v).host = s.host := rfl
@[simp] theorem State.writeCtrl_draws (s : State) (v : Byte) : (s.writeCtrl v).draws = s.draws := rfl

@[simp] theorem State.wait_cfg (s : State) (d : Delay) : (s.wait d).cfg = s.cfg := rfl
@[simp] theorem State.wait_grain (s : State) (d : Delay) : (s.wait d).grain = s.grain := rfl
@[simp] theorem State.wait_slots (s : State) (d : Delay) : (s.wait d).slots = s.slots := rfl
@[simp] theorem State.wait_ctrl (s : State) (d : Delay) : (s.wait d).ctrl = s.ctrl := rfl
@[simp] theorem State.wait_tc (s : State) (d : Delay) : (s.wait d).tc = s.tc := rfl
@[simp] theorem State.wait_fault (s : State) (d : Delay) : (s.wait d).fault = s.fault := rfl
@[simp] theorem State.wait_finfo (s : State) (d : Delay) : (s.wait d).finfo = s.finfo := rfl
@[simp] theorem State.wait_data (s : State) (d : Delay) : (s.wait d).data = s.data := rfl
@[simp] theorem State.wait_seq (s : State) (d : Delay) : (s.wait d).seq = s.seq := rfl
@[simp] theorem State.wait_cnt (s : State) (d : Delay) : (s.wait d).cnt = s.cnt := rfl
@[simp] theorem State.wait_dcnt (s : State) (d : Delay) : (s.wait d).dcnt = 0x0000#16 := rfl
@[simp] theorem State.wait_bitcnt (s : State) (d : Delay) : (s.wait d).bitcnt = s.bitcnt := rfl
@[simp] theorem State.wait_sck (s : State) (d : Delay) : (s.wait d).sck = s.sck := rfl
@[simp] theorem State.wait_lines (s : State) (d : Delay) : (s.wait d).lines = s.lines := rfl
@[simp] theorem State.wait_hist (s : State) (d : Delay) : (s.wait d).hist = s.hist ++ [.wait d] := rfl
@[simp] theorem State.wait_cmdIn (s : State) (d : Delay) : (s.wait d).cmdIn = s.cmdIn := rfl
@[simp] theorem State.wait_rspReady (s : State) (d : Delay) : (s.wait d).rspReady = s.rspReady := rfl
@[simp] theorem State.wait_miso (s : State) (d : Delay) : (s.wait d).miso = s.miso := rfl
@[simp] theorem State.wait_host (s : State) (d : Delay) : (s.wait d).host = s.host := rfl
@[simp] theorem State.wait_draws (s : State) (d : Delay) : (s.wait d).draws = s.draws := rfl

@[simp] theorem State.loadData_cfg (s : State) (v : Byte) : (s.loadData v).cfg = s.cfg := rfl
@[simp] theorem State.loadData_grain (s : State) (v : Byte) : (s.loadData v).grain = s.grain := rfl
@[simp] theorem State.loadData_slots (s : State) (v : Byte) : (s.loadData v).slots = s.slots := rfl
@[simp] theorem State.loadData_ctrl (s : State) (v : Byte) : (s.loadData v).ctrl = s.ctrl := rfl
@[simp] theorem State.loadData_tc (s : State) (v : Byte) : (s.loadData v).tc = false := rfl
@[simp] theorem State.loadData_fault (s : State) (v : Byte) : (s.loadData v).fault = s.fault := rfl
@[simp] theorem State.loadData_finfo (s : State) (v : Byte) : (s.loadData v).finfo = s.finfo := rfl
@[simp] theorem State.loadData_data (s : State) (v : Byte) : (s.loadData v).data = v := rfl
@[simp] theorem State.loadData_seq (s : State) (v : Byte) : (s.loadData v).seq = s.seq := rfl
@[simp] theorem State.loadData_cnt (s : State) (v : Byte) : (s.loadData v).cnt = s.cnt := rfl
@[simp] theorem State.loadData_dcnt (s : State) (v : Byte) : (s.loadData v).dcnt = s.dcnt := rfl
@[simp] theorem State.loadData_bitcnt (s : State) (v : Byte) : (s.loadData v).bitcnt = if s.enabled then 8#4 else s.bitcnt := rfl
@[simp] theorem State.loadData_sck (s : State) (v : Byte) : (s.loadData v).sck = s.sck := rfl
@[simp] theorem State.loadData_lines (s : State) (v : Byte) : (s.loadData v).lines = s.lines := rfl
@[simp] theorem State.loadData_hist (s : State) (v : Byte) : (s.loadData v).hist = s.hist ++ [.load v] := rfl
@[simp] theorem State.loadData_cmdIn (s : State) (v : Byte) : (s.loadData v).cmdIn = s.cmdIn := rfl
@[simp] theorem State.loadData_rspReady (s : State) (v : Byte) : (s.loadData v).rspReady = s.rspReady := rfl
@[simp] theorem State.loadData_miso (s : State) (v : Byte) : (s.loadData v).miso = s.miso := rfl
@[simp] theorem State.loadData_host (s : State) (v : Byte) : (s.loadData v).host = s.host := rfl
@[simp] theorem State.loadData_draws (s : State) (v : Byte) : (s.loadData v).draws = s.draws := rfl

@[simp] theorem State.readData_cfg (s : State) : (s.readData).cfg = s.cfg := rfl
@[simp] theorem State.readData_grain (s : State) : (s.readData).grain = s.grain := rfl
@[simp] theorem State.readData_slots (s : State) : (s.readData).slots = s.slots := rfl
@[simp] theorem State.readData_ctrl (s : State) : (s.readData).ctrl = s.ctrl := rfl
@[simp] theorem State.readData_tc (s : State) : (s.readData).tc = s.tc := rfl
@[simp] theorem State.readData_fault (s : State) : (s.readData).fault = s.fault := rfl
@[simp] theorem State.readData_finfo (s : State) : (s.readData).finfo = s.finfo := rfl
@[simp] theorem State.readData_data (s : State) : (s.readData).data = s.data := rfl
@[simp] theorem State.readData_seq (s : State) : (s.readData).seq = s.seq := rfl
@[simp] theorem State.readData_cnt (s : State) : (s.readData).cnt = s.cnt := rfl
@[simp] theorem State.readData_dcnt (s : State) : (s.readData).dcnt = s.dcnt := rfl
@[simp] theorem State.readData_bitcnt (s : State) : (s.readData).bitcnt = s.bitcnt := rfl
@[simp] theorem State.readData_sck (s : State) : (s.readData).sck = s.sck := rfl
@[simp] theorem State.readData_lines (s : State) : (s.readData).lines = s.lines := rfl
@[simp] theorem State.readData_hist (s : State) : (s.readData).hist = s.hist ++ [.done s.data] := rfl
@[simp] theorem State.readData_cmdIn (s : State) : (s.readData).cmdIn = s.cmdIn := rfl
@[simp] theorem State.readData_rspReady (s : State) : (s.readData).rspReady = s.rspReady := rfl
@[simp] theorem State.readData_miso (s : State) : (s.readData).miso = s.miso := rfl
@[simp] theorem State.readData_host (s : State) : (s.readData).host = s.host := rfl
@[simp] theorem State.readData_draws (s : State) : (s.readData).draws = s.draws := rfl

@[simp] theorem State.countByte_cfg (s : State) : (s.countByte).cfg = s.cfg := rfl
@[simp] theorem State.countByte_grain (s : State) : (s.countByte).grain = s.grain := rfl
@[simp] theorem State.countByte_slots (s : State) : (s.countByte).slots = s.slots := rfl
@[simp] theorem State.countByte_ctrl (s : State) : (s.countByte).ctrl = s.ctrl := rfl
@[simp] theorem State.countByte_tc (s : State) : (s.countByte).tc = s.tc := rfl
@[simp] theorem State.countByte_fault (s : State) : (s.countByte).fault = s.fault := rfl
@[simp] theorem State.countByte_finfo (s : State) : (s.countByte).finfo = s.finfo := rfl
@[simp] theorem State.countByte_data (s : State) : (s.countByte).data = s.data := rfl
@[simp] theorem State.countByte_seq (s : State) : (s.countByte).seq = s.seq := rfl
@[simp] theorem State.countByte_cnt (s : State) : (s.countByte).cnt = s.cnt - 1#8 := rfl
@[simp] theorem State.countByte_dcnt (s : State) : (s.countByte).dcnt = s.dcnt := rfl
@[simp] theorem State.countByte_bitcnt (s : State) : (s.countByte).bitcnt = s.bitcnt := rfl
@[simp] theorem State.countByte_sck (s : State) : (s.countByte).sck = s.sck := rfl
@[simp] theorem State.countByte_lines (s : State) : (s.countByte).lines = s.lines := rfl
@[simp] theorem State.countByte_hist (s : State) : (s.countByte).hist = s.hist := rfl
@[simp] theorem State.countByte_cmdIn (s : State) : (s.countByte).cmdIn = s.cmdIn := rfl
@[simp] theorem State.countByte_rspReady (s : State) : (s.countByte).rspReady = s.rspReady := rfl
@[simp] theorem State.countByte_miso (s : State) : (s.countByte).miso = s.miso := rfl
@[simp] theorem State.countByte_host (s : State) : (s.countByte).host = s.host := rfl
@[simp] theorem State.countByte_draws (s : State) : (s.countByte).draws = s.draws := rfl

@[simp] theorem State.applyReset_cfg (s : State) : (s.applyReset).cfg = s.cfg := rfl
@[simp] theorem State.applyReset_grain (s : State) : (s.applyReset).grain = s.grain := rfl
@[simp] theorem State.applyReset_slots (s : State) : (s.applyReset).slots = Vector.replicate 8 none := rfl
@[simp] theorem State.applyReset_ctrl (s : State) : (s.applyReset).ctrl = 0x00#8 := rfl
@[simp] theorem State.applyReset_tc (s : State) : (s.applyReset).tc = false := rfl
@[simp] theorem State.applyReset_fault (s : State) : (s.applyReset).fault = 0x00#8 := rfl
@[simp] theorem State.applyReset_finfo (s : State) : (s.applyReset).finfo = 0x00#8 := rfl
@[simp] theorem State.applyReset_data (s : State) : (s.applyReset).data = Config.dataAfterReset s.draws := rfl
@[simp] theorem State.applyReset_seq (s : State) : (s.applyReset).seq = .idle := rfl
@[simp] theorem State.applyReset_cnt (s : State) : (s.applyReset).cnt = 0x00#8 := rfl
@[simp] theorem State.applyReset_dcnt (s : State) : (s.applyReset).dcnt = 0x0000#16 := rfl
@[simp] theorem State.applyReset_bitcnt (s : State) : (s.applyReset).bitcnt = 0#4 := rfl
@[simp] theorem State.applyReset_sck (s : State) : (s.applyReset).sck = .low := rfl
@[simp] theorem State.applyReset_lines (s : State) : (s.applyReset).lines = s.lines := rfl
@[simp] theorem State.applyReset_hist (s : State) : (s.applyReset).hist = [] := rfl
@[simp] theorem State.applyReset_cmdIn (s : State) : (s.applyReset).cmdIn = [] := rfl
@[simp] theorem State.applyReset_rspReady (s : State) : (s.applyReset).rspReady = s.rspReady := rfl
@[simp] theorem State.applyReset_miso (s : State) : (s.applyReset).miso = s.miso := rfl
@[simp] theorem State.applyReset_host (s : State) : (s.applyReset).host = s.host := rfl
@[simp] theorem State.applyReset_draws (s : State) : (s.applyReset).draws = s.draws + 1 := rfl

end Sys2Proof.Machine
end

