-- ==== Sys2Proof/Laws/Ops.lean ====
section
/-! SUPPORT. One lemma per shared operation that says everything it can do, for proofs to cite instead of
unfolding the operation. -/

namespace Sys2Proof.Machine

/-! ### Outcomes -/

@[simp] theorem Out.andThen_next (s : State) (k : State → Out) : Out.andThen (.next s) k = k s := rfl

@[simp] theorem Out.andThen_fault (r : Fault) (k : State → Out) : Out.andThen (.fault r) k = .fault r := rfl

@[simp] theorem Out.andThen_refused (r : Refusal) (k : State → Out) : Out.andThen (.refused r) k = .refused r := rfl

/-- A sequence that ends in a next state passed through one. -/
theorem Out.andThen_eq_next {o : Out} {k : State → Out} {t : State} :
    Out.andThen o k = .next t ↔ ∃ u, o = .next u ∧ k u = .next t := by
  cases o <;> simp [Out.andThen]

/-! ### Addresses and bits -/

theorem valAddr_inj {p q : Byte} : valAddr p = valAddr q ↔ p = q := by
  simp only [valAddr]
  constructor
  · intro h; exact BitVec.eq_of_toNat_eq (by omega)
  · rintro rfl; rfl

theorem dirAddr_inj {p q : Byte} : dirAddr p = dirAddr q ↔ p = q := by
  simp only [dirAddr]
  constructor
  · intro h; exact BitVec.eq_of_toNat_eq (by omega)
  · rintro rfl; rfl

theorem valAddr_ne_dirAddr (p q : Byte) : valAddr p ≠ dirAddr q := by
  simp only [valAddr, dirAddr]; omega

theorem dirAddr_ne_valAddr (p q : Byte) : dirAddr p ≠ valAddr q := by
  simp only [valAddr, dirAddr]; omega

/-- A legal port has both its line registers. -/
theorem lineExists_of_portLegal {s : State} {p : Byte} (h : portLegal s.cfg.nports p = true) :
    s.lineExists (valAddr p) = true ∧ s.lineExists (dirAddr p) = true := by
  simp only [portLegal, decide_eq_true_eq] at h
  simp only [State.lineExists, decide_eq_true_eq]
  simp only [valAddr, dirAddr]
  omega

/-- The mask of a bit position has that bit and no other. -/
theorem bitMask_getLsbD (b : BitPos) (j : Nat) : (bitMask b).getLsbD j = decide (j = b.toNat) := by
  have hb := b.isLt
  simp only [bitMask, BitVec.getLsbD_shiftLeft, BitVec.getLsbD_one]
  by_cases h : j = b.toNat
  · subst h; simp; omega
  · simp only [h, decide_false]
    by_cases hlt : j < b.toNat
    · simp [hlt]
    · have : j - b.toNat ≠ 0 := by omega
      simp [this]

/-- A single-bit set changes no other bit. -/
theorem getLsbD_setBit (v : Byte) (b : BitPos) (j : Nat) :
    ((v ||| bitMask b) &&& ~~~0#8).getLsbD j = (v.getLsbD j || decide (j = b.toNat)) := by
  have hb := b.isLt
  rw [BitVec.getLsbD_and, BitVec.getLsbD_or, BitVec.getLsbD_not, BitVec.getLsbD_zero, bitMask_getLsbD]
  by_cases hj : j < 8
  · simp [hj]
  · have h1 : v.getLsbD j = false := BitVec.getLsbD_of_ge v j (by omega)
    have h2 : j ≠ b.toNat := by omega
    simp [hj, h1, h2]

/-- A single-bit clear changes no other bit. -/
theorem getLsbD_clearBit (v : Byte) (b : BitPos) (j : Nat) :
    ((v ||| 0#8) &&& ~~~bitMask b).getLsbD j = (v.getLsbD j && !decide (j = b.toNat)) := by
  rw [BitVec.getLsbD_and, BitVec.getLsbD_or, BitVec.getLsbD_not, BitVec.getLsbD_zero, bitMask_getLsbD]
  by_cases hj : j < 8
  · simp [hj]
  · have h1 : v.getLsbD j = false := BitVec.getLsbD_of_ge v j (by omega)
    simp [h1]

/-! ### Line registers -/

@[simp] theorem State.emit_lineByte (s : State) (e : Event) (a : Nat) : (s.emit e).lineByte a = s.lineByte a := rfl

theorem State.setLineByte_lineByte_other (s : State) {a b : Nat} (v : Byte) (h : b ≠ a) :
    (s.setLineByte a v).lineByte b = s.lineByte b :=
  Memory.read_write_other s.lines v h

theorem State.setLineByte_lineByte_same {s : State} (a : Nat) (v : Byte) (h : Memory.wf s.lines = true) :
    (s.setLineByte a v).lineByte a = v :=
  Memory.read_write_same a v h

/-- What a read-modify-write leaves. -/
def State.rmwResult (s : State) (addr : Nat) (set clear : Byte) (e : Event) : State :=
  (s.setLineByte addr ((s.lineByte addr ||| set) &&& ~~~clear)).emit e

/-- A read-modify-write of a register that exists completes. -/
theorem State.rmw_next {s : State} {addr : Nat} (set clear : Byte) (e : Event) (h : s.lineExists addr = true) :
    s.rmw addr set clear e = .next (s.rmwResult addr set clear e) := by
  simp [State.rmw, State.memRead, State.memWrite, h, State.rmwResult]

/-- A read-modify-write that answers a next state is of a register that exists. -/
theorem State.rmw_cases {s t : State} {addr : Nat} {set clear : Byte} {e : Event}
    (h : s.rmw addr set clear e = .next t) :
    s.lineExists addr = true ∧ t = s.rmwResult addr set clear e := by
  by_cases hx : s.lineExists addr = true
  · rw [State.rmw_next set clear e hx] at h
    exact ⟨hx, by simpa using h.symm⟩
  · simp [State.rmw, State.memRead, hx] at h

theorem State.lineSet_next {s : State} {p : Byte} (b : BitPos) (h : portLegal s.cfg.nports p = true) :
    s.lineSet p b = .next (s.rmwResult (valAddr p) (bitMask b) 0#8 (.line p b true)) :=
  State.rmw_next _ _ _ (lineExists_of_portLegal h).1

theorem State.lineClear_next {s : State} {p : Byte} (b : BitPos) (h : portLegal s.cfg.nports p = true) :
    s.lineClear p b = .next (s.rmwResult (valAddr p) 0#8 (bitMask b) (.line p b false)) :=
  State.rmw_next _ _ _ (lineExists_of_portLegal h).1

theorem State.dirSet_next {s : State} {p : Byte} (b : BitPos) (h : portLegal s.cfg.nports p = true) :
    s.dirSet p b = .next (s.rmwResult (dirAddr p) (bitMask b) 0#8 (.dir p b)) :=
  State.rmw_next _ _ _ (lineExists_of_portLegal h).2

/-- The line registers after `DirSet` of every line of a list. -/
def dirLines : List Line → Memory → Memory
  | [], m => m
  | l :: rest, m =>
    dirLines rest (Memory.write m (dirAddr l.port) ((Memory.read m (dirAddr l.port) ||| bitMask l.bit) &&& ~~~0#8))

/-- What `DirSet` of every line of a list leaves. -/
theorem State.dirSetAll_cases {ls : List Line} {s t : State} (h : State.dirSetAll ls s = .next t) :
    t = { s with lines := dirLines ls s.lines, hist := s.hist ++ ls.map fun l => Event.dir l.port l.bit } := by
  induction ls generalizing s with
  | nil => simp [State.dirSetAll] at h; simp [dirLines, h]
  | cons l rest ih =>
    obtain ⟨u, hu, ht⟩ := Out.andThen_eq_next.mp h
    obtain ⟨-, rfl⟩ := State.rmw_cases hu
    rw [ih ht]
    simp [State.rmwResult, State.emit, State.setLineByte, dirLines, State.lineByte]

/-- `DirSet` of legal lines completes. -/
theorem State.dirSetAll_next {ls : List Line} {s : State}
    (h : ∀ l ∈ ls, portLegal s.cfg.nports l.port = true) : ∃ t, State.dirSetAll ls s = .next t := by
  induction ls generalizing s with
  | nil => exact ⟨s, rfl⟩
  | cons l rest ih =>
    have h1 := State.dirSet_next (s := s) l.bit (h l (by simp))
    simp only [State.dirSetAll, h1, Out.andThen_next]
    exact ih (fun k hk => h k (by simp [hk]))

theorem dirLines_wf (ls : List Line) {m : Memory} (h : Memory.wf m = true) : Memory.wf (dirLines ls m) = true := by
  induction ls generalizing m with
  | nil => exact h
  | cons l rest ih => exact ih (Memory.wf_write _ _ h)

/-- `DirSet` of a list changes no register but the `DIR` registers of its ports. -/
theorem dirLines_read_other (ls : List Line) (m : Memory) {a : Nat} (h : ∀ l ∈ ls, a ≠ dirAddr l.port) :
    Memory.read (dirLines ls m) a = Memory.read m a := by
  induction ls generalizing m with
  | nil => rfl
  | cons l rest ih =>
    simp only [dirLines]
    rw [ih _ (fun k hk => h k (by simp [hk])), Memory.read_write_other _ _ (h l (by simp))]

/-- `DirSet` of a list sets exactly the listed bits. -/
theorem dirLines_getLsbD (ls : List Line) {m : Memory} (l : Line) (h : Memory.wf m = true) :
    (Memory.read (dirLines ls m) (dirAddr l.port)).getLsbD l.bit.toNat =
      ((Memory.read m (dirAddr l.port)).getLsbD l.bit.toNat || decide (l ∈ ls)) := by
  induction ls generalizing m with
  | nil => simp [dirLines]
  | cons k rest ih =>
    simp only [dirLines]
    rw [ih (Memory.wf_write _ _ h)]
    by_cases hp : l.port = k.port
    · rw [hp, Memory.read_write_same _ _ h, getLsbD_setBit]
      by_cases hb : l.bit = k.bit
      · have hl : l = k := by cases l; cases k; simp_all
        simp [hl]
      · have hb' : l.bit.toNat ≠ k.bit.toNat := fun e => hb (BitVec.eq_of_toNat_eq e)
        have hl : l ≠ k := fun e => hb (by rw [e])
        simp [hb', hl]
    · have ha : dirAddr l.port ≠ dirAddr k.port := fun e => hp (dirAddr_inj.mp e)
      have hl : l ≠ k := fun e => hp (by rw [e])
      rw [Memory.read_write_other _ _ ha]
      simp [hl]

/-- Addresses stay inside the line register space. -/
theorem dirLines_mem (ls : List Line) {m : Memory} {c : Host.Cell} (h : c ∈ dirLines ls m) :
    c ∈ m ∨ ∃ l ∈ ls, c.1 = dirAddr l.port := by
  induction ls generalizing m with
  | nil => exact .inl h
  | cons l rest ih =>
    rcases ih h with h | ⟨k, hk, e⟩
    · rcases Memory.mem_write h with h | h
      · exact .inl h
      · exact .inr ⟨l, by simp, h⟩
    · exact .inr ⟨k, by simp [hk], e⟩

/-- Setting bits that are all set already changes nothing. -/
theorem dirLines_same (ls : List Line) {m : Memory} (h : Memory.wf m = true)
    (hs : ∀ l ∈ ls, (Memory.read m (dirAddr l.port)).getLsbD l.bit.toNat = true) : dirLines ls m = m := by
  induction ls with
  | nil => rfl
  | cons l rest ih =>
    have hv : (Memory.read m (dirAddr l.port) ||| bitMask l.bit) &&& ~~~0#8 = Memory.read m (dirAddr l.port) := by
      apply BitVec.eq_of_getLsbD_eq
      intro j hj
      rw [getLsbD_setBit]
      by_cases hb : j = l.bit.toNat
      · subst hb; simp [hs l (by simp)]
      · simp [hb]
    simp only [dirLines, hv, Memory.write_read _ h]
    exact ih (fun k hk => hs k (by simp [hk]))

/-! ### Lines as bits -/

/-- Levels, directions, pins and selection of lines are functions of the line registers alone. -/
theorem State.valBit_of_lines {s t : State} (h : s.lines = t.lines) (l : Line) : s.valBit l = t.valBit l := by
  simp only [State.valBit, State.lineByte, h]

theorem State.dirBit_of_lines {s t : State} (h : s.lines = t.lines) (l : Line) : s.dirBit l = t.dirBit l := by
  simp only [State.dirBit, State.lineByte, h]

/-- A level write touches one level bit: the named line's. -/
theorem State.rmwResult_valBit_set {s : State} (p : Byte) (b : BitPos) (e : Event) (l : Line)
    (h : Memory.wf s.lines = true) :
    (s.rmwResult (valAddr p) (bitMask b) 0#8 e).valBit l = (s.valBit l || decide (l = ⟨p, b⟩)) := by
  obtain ⟨q, c⟩ := l
  simp only [State.valBit, State.rmwResult, State.emit_lineByte]
  by_cases hp : q = p
  · subst hp
    rw [State.setLineByte_lineByte_same _ _ h, getLsbD_setBit]
    by_cases hb : c = b
    · simp [hb]
    · have hb' : c.toNat ≠ b.toNat := fun e => hb (BitVec.eq_of_toNat_eq e)
      simp [hb, hb']
  · have ha : valAddr q ≠ valAddr p := fun e => hp (valAddr_inj.mp e)
    rw [State.setLineByte_lineByte_other _ _ ha]
    simp [hp]

theorem State.rmwResult_valBit_clear {s : State} (p : Byte) (b : BitPos) (e : Event) (l : Line)
    (h : Memory.wf s.lines = true) :
    (s.rmwResult (valAddr p) 0#8 (bitMask b) e).valBit l = (s.valBit l && !decide (l = ⟨p, b⟩)) := by
  obtain ⟨q, c⟩ := l
  simp only [State.valBit, State.rmwResult, State.emit_lineByte]
  by_cases hp : q = p
  · subst hp
    rw [State.setLineByte_lineByte_same _ _ h, getLsbD_clearBit]
    by_cases hb : c = b
    · simp [hb]
    · have hb' : c.toNat ≠ b.toNat := fun e => hb (BitVec.eq_of_toNat_eq e)
      simp [hb, hb']
  · have ha : valAddr q ≠ valAddr p := fun e => hp (valAddr_inj.mp e)
    rw [State.setLineByte_lineByte_other _ _ ha]
    simp [hp]

/-- A level write touches no direction bit. -/
theorem State.rmwResult_dirBit (s : State) (p : Byte) (set clear : Byte) (e : Event) (l : Line) :
    (s.rmwResult (valAddr p) set clear e).dirBit l = s.dirBit l := by
  simp only [State.dirBit, State.rmwResult, State.emit_lineByte]
  rw [State.setLineByte_lineByte_other _ _ (dirAddr_ne_valAddr _ _)]

/-! ### Slots -/

theorem slotIndex_inj {a b : Byte} {k : Fin 8} (ha : slotIndex a = some k) (hb : slotIndex b = some k) : a = b := by
  simp only [slotIndex] at ha hb
  split at ha <;> split at hb <;> simp at ha hb
  subst ha
  exact BitVec.eq_of_toNat_eq (by simpa using (congrArg Fin.val hb).symm)

theorem slotIndex_of_idLegal {id : Byte} (h : idLegal id = true) : ∃ k, slotIndex id = some k := by
  simp only [idLegal, decide_eq_true_eq] at h
  exact ⟨⟨id.toNat, h⟩, by simp [slotIndex, h]⟩

/-- An identifier above 7 names no slot. -/
theorem slotIndex_of_not_idLegal {id : Byte} (h : idLegal id = false) : slotIndex id = none := by
  simp only [idLegal, decide_eq_false_iff_not] at h
  simp [slotIndex, h]

/-- Reading the slot written. -/
theorem State.writeSlot_slot_same (s : State) {id : Byte} (d : Slot) (h : idLegal id = true) :
    (s.writeSlot id d).slot id = some d := by
  obtain ⟨k, hk⟩ := slotIndex_of_idLegal h
  simp [State.writeSlot, State.slot, hk]

/-- Reading another slot. -/
theorem State.writeSlot_slot_other (s : State) {id j : Byte} (d : Slot) (h : j ≠ id) :
    (s.writeSlot id d).slot j = s.slot j := by
  rcases hk : slotIndex id with _ | k
  · simp [State.writeSlot, hk]
  · rcases hj : slotIndex j with _ | m
    · simp [State.slot, hj]
    · have hne : k ≠ m := fun e => h (slotIndex_inj hj (e ▸ hk))
      have hne' : (k : Nat) ≠ m := fun e => hne (Fin.ext e)
      simp [State.writeSlot, State.slot, hk, hj, hne']

/-- A slot write changes nothing but the slots. -/
theorem State.writeSlot_frame (s : State) (id : Byte) (d : Slot) : ∃ x, s.writeSlot id d = { s with slots := x } := by
  simp only [State.writeSlot]
  split
  · exact ⟨_, rfl⟩
  · exact ⟨s.slots, rfl⟩

/-- What SELECT and DESELECT find. -/
theorem State.lookup_ok {s : State} {id : Byte} {d : Slot} : s.lookup id = .ok d ↔ s.slot id = some d := by
  simp only [State.lookup]
  cases hl : idLegal id
  · simp [State.slot, slotIndex_of_not_idLegal hl]
  · cases hs : s.slot id <;> simp

theorem State.lookup_error {s : State} {id : Byte} {f : CoreFault} (h : s.lookup id = .error f) :
    s.slot id = none ∧ f = if 8 ≤ id.toNat then .invalidSlaveId else .notRegistered := by
  simp only [State.lookup] at h
  cases hl : idLegal id
  · simp only [hl, Except.error.injEq] at h
    have hge : 8 ≤ id.toNat := by simpa [idLegal] using hl
    exact ⟨by simp [State.slot, slotIndex_of_not_idLegal hl], by simp [hge, ← h]⟩
  · have hlt : ¬ 8 ≤ id.toNat := by simpa [idLegal] using hl
    cases hs : s.slot id <;> simp [hl, hs] at h
    exact ⟨rfl, by simp [hlt, ← h]⟩

/-! ### The response stream and faults -/

/-- The state after the host has taken byte `v`. -/
def State.taken (s : State) (v : Byte) : State := { s with rspReady := s.rspReady.afterTake }.emit (.rsp v)

theorem State.takeRsp_takes {s : State} (v : Byte) (h : s.takes 1) : s.takeRsp v = some (s.taken v) := by
  simp only [State.takes] at h
  simp only [State.takeRsp, State.taken]
  split at h
  · rename_i hr; simp only [hr, RspReady.afterTake]; rw [← hr]
  · rename_i k hr
    cases k with
    | zero => omega
    | succ n => simp [hr, RspReady.afterTake]

theorem State.takeRsp_holds {s : State} (v : Byte) (h : ¬ s.takes 1) : s.takeRsp v = none := by
  simp only [State.takes] at h
  simp only [State.takeRsp]
  split at h
  · simp at h
  · rename_i k hr
    have : k = 0 := by omega
    subst this
    simp [hr]

/-- The status byte of a command whose host takes it. -/
theorem State.putStatus_takes {s : State} (v : Byte) (h : s.takes 1) :
    s.putStatus v = { s.taken v with seq := seqAfterStatus v } := by
  simp [State.putStatus, State.takeRsp_takes v h]

/-- The status byte of a command whose host does not take it. -/
theorem State.putStatus_holds {s : State} (v : Byte) (h : ¬ s.takes 1) : s.putStatus v = s.moveTo (.status v) := by
  simp [State.putStatus, State.takeRsp_holds v h]

/-- All that offering the status byte can change. -/
theorem State.putStatus_frame (s : State) (v : Byte) :
    ∃ q r h, s.putStatus v = { s with seq := q, rspReady := r, hist := s.hist ++ h } := by
  by_cases ht : s.takes 1
  · exact ⟨_, _, [.rsp v], by rw [State.putStatus_takes v ht]; rfl⟩
  · exact ⟨s.seq.moveTo (.status v), s.rspReady, [], by rw [State.putStatus_holds v ht]; simp [State.moveTo]⟩

/-- Raising a fault, the host taking the status byte. -/
theorem State.raise_takes {s : State} (f : CoreFault) (info : Byte) (h : s.takes 1) :
    s.raise f info = { (s.recordFault f info) with
      hist := s.hist ++ [.fault f.code info, .rsp f.code], rspReady := s.rspReady.afterTake,
      seq := seqAfterStatus f.code } := by
  have hr : (s.recordFault f info).rspReady = s.rspReady := by simp only [State.recordFault]; split <;> rfl
  have hh : (s.recordFault f info).hist = s.hist := by simp only [State.recordFault]; split <;> rfl
  have ht : ((s.recordFault f info).emit (.fault f.code info)).takes 1 := by
    simp only [State.takes, State.emit_rspReady, hr]; exact h
  rw [State.raise, State.enterFault, State.putStatus_takes _ ht]
  simp [State.taken, State.emit, hr, hh]

/-- All that raising a fault can change. -/
theorem State.raise_frame (s : State) (f : CoreFault) (info : Byte) :
    ∃ a b q r h, s.raise f info = { s with fault := a, finfo := b, seq := q, rspReady := r, hist := s.hist ++ h } := by
  obtain ⟨q, r, h, e⟩ := State.putStatus_frame (s.enterFault f info) f.code
  rw [State.raise, e]
  simp only [State.enterFault, State.recordFault, State.emit]
  split
  · exact ⟨f.code, info, q, r, .fault f.code info :: h, by simp⟩
  · exact ⟨s.fault, s.finfo, q, r, .fault f.code info :: h, by simp⟩

/-! ### The shifter -/

/-- All that a pass of the shifter can change. -/
theorem State.shiftBits_frame (n : Nat) (s : State) :
    ∃ d tc b k m r, State.shiftBits n s =
      { s with data := d, tc := tc, bitcnt := b, sck := k, miso := m, draws := r } := by
  induction n generalizing s with
  | zero => exact ⟨s.data, s.tc, s.bitcnt, s.sck, s.miso, s.draws, rfl⟩
  | succ n ih =>
    obtain ⟨d, tc, b, k, m, r, e⟩ := ih s.shiftBit
    refine ⟨d, tc, b, k, m, r, ?_⟩
    rw [State.shiftBits, e]
    simp only [State.shiftBit, State.sckRise, State.sckFall, State.sampleMiso]
    cases s.miso <;> rfl

/-- One pass: the count goes down, the clock is low again, and the last bit sets `TC`. -/
theorem State.shiftBit_count (s : State) :
    s.shiftBit.bitcnt = s.bitcnt - 1#4 ∧ s.shiftBit.sck = .low ∧
      s.shiftBit.tc = tcAfterBit (s.bitcnt - 1#4) s.tc := by
  simp only [State.shiftBit, State.sckRise, State.sckFall, State.sampleMiso]
  cases s.miso <;> simp

/-- Eight passes from a count of 8 end the exchange. -/
theorem State.shiftBits_eight {s : State} (h : s.bitcnt = 8#4) :
    (State.shiftBits 8 s).bitcnt = 0#4 ∧ (State.shiftBits 8 s).sck = .low ∧ (State.shiftBits 8 s).tc = true := by
  simp only [State.shiftBits]
  simp [(State.shiftBit_count _).1, (State.shiftBit_count _).2.1, (State.shiftBit_count _).2.2, h, tcAfterBit]

/-- An exchange with `EN = 1` and `MSTR = 1` completes; what it leaves. -/
theorem State.exchange_done {s : State} (tx : Byte) (h : s.enabled = true) :
    ∃ rx m r, s.exchange tx = .done rx
      { s with data := rx, tc := true, bitcnt := 0#4, sck := .low, miso := m, draws := r,
               hist := s.hist ++ [.load tx, .done rx] } := by
  have h8 := State.shiftBits_eight (s := s.loadData tx) (by simp [h])
  obtain ⟨d, tc, b, k, m, r, e⟩ := State.shiftBits_frame 8 (s.loadData tx)
  rw [e] at h8
  obtain ⟨rfl, rfl, rfl⟩ := h8
  refine ⟨d, m, r, ?_⟩
  simp only [State.exchange, h, if_true, e]
  simp [State.readData, State.emit, State.loadData]

/-- An exchange with `EN = 0` or `MSTR = 0` hangs; what it leaves. -/
theorem State.exchange_stuck {s : State} (tx : Byte) (h : s.enabled = false) :
    s.exchange tx = .stuck
      { s with data := tx, tc := false, seq := s.seq.moveTo .shifting, hist := s.hist ++ [.load tx] } := by
  simp [State.exchange, h, State.loadData, State.emit, State.moveTo]

/-! ### The loops of the bulk commands -/

/-- The answers an exchange can give, together. -/
theorem State.exchange_cases (s : State) (tx : Byte) :
    (∃ rx m r, s.enabled = true ∧ s.exchange tx = .done rx
      { s with data := rx, tc := true, bitcnt := 0#4, sck := .low, miso := m, draws := r,
               hist := s.hist ++ [.load tx, .done rx] }) ∨
    (s.enabled = false ∧ s.exchange tx = .stuck
      { s with data := tx, tc := false, seq := s.seq.moveTo .shifting, hist := s.hist ++ [.load tx] }) := by
  cases h : s.enabled
  · exact .inr ⟨rfl, State.exchange_stuck tx h⟩
  · obtain ⟨rx, m, r, e⟩ := State.exchange_done tx h
    exact .inl ⟨rx, m, r, rfl, e⟩

/-- All that the loop of WRITE_BYTES can change. -/
theorem writeLoop_frame (n : Nat) (s : State) :
    ∃ d tc b k m r c i q y h, writeLoop n s =
      { s with data := d, tc := tc, bitcnt := b, sck := k, miso := m, draws := r, cnt := c, cmdIn := i,
               seq := q, rspReady := y, hist := s.hist ++ h } := by
  induction n generalizing s with
  | zero =>
    obtain ⟨q, y, h, e⟩ := State.putStatus_frame s statusOk
    exact ⟨s.data, s.tc, s.bitcnt, s.sck, s.miso, s.draws, s.cnt, s.cmdIn, q, y, h, by simp [writeLoop, e]⟩
  | succ n ih =>
    cases hc : s.cmdIn with
    | nil =>
      exact ⟨s.data, s.tc, s.bitcnt, s.sck, s.miso, s.draws, s.cnt, [], s.seq.moveTo .payload, s.rspReady, [],
        by simp [writeLoop, State.cmdNext, hc, State.moveTo]⟩
    | cons x rest =>
      rcases State.exchange_cases { s with cmdIn := rest } x with ⟨rx, m, r, -, e⟩ | ⟨-, e⟩
      · simp only [writeLoop, State.cmdNext, hc, e]
        obtain ⟨d, tc, b, k, m', r', c, i, q, y, h, e'⟩ := ih (State.countByte
          { s with data := rx, tc := true, bitcnt := 0#4, sck := .low, miso := m, draws := r, cmdIn := rest,
                   hist := s.hist ++ [.load x, .done rx] })
        exact ⟨d, tc, b, k, m', r', c, i, q, y, .load x :: .done rx :: h, by rw [e']; simp [State.countByte]⟩
      · simp only [writeLoop, State.cmdNext, hc, e]
        exact ⟨_, _, _, _, _, _, _, _, _, _, _, rfl⟩

/-- All that the loop of READ_BYTES can change. -/
theorem readLoop_frame (n : Nat) (s : State) :
    ∃ d tc b k m r c q y h, readLoop n s =
      { s with data := d, tc := tc, bitcnt := b, sck := k, miso := m, draws := r, cnt := c,
               seq := q, rspReady := y, hist := s.hist ++ h } := by
  induction n generalizing s with
  | zero =>
    obtain ⟨q, y, h, e⟩ := State.putStatus_frame s statusOk
    exact ⟨s.data, s.tc, s.bitcnt, s.sck, s.miso, s.draws, s.cnt, q, y, h, by simp [readLoop, e]⟩
  | succ n ih =>
    rcases State.exchange_cases s dummyByte with ⟨rx, m, r, -, e⟩ | ⟨-, e⟩
    · simp only [readLoop, e]
      by_cases ht : State.takes
          { s with data := rx, tc := true, bitcnt := 0#4, sck := .low, miso := m, draws := r,
                   hist := s.hist ++ [.load dummyByte, .done rx] } 1
      · rw [State.takeRsp_takes rx ht]
        obtain ⟨d, tc, b, k, m', r', c, q, y, h, e'⟩ := ih (State.countByte (State.taken
          { s with data := rx, tc := true, bitcnt := 0#4, sck := .low, miso := m, draws := r,
                   hist := s.hist ++ [.load dummyByte, .done rx] } rx))
        exact ⟨d, tc, b, k, m', r', c, q, y, .load dummyByte :: .done rx :: .rsp rx :: h,
          by simp only [e']; simp [State.countByte, State.taken, State.emit]⟩
      · rw [State.takeRsp_holds rx ht]
        exact ⟨_, _, _, _, _, _, _, _, _, _, rfl⟩
    · simp only [readLoop, e]
      exact ⟨_, _, _, _, _, _, _, _, _, _, rfl⟩

end Sys2Proof.Machine
end

