-- ==== Sys2Proof/Laws/PerInstr.lean ====
section
/-! SUPPORT. A statement about every command as syntax, one lemma per constructor: the length of its
packet (spec/30_encoding.md R62). -/

namespace Sys2Proof.Laws.PacketLength

/-- The payload bytes that follow the encoded packet on the stream: `n` for WRITE_BYTES, else none. -/
def payload (i : Instr) : Nat :=
  match i with
  | .writeBytes n => n.toNat
  | .init | .registerSlave _ _ _ _ _ _ | .select _ | .deselect _ | .writeByte _ | .readByte | .readBytes _ => 0

/-- The encoded bytes and the payload make up the packet, and no packet is longer than the longest. -/
def Statement (i : Instr) : Prop :=
  (encode i).length + payload i = i.packetLength ∧ i.packetLength ≤ longestPacket

theorem init : Statement .init := by
  simp [Statement, encode, Instr.operandBytes, payload, Instr.packetLength, longestPacket]

theorem registerSlave (id port : Byte) (rsv : BitVec 5) (bit : BitPos) (sel desel : Delay) :
    Statement (.registerSlave id port rsv bit sel desel) := by
  simp [Statement, encode, Instr.operandBytes, payload, Instr.packetLength, longestPacket]

theorem select (id : Byte) : Statement (.select id) := by
  simp [Statement, encode, Instr.operandBytes, payload, Instr.packetLength, longestPacket]

theorem deselect (id : Byte) : Statement (.deselect id) := by
  simp [Statement, encode, Instr.operandBytes, payload, Instr.packetLength, longestPacket]

theorem writeByte (b : Byte) : Statement (.writeByte b) := by
  simp [Statement, encode, Instr.operandBytes, payload, Instr.packetLength, longestPacket]

theorem writeBytes (n : Byte) : Statement (.writeBytes n) := by
  have h : n.toNat < 256 := n.isLt
  refine ⟨?_, ?_⟩
  · simp [encode, Instr.operandBytes, payload, Instr.packetLength]
  · simp only [Instr.packetLength, longestPacket]
    omega

theorem readByte : Statement .readByte := by
  simp [Statement, encode, Instr.operandBytes, payload, Instr.packetLength, longestPacket]

theorem readBytes (n : Byte) : Statement (.readBytes n) := by
  simp [Statement, encode, Instr.operandBytes, payload, Instr.packetLength, longestPacket]

end Sys2Proof.Laws.PacketLength
end

