-- ==== Sys2Proof/Laws/Step.lean ====
section
/-! SUPPORT. What one step does at each position of the sequencer, for proofs to cite instead of
unfolding the fetch and the micro-steps. -/

namespace Sys2Proof.Machine

/-! ### Readiness, checks, positions -/

/-- A host ready for more bytes is ready for one. -/
theorem State.takes_one {s : State} {n : Nat} (h : s.takes (n + 1)) : s.takes 1 := by
  cases hr : s.rspReady with
  | always => simp [State.takes, hr]
  | upTo k => simp only [State.takes, hr] at h ⊢; omega

/-- What is left of the readiness once a byte has been taken. -/
theorem State.takes_after {s : State} {n : Nat} (h : s.takes (n + 1)) :
    State.takes { s with rspReady := s.rspReady.afterTake } n := by
  cases hr : s.rspReady with
  | always => simp [State.takes, RspReady.afterTake]
  | upTo k => simp only [State.takes, hr, RspReady.afterTake] at h ⊢; omega

/-- REGISTER_SLAVE passes its checks exactly with legal operands. -/
theorem registerFault_none {n : Nat} {id port : Byte} {rsv : BitVec 5} {b3 : Byte} :
    registerFault n id port rsv b3 = none ↔ (idLegal id = true ∧ portLegal n port = true ∧ rsvLegal rsv = true) := by
  unfold registerFault
  cases idLegal id <;> cases portLegal n port <;> cases rsvLegal rsv <;> simp

/-- Only the last position counts. -/
theorem State.moveTo_moveTo (s : State) (p q : Pos) : (s.moveTo p).moveTo q = s.moveTo q := by
  simp only [State.moveTo]; cases s.seq <;> rfl

/-- The status byte ends a command the same way from every position. -/
theorem State.putStatus_moveTo (s : State) (p : Pos) (v : Byte) : (s.moveTo p).putStatus v = s.putStatus v := by
  by_cases ht : s.takes 1
  · have ht' : (s.moveTo p).takes 1 := ht
    rw [State.putStatus_takes v ht, State.putStatus_takes v ht']; rfl
  · have ht' : ¬ (s.moveTo p).takes 1 := ht
    rw [State.putStatus_holds v ht, State.putStatus_holds v ht', State.moveTo_moveTo]

/-- All that the entry of a fault can change. -/
theorem State.enterFault_frame (s : State) (f : CoreFault) (info : Byte) :
    ∃ a b h, s.enterFault f info = { s with fault := a, finfo := b, hist := h } := by
  by_cases h0 : s.fault = 0x00#8
  · simp only [State.enterFault, State.recordFault, h0, if_true]; exact ⟨_, _, _, rfl⟩
  · simp only [State.enterFault, State.recordFault, h0, if_false]; exact ⟨_, _, _, rfl⟩

/-! ### Steps -/

/-- A byte the host takes. -/
theorem State.takeRsp_cases {s t : State} {v : Byte} (h : s.takeRsp v = some t) : s.takes 1 ∧ t = s.taken v := by
  by_cases ht : s.takes 1
  · rw [State.takeRsp_takes v ht] at h
    exact ⟨ht, by simpa using h.symm⟩
  · rw [State.takeRsp_holds v ht] at h; simp at h

/-- All that a step can be: CORE's turn, with the move `run` taken off the script or with no enabled move
at its head, or one of the four moves of the host. -/
theorem step_cases {s t : State} (h : step s = .next t) :
    (∃ r, (s.host = .run :: r ∨ s.host = r ∧ ∀ m, r.head? = some m → m.enabled s = false) ∧
      coreTurn { s with host := r } = .next t) ∨
    (∃ b r, s.host = .offer b :: r ∧ t = { s with host := r, cmdIn := s.cmdIn ++ [b] }) ∨
    (∃ q r, s.host = .ready q :: r ∧ t = { s with host := r, rspReady := q }) ∨
    (∃ a v r, s.host = .platWrite a v :: r ∧ s.seq = .idle ∧ a.toNat < 2 * s.cfg.nports ∧
      t = (State.setLineByte { s with host := r } a.toNat v).emit (.plat a v)) ∨
    (∃ r, s.host = .reset :: r ∧ t = State.applyReset { s with host := r }) := by
  simp only [step, hostTurn] at h
  cases hh : s.host with
  | nil =>
    rw [hh] at h
    exact .inl ⟨[], .inr ⟨rfl, by simp⟩, by rw [← hh]; exact h⟩
  | cons m r =>
    rw [hh] at h
    cases he : m.enabled s
    · simp only [he] at h
      exact .inl ⟨m :: r, .inr ⟨rfl, by simp [he]⟩, by rw [← hh]; exact h⟩
    · simp only [he, if_true] at h
      cases m with
      | run => exact .inl ⟨r, .inl rfl, h⟩
      | offer b => exact .inr (.inl ⟨b, r, rfl, (Host.Outcome.next.inj h).symm⟩)
      | ready q => exact .inr (.inr (.inl ⟨q, r, rfl, (Host.Outcome.next.inj h).symm⟩))
      | reset => exact .inr (.inr (.inr (.inr ⟨r, rfl, (Host.Outcome.next.inj h).symm⟩)))
      | platWrite a v =>
        have hi : s.seq = .idle := by
          cases hs : s.seq <;> simp [HostMove.enabled, hs, Seq.isIdle] at he ⊢
        simp only [State.hostMove, State.platWrite, State.memWrite] at h
        split at h
        · rename_i hx
          exact .inr (.inr (.inr (.inl ⟨a, v, r, rfl, hi, by simpa [State.lineExists] using hx,
            (Host.Outcome.next.inj h).symm⟩)))
        · simp [Out.andThen] at h

/-- With no host move to make, the step is CORE's. -/
theorem step_of_host_nil {s : State} (h : s.host = []) : step s = coreTurn s := by
  simp only [step, hostTurn, h]

/-- While `SEQ = BUSY` CORE takes a micro-step, under either grain. -/
theorem coreTurn_of_busy {s : State} {w : Work} (h : s.seq = .busy w) : coreTurn s = microStep w s := by
  cases hg : s.grain <;> simp only [coreTurn, fetch, coreStep, h, hg]

/-- In `HALTED` CORE does nothing (60_exceptions.md R132). -/
theorem coreTurn_of_halted {s : State} (h : s.seq = .halted) : coreTurn s = .next s := by
  cases hg : s.grain <;> simp only [coreTurn, fetch, coreStep, h, hg]

/-- In `IDLE` under the fine grain CORE takes an opcode byte. -/
theorem coreTurn_of_idle_fine {s : State} (h : s.seq = .idle) (hg : s.grain = .fine) :
    coreTurn s = .next s.takeOpcode := by
  simp only [coreTurn, fetch, coreStep, h, hg]

/-- Inside a packet CORE takes an operand byte. -/
theorem microStep_operands (s : State) (w : Work) (h : w.pos = .operands) :
    microStep w s = .next (s.takeOperand w) := by
  simp only [microStep, h]

/-- At the status byte CORE offers it. -/
theorem microStep_status (s : State) (w : Work) (v : Byte) (h : w.pos = .status v) :
    microStep w s = .next (s.putStatus v) := by
  simp only [microStep, h]

/-- Anywhere else the micro-step is one of the command the latches hold. -/
theorem microStep_command {s : State} {w : Work} {i : Instr} {rest : List Byte} (h1 : w.pos ≠ .operands)
    (h2 : ∀ v, w.pos ≠ .status v) (hd : decode (w.opc :: w.latch) = .command i rest) :
    microStep w s = microCommand i w.pos s := by
  simp only [microStep, hd]

/-! ### Ports while no reset is applied -/

/-- Outside reset `cmd_ready` says whether CORE stands at a `CmdNext` (20_memory.md R48). -/
theorem State.cmdReady_of_rst {s : State} (h : s.rst = false) : s.cmdReady = s.atCmdNext := by
  simp [State.cmdReady, h]

/-- Outside reset the byte offered is that of the `RspPut` CORE stands at (20_memory.md R49). -/
theorem State.rspOffered_of_rst {s : State} (h : s.rst = false) : s.rspOffered = s.atRspPut := by
  simp [State.rspOffered, h]

/-- In `IDLE` CORE offers no byte, reset or not. -/
theorem State.rspOffered_of_idle {s : State} (h : s.seq = .idle) : s.rspOffered = none := by
  simp [State.rspOffered, State.atRspPut, h]

/-! ### Runs -/

@[simp] theorem State.runs_zero (s : State) : s.runs 0 = .next s := rfl

/-- One step, then the rest of the run. -/
theorem State.runs_succ (s : State) (n : Nat) : s.runs (n + 1) = Out.andThen (step s) fun t => t.runs n := by
  show core.run (n + 1) s = _
  simp only [Host.Core.run]
  cases h : step s with
  | next t => rw [show core.step s = _ from h]; rfl
  | fault r => rw [show core.step s = _ from h]; rfl
  | refused r => rw [show core.step s = _ from h]; rfl

/-- A run in two parts. -/
theorem State.runs_add {s t : State} {m : Nat} (n : Nat) (h : s.runs m = .next t) : s.runs (m + n) = t.runs n := by
  induction m generalizing s with
  | zero =>
    rw [State.runs_zero] at h
    have e : s = t := Host.Outcome.next.inj h
    rw [Nat.zero_add, e]
  | succ m ih =>
    rw [State.runs_succ] at h
    obtain ⟨u, hu, h⟩ := Out.andThen_eq_next.mp h
    have e : m + 1 + n = (m + n) + 1 := by omega
    rw [e, State.runs_succ, hu, Out.andThen_next]
    exact ih h

end Sys2Proof.Machine
end

