-- ==== Sys2Proof/Tests/Slice0.lean ====
section
/-! SUPPORT. Tests: words written out from spec/30_encoding.md, vectors of spec/95_test_vectors.md (each
theorem names its vector), and for every obligation with hypotheses a state and operands that meet them. -/

namespace Sys2Proof.Tests

open Sys2Proof Sys2Proof.Machine

/-! ### States -/

/-- The reset state with `DATA = 0`, so that tests can evaluate. -/
def bare : State := { State.reset with data := 0x00#8 }

/-- The same after INIT: `EN = 1`, `MSTR = 1`. -/
def ready : State := { bare with ctrl := 0x03#8 }

/-- Descriptor of slave 3 of 95_test_vectors.md part 2.4. -/
def slave3 : Slot := { port := 1#8, bit := 4#3, sel := 16#16, desel := 32#16 }

/-- The common start of 95_test_vectors.md part 2.4: slaves 3 and 5 registered, `VAL[1] = 0xFF`. -/
def chips : State :=
  { bare with
    slots := (bare.slots.set 3 (some slave3)).set 5 (some { port := 1#8, bit := 5#3, sel := 0#16, desel := 0#16 })
    lines := [(2, 0xFF#8)] }

/-- What is asked of the next state, if there is one. -/
def see {α : Type} (o : Out) (f : State → α) : Option α := (Out.state? o).map f

/-- Host commands offered, one step taken. -/
def offered (s : State) (bs : List Byte) : Out := step { s with cmdIn := bs }

/-! ### WellFormed: one ill-formed term for each check (R63, R66) -/

theorem test_wf_id : Instr.wellFormed 4 (.registerSlave 8#8 0#8 0#5 0#3 0#16 0#16) = false := by decide
theorem test_wf_port : Instr.wellFormed 4 (.registerSlave 0#8 4#8 0#5 0#3 0#16 0#16) = false := by decide
theorem test_wf_rsv : Instr.wellFormed 4 (.registerSlave 0#8 0#8 1#5 0#3 0#16 0#16) = false := by decide
theorem test_wf_select_id : Instr.wellFormed 4 (.select 8#8) = false := by decide
theorem test_wf_deselect_id : Instr.wellFormed 4 (.deselect 255#8) = false := by decide
theorem test_wf_legal : Instr.wellFormed 4 (.registerSlave 7#8 3#8 0#5 7#3 65535#16 65535#16) = true := by decide

/-! ### Decoding: packets written out from R61, R63, R64; vectors E1 to E9, E13, E14 -/

/-- E1 -/
theorem test_dec_init : decode [0x01#8] = .command .init [] := by decide
/-- E2 -/
theorem test_dec_register : decode [0x02#8, 0x03#8, 0x01#8, 0x04#8, 0x10#8, 0x00#8, 0x20#8, 0x00#8] =
    .command (.registerSlave 3#8 1#8 0#5 4#3 16#16 32#16) [] := by decide
/-- E3: the low byte of a delay comes first. -/
theorem test_dec_register_delays : decode [0x02#8, 0x07#8, 0x03#8, 0x07#8, 0xFF#8, 0xFF#8, 0x34#8, 0x12#8] =
    .command (.registerSlave 7#8 3#8 0#5 7#3 65535#16 4660#16) [] := by decide
/-- E14: byte 3 is `0b00001100`: `rsv = 1`, `bit = 4`. -/
theorem test_dec_register_rsv : decode [0x02#8, 0x03#8, 0x01#8, 0x0C#8, 0x10#8, 0x00#8, 0x20#8, 0x00#8] =
    .command (.registerSlave 3#8 1#8 1#5 4#3 16#16 32#16) [] := by decide
/-- E4 -/
theorem test_dec_select : decode [0x03#8, 0x00#8] = .command (.select 0#8) [] := by decide
/-- E5 -/
theorem test_dec_deselect : decode [0x04#8, 0x07#8] = .command (.deselect 7#8) [] := by decide
/-- E6 -/
theorem test_dec_write_byte : decode [0x05#8, 0x00#8] = .command (.writeByte 0#8) [] := by decide
/-- E7: the next byte is an opcode. -/
theorem test_dec_write_bytes_none : decode [0x06#8, 0x00#8, 0x07#8] = .command (.writeBytes 0#8) [0x07#8] := by decide
/-- E8: the payload is data, left in the stream for the command. -/
theorem test_dec_write_bytes : decode [0x06#8, 0x02#8, 0x01#8, 0x00#8, 0x07#8] =
    .command (.writeBytes 2#8) [0x01#8, 0x00#8, 0x07#8] := by decide
/-- R64: READ_BYTE is one byte, `0x07`. -/
theorem test_dec_read_byte : decode [0x07#8, 0x01#8] = .command .readByte [0x01#8] := by decide
/-- E9 -/
theorem test_dec_read_bytes : decode [0x08#8, 0xFF#8] = .command (.readBytes 255#8) [] := by decide
/-- E10 -/
theorem test_dec_illegal_zero : decode [0x00#8] = .illegal 0x00#8 [] := by decide
/-- E11 -/
theorem test_dec_illegal_nine : decode [0x09#8] = .illegal 0x09#8 [] := by decide
/-- E13 -/
theorem test_dec_more : decode [0x03#8] = .more := by decide
/-- E2 as a table word, byte 0 in bits 7 to 0. -/
theorem test_table_word : decodeTableWord 64 0x0020001004010302 =
    some (.registerSlave 3#8 1#8 0#5 4#3 16#16 32#16) := by decide

/-! ### Commands -/

/-- I2: the other bits of `DIR[0]` are kept. -/
theorem test_init : see (offered { bare with lines := [(1, 0xA1#8)] } [0x01#8]) (fun t => (t.lines, t.ctrl, t.hist)) =
    some ([(1, 0xA5#8)], 0x03#8, [.dir 0#8 2#3, .ctrl 0x03#8, .rsp 0x00#8]) := by decide
/-- I4: two own lines, in list order. -/
theorem test_init_two_lines :
    see (offered { bare with cfg := { nports := 4, ownLines := [⟨0#8, 2#3⟩, ⟨1#8, 0#3⟩] } } [0x01#8])
      (fun t => (t.lines, t.hist)) =
    some ([(1, 0x04#8), (3, 0x01#8)], [.dir 0#8 2#3, .dir 1#8 0#3, .ctrl 0x03#8, .rsp 0x00#8]) := by decide
/-- RS3 -/
theorem test_register :
    see (offered { bare with lines := [(2, 0xEF#8)] } [0x02#8, 0x03#8, 0x01#8, 0x04#8, 0x10#8, 0x00#8, 0x20#8, 0x00#8])
      (fun t => (t.lines, t.slot 3#8, t.hist)) =
    some ([(2, 0xFF#8)], some slave3, [.line 1#8 4#3 true, .rsp 0x00#8]) := by decide
/-- RS10: port and rsv illegal, the port check is first. -/
theorem test_register_fault :
    see (offered bare [0x02#8, 0x01#8, 0x09#8, 0xFF#8, 0x00#8, 0x00#8, 0x00#8, 0x00#8])
      (fun t => (t.fault, t.finfo, t.hist)) =
    some (0x04#8, 0x09#8, [.fault 0x04#8 0x09#8, .rsp 0x04#8]) := by decide
/-- CS1 -/
theorem test_select : see (offered chips [0x03#8, 0x03#8]) (fun t => (t.lines, t.hist)) =
    some ([(2, 0xEF#8)], [.line 1#8 4#3 false, .wait 16#16, .rsp 0x00#8]) := by decide
/-- CS9 -/
theorem test_select_fault : see (offered chips [0x03#8, 0x08#8]) (fun t => (t.fault, t.finfo, t.hist)) =
    some (0x02#8, 0x08#8, [.fault 0x02#8 0x08#8, .rsp 0x02#8]) := by decide
/-- CS2 -/
theorem test_deselect :
    see (offered { chips with lines := [(2, 0xEF#8)] } [0x04#8, 0x03#8]) (fun t => (t.lines, t.hist)) =
    some ([(2, 0xFF#8)], [.line 1#8 4#3 true, .wait 32#16, .rsp 0x00#8]) := by decide
/-- CS8 -/
theorem test_deselect_fault : see (offered chips [0x04#8, 0x07#8]) (fun t => (t.fault, t.finfo, t.hist)) =
    some (0x03#8, 0x07#8, [.fault 0x03#8 0x07#8, .rsp 0x03#8]) := by decide
/-- T1 with the bit-level vector of part 2.5: `miso` as `0,1,0,1,1,0,1,0`, `rx = 0x5A`. -/
theorem test_write_byte :
    see (offered { ready with miso := [false, true, false, true, true, false, true, false] } [0x05#8, 0xA5#8])
      (fun t => (t.data, t.tc, t.hist)) =
    some (0x5A#8, true, [.load 0xA5#8, .done 0x5A#8, .rsp 0x00#8]) := by decide
/-- P5: before INIT the command hangs, `STAT = 0x02`, `DATA = 0xA5`. -/
theorem test_write_byte_hangs : see (offered bare [0x05#8, 0xA5#8]) (fun t => (t.stat, t.data, t.fault, t.hist)) =
    some (0x02#8, 0xA5#8, 0x00#8, [.load 0xA5#8]) := by decide
/-- The second bit-level vector of part 2.5: `miso` as `1,1,0,0,0,0,1,1`, `rx = 0xC3`, then the status. -/
theorem test_read_byte :
    see (offered { ready with miso := [true, true, false, false, false, false, true, true] } [0x07#8])
      (fun t => (t.data, t.hist)) =
    some (0xC3#8, [.load 0x00#8, .done 0xC3#8, .rsp 0xC3#8, .rsp 0x00#8]) := by decide
/-- Part 2.5, the pass after the first of the bit-level vector: `DATA = 0x4A`, `BITCNT = 7`, `mosi` 0. -/
theorem test_shifter_pass :
    (fun t : State => (t.data, t.bitcnt, t.mosiPin)) (State.shiftBit { ready with data := 0xA5#8, bitcnt := 8#4, miso := [false] }) =
    (0x4A#8, 7#4, .driven false) := by decide
/-- The worked example of R117 with two payload bytes and an echo of 0xFF; the byte after the payload stays. -/
theorem test_write_bytes :
    see (offered { ready with miso := List.replicate 16 true } [0x06#8, 0x02#8, 0xDE#8, 0x05#8, 0x07#8])
      (fun t => (t.cmdIn, t.cnt, t.hist)) =
    some ([0x07#8], 0x00#8, [.load 0xDE#8, .done 0xFF#8, .load 0x05#8, .done 0xFF#8, .rsp 0x00#8]) := by decide
/-- T17: `n = 0` completes before INIT and leaves `DATA`. -/
theorem test_write_bytes_none : see (offered { bare with data := 0x77#8 } [0x06#8, 0x00#8]) (fun t => (t.data, t.seq, t.hist)) =
    some (0x77#8, .idle, [.rsp 0x00#8]) := by decide
/-- S8 with two bytes: a slave that answers 0xFF. -/
theorem test_read_bytes : see (offered { ready with miso := List.replicate 16 true } [0x08#8, 0x02#8]) (fun t => responses t.hist) =
    some [0xFF#8, 0xFF#8, 0x00#8] := by decide
/-- T20: the host does not take the first data byte, so the second exchange has not started. -/
theorem test_read_bytes_held :
    see (offered { ready with miso := List.replicate 16 true, rspReady := .upTo 0 } [0x08#8, 0x02#8])
      (fun t => (t.stat, t.rspOffered, t.cnt, t.hist)) =
    some (0x03#8, some 0xFF#8, 0x02#8, [.load 0x00#8, .done 0xFF#8]) := by decide
/-- F2: the byte after the illegal opcode is never taken. -/
theorem test_illegal : see (offered bare [0x0A#8, 0x01#8]) (fun t => (t.stat, t.finfo, t.cmdIn, t.hist)) =
    some (0x04#8, 0x0A#8, [0x01#8], [.fault 0x01#8 0x0A#8, .rsp 0x01#8]) := by decide
/-- E13: SELECT waiting for its id. -/
theorem test_short_packet : see (offered bare [0x03#8]) (fun t => (t.stat, t.cmdReady, t.hist)) =
    some (0x02#8, true, []) := by decide
/-- Z1: the line registers survive a reset, the slots do not. -/
theorem test_reset : see (step { chips with ctrl := 0x03#8, fault := 0x02#8, host := [.reset] })
      (fun t => (t.slot 3#8, t.lines, t.fault, t.stat)) =
    some (none, [(2, 0xFF#8)], 0x00#8, 0x00#8) := by decide
/-- P1: `PlatWrite(3, 0x10)`. -/
theorem test_plat_write : see (step { bare with host := [.platWrite 3#9 0x10#8] }) (fun t => (t.lines, t.hist)) =
    some ([(3, 0x10#8)], [.plat 3#9 0x10#8]) := by decide
/-- R8 with R27: a slave whose line is no output is neither `Selected` nor `Deselected`; driven high, it is
`Deselected`; an empty slot is neither. -/
theorem test_deselected : (chips.selected 3#8, chips.deselected 3#8) = (false, false) ∧
    (fun t : State => (t.selected 3#8, t.deselected 3#8, t.deselected 0#8)) { chips with lines := [(2, 0xFF#8), (3, 0x10#8)] } =
      (false, true, false) := by decide
/-- R168: with a byte still to be offered the run has not ended; with none it has. -/
theorem test_ended_well : ¬ State.endedWell { bare with host := [.offer 0x01#8] } ∧ bare.endedWell := by
  constructor
  · simp [State.endedWell, State.streamLeft, HostMove.offeredByte]
  · exact ⟨rfl, rfl, rfl, rfl⟩
/-- R100: the fine grain loads `DCNT` with `sel` as the line falls. -/
theorem test_delay_loaded :
    see (step { chips with grain := .fine, seq := .busy ⟨0x03#8, [0x03#8], .body⟩ }) (fun t => (t.dcnt, t.seq, t.hist)) =
      some (16#16, .busy ⟨0x03#8, [0x03#8], .delay 16#16⟩, [.line 1#8 4#3 false]) := by decide
/-- Part 2.1: `us(1.03)` is 17 DQ, `us(4095.9375)` 65535, `us(4096)` refused. -/
theorem test_delay_literal : (DelayLit.us 103 100).value = some 17#16 ∧ (DelayLit.us 65535 16).value = some 65535#16 ∧
    (DelayLit.us 4096 1).value = none := by decide
/-- Part 2.1: `read_bytes 256` is `08 FF 08 01`. -/
theorem test_read_split : assemble (.readBytes 256) = some [0x08#8, 0xFF#8, 0x08#8, 0x01#8] := by decide
/-- R70: the assembly line of P1. -/
theorem test_assemble_register : assemble (.registerSlave 3#8 1#8 4#3 (.us 1 1) (.us 2 1)) =
    some [0x02#8, 0x03#8, 0x01#8, 0x04#8, 0x10#8, 0x00#8, 0x20#8, 0x00#8] := by decide
/-- R70: the text of a line of P1, with its comment. -/
theorem test_text_register :
    assembleLine "        register_slave 3, 1, 4, us(1.0), us(2.0)  ; 02 03 01 04 10 00 20 00".toList =
    some [0x02#8, 0x03#8, 0x01#8, 0x04#8, 0x10#8, 0x00#8, 0x20#8, 0x00#8] := by decide
/-- P2 and P4: bulk lines, an upper-case mnemonic, raw bytes, a blank line; a bit position of 8 has no encoding. -/
theorem test_text_program :
    assembleText "write_bytes 0x12, 0x34\n\nSELECT 0\nwrite_bytes\n.bytes 02 01 00 0B ; rsv 1".toList =
      some [0x06#8, 0x02#8, 0x12#8, 0x34#8, 0x03#8, 0x00#8, 0x06#8, 0x00#8, 0x02#8, 0x01#8, 0x00#8, 0x0B#8] ∧
    assembleLine "register_slave 0, 1, 8, 0, 0".toList = none := by decide
/-- The word of REGISTER_SLAVE, placed where the next step fetches, runs as the first after reset. -/
theorem test_with_fetch_word : step (State.reset.withFetchWord 64 0x0020001004010302) =
    exec (.registerSlave 3#8 1#8 0#5 4#3 16#16 32#16)
      { State.reset.withFetchWord 64 0x0020001004010302 with cmdIn := [] } := by rfl

/-! ### Witnesses: for every obligation with hypotheses, a state and operands that meet them -/

theorem witness_EncodeOfDecode : decode [0x06#8, 0x00#8, 0x07#8] = .command (.writeBytes 0#8) [0x07#8] := by decide
/-- Both ends of the illegal range, and the value below it. -/
theorem witness_IllegalOpcodeHalts :
    (bare.seq = .idle ∧ bare.host = [] ∧ bare.takes 1) ∧
    ((0x00#8 : Byte) = 0x00#8 ∨ 9 ≤ (0x00#8 : Byte).toNat) ∧ ((0x09#8 : Byte) = 0x00#8 ∨ 9 ≤ (0x09#8 : Byte).toNat) ∧
    ((0xFF#8 : Byte) = 0x00#8 ∨ 9 ≤ (0xFF#8 : Byte).toNat) :=
  ⟨⟨rfl, rfl, trivial⟩, by decide, by decide, by decide⟩
theorem witness_StepRunsDecoded :
    let s : State := { bare with cmdIn := [0x03#8, 0x08#8], host := [.run, .reset] }
    (s.host = [] ∨ ∃ hs, s.host = .run :: hs) ∧ s.grain = .command ∧ s.seq = .idle ∧
      decode s.cmdIn = .command (.select 8#8) [] :=
  ⟨.inr ⟨_, rfl⟩, rfl, rfl, by decide⟩
theorem witness_StepRunsDecoded_no_script :
    let s : State := { bare with cmdIn := [0x07#8] }
    (s.host = [] ∨ ∃ hs, s.host = .run :: hs) ∧ s.grain = .command ∧ s.seq = .idle ∧
      decode s.cmdIn = .command .readByte [] :=
  ⟨.inl rfl, rfl, rfl, by decide⟩

/-- The invariant holds of a state after INIT, with a line register written and the fine grain. -/
theorem inv_example (bs : List Byte) (hs : List HostMove) :
    State.Inv { ready with grain := .fine, lines := [(7, 0x80#8)], cmdIn := bs, host := hs } where
  config := (⟨by decide, by decide, by decide, by decide⟩ : configOk Config.default)
  lines := (⟨by decide, by decide⟩ : Memory.wf [(7, 0x80#8)] = true ∧
    ∀ c ∈ ([(7, 0x80#8)] : Memory), c.1 < 2 * Config.default.nports)
  slots := by
    intro id d h
    simp only [State.slot] at h
    split at h
    · simp [ready, bare, State.reset] at h
    · simp at h
  ctrl := .inr rfl
  fault := ⟨Nat.zero_le _, fun _ => rfl⟩
  seq := ⟨rfl, rfl, rfl, rfl⟩

theorem witness_MicroStepsReachExec :
    let s : State := { ready with grain := .fine, lines := [(7, 0x80#8)], cmdIn := [0x07#8], host := [] }
    s.Inv ∧ s.host = [] ∧ s.grain = .fine ∧ s.seq = .idle ∧ decode s.cmdIn = .command .readByte [] ∧
      ∃ t, exec .readByte { s with cmdIn := [] } = .next t :=
  ⟨inv_example _ _, rfl, rfl, rfl, by decide, _, rfl⟩
theorem witness_CommandBytesInOrder :
    (∃ t, step { bare with cmdIn := [0x01#8, 0x07#8] } = .next t) ∧ ¬ bare.resetNext :=
  ⟨⟨_, rfl⟩, fun ⟨_, h⟩ => nomatch h⟩
/-- The clause on host moves: each of the three moves but `run` and `reset`, enabled while CORE stands at a
`CmdNext` with a byte offered; the step leaves that byte where it is. -/
theorem witness_CommandBytesInOrder_host_moves : ∀ m ∈ [HostMove.offer 0x07#8, .ready (.upTo 1), .platWrite 3#9 0x10#8],
    (fun s : State => s.host.head? = some m ∧ m.enabled s = true ∧ m ≠ .run ∧ m ≠ .reset ∧ s.atCmdNext = true ∧
      see (step s) (fun t => t.cmdIn) = some (0x01#8 :: s.offeredNext)) { bare with cmdIn := [0x01#8], host := [m] } := by
  decide
/-- The clause on `CmdNext`: CORE at a status byte the host does not take, with a byte offered. -/
theorem witness_CommandBytesInOrder_no_cmdNext :
    (fun s : State => s.atCmdNext = false ∧ s.host = [] ∧ see (step s) (fun t => t.cmdIn) = some [0x01#8])
      { bare with seq := .busy ⟨0x01#8, [], .status 0x00#8⟩, cmdIn := [0x01#8], rspReady := .upTo 0 } := by decide
/-- The clause on the number of bytes, at its bounds: a whole packet of WRITE_BYTES with its payload, one
opcode byte under the fine grain, one payload byte. -/
theorem witness_CommandBytesInOrder_bounds :
    (fun s : State => s.seq = .idle ∧ s.running.map Instr.packetLength = some 3 ∧
      see (step s) (fun t => t.cmdIn) = some [0x07#8]) { ready with cmdIn := [0x06#8, 0x01#8, 0xA5#8, 0x07#8] } ∧
    (fun s : State => s.seq = .idle ∧ s.running = none ∧ see (step s) (fun t => t.cmdIn) = some [0x01#8])
      { ready with grain := .fine, cmdIn := [0x06#8, 0x01#8] } ∧
    (fun s : State => s.seq ≠ .idle ∧ see (step s) (fun t => t.cmdIn) = some [0x07#8])
      { ready with seq := .busy ⟨0x06#8, [0x01#8], .payload⟩, cnt := 0x01#8, cmdIn := [0xA5#8, 0x07#8] } := by decide
theorem witness_InitCompletes : configOk bare.cfg ∧ Memory.wf bare.lines = true ∧ bare.takes 1 :=
  ⟨⟨by decide, by decide, by decide, by decide⟩, by decide, trivial⟩
theorem witness_InitFrame : ∃ t, exec .init bare = .next t := ⟨_, rfl⟩
theorem witness_InitIdempotent : Memory.wf bare.lines = true ∧ bare.takes 2 ∧
    ∃ t u, exec .init bare = .next t ∧ exec .init t = .next u :=
  ⟨by decide, trivial, _, _, rfl, rfl⟩
/-- Both ends of the ranges of `id` and `port`. -/
theorem witness_RegisterSlaveCompletes :
    (idLegal 0#8 = true ∧ portLegal bare.cfg.nports 0#8 = true) ∧
    (idLegal 7#8 = true ∧ portLegal bare.cfg.nports 3#8 = true) ∧ Memory.wf bare.lines = true ∧ bare.takes 1 :=
  ⟨by decide, by decide, by decide, trivial⟩
/-- The least illegal value of each operand. -/
theorem witness_RegisterSlaveFaults :
    Instr.wellFormed bare.cfg.nports (.registerSlave 8#8 0#8 0#5 0#3 0#16 0#16) = false ∧
    Instr.wellFormed bare.cfg.nports (.registerSlave 7#8 4#8 0#5 0#3 0#16 0#16) = false ∧
    Instr.wellFormed bare.cfg.nports (.registerSlave 7#8 3#8 1#5 0#3 0#16 0#16) = false ∧ bare.takes 1 :=
  ⟨by decide, by decide, by decide, trivial⟩
/-- With legal operands, and with an illegal one whose status byte the host does not take. -/
theorem witness_RegisterSlaveFrame :
    (∃ t, exec (.registerSlave 8#8 3#8 0#5 7#3 1#16 2#16) { bare with rspReady := .upTo 0 } = .next t) ∧
    Instr.wellFormed bare.cfg.nports (.registerSlave 8#8 3#8 0#5 7#3 1#16 2#16) = false ∧
    (∃ t, exec (.registerSlave 7#8 3#8 0#5 7#3 1#16 2#16) bare = .next t) ∧ Memory.wf bare.lines = true ∧
    Instr.wellFormed bare.cfg.nports (.registerSlave 7#8 3#8 0#5 7#3 1#16 2#16) = true :=
  ⟨⟨_, rfl⟩, by decide, ⟨_, rfl⟩, by decide, by decide⟩
theorem witness_SelectCompletes : chips.slot 3#8 = some slave3 ∧ portLegal chips.cfg.nports slave3.port = true ∧
    Memory.wf chips.lines = true ∧ chips.takes 1 := ⟨by decide, by decide, by decide, trivial⟩
theorem witness_DeselectCompletes : chips.slot 3#8 = some slave3 ∧ portLegal chips.cfg.nports slave3.port = true ∧
    Memory.wf chips.lines = true ∧ chips.takes 1 := witness_SelectCompletes
/-- An identifier that names no slot, and one whose slot was never written, at the boundary. -/
theorem witness_ChipSelectFaults : chips.slot 8#8 = none ∧ chips.slot 7#8 = none ∧ chips.takes 1 :=
  ⟨by decide, by decide, trivial⟩
theorem witness_ChipSelectFrame : (∃ t, exec (.select 3#8) chips = .next t) ∧ (∃ t, exec (.deselect 0#8) chips = .next t) ∧
    Memory.wf chips.lines = true ∧ chips.slot 3#8 ≠ none ∧ chips.slot 0#8 = none :=
  ⟨⟨_, rfl⟩, ⟨_, rfl⟩, by decide, by decide, by decide⟩
theorem witness_SelectDeselectRoundTrip : chips.slot 3#8 = some slave3 ∧
    portLegal chips.cfg.nports slave3.port = true ∧ Memory.wf chips.lines = true ∧ chips.takes 2 ∧
    chips.valBit ⟨slave3.port, slave3.bit⟩ = true := ⟨by decide, by decide, by decide, trivial, by decide⟩
theorem witness_LineIndependence : chips.slot 3#8 = some slave3 ∧ chips.slot 5#8 = some ⟨1#8, 5#3, 0#16, 0#16⟩ ∧
    (⟨1#8, 4#3⟩ : Line) ≠ ⟨1#8, 5#3⟩ ∧ Memory.wf chips.lines = true ∧ ∃ t, exec (.select 3#8) chips = .next t :=
  ⟨by decide, by decide, by decide, by decide, _, rfl⟩
theorem witness_SelectSelects :
    let s : State := { chips with lines := [(2, 0xFF#8), (3, 0x10#8)] }
    s.slot 3#8 = some slave3 ∧ portLegal s.cfg.nports slave3.port = true ∧ Memory.wf s.lines = true ∧ s.takes 1 ∧
      s.dirBit ⟨slave3.port, slave3.bit⟩ = true := ⟨by decide, by decide, by decide, trivial, by decide⟩
theorem witness_ChipSelectIgnoresControl : isTransfer (.select 3#8) = false ∧ (Instr.select 3#8) ≠ .init ∧
    ∃ t, exec (.select 3#8) chips = .next t := ⟨by decide, by decide, _, rfl⟩
theorem witness_ExchangeCaptures :
    let s : State := { ready with miso := [true, false, true, false, true, false, true, false, true] }
    s.enabled = true ∧ [true, false, true, false, true, false, true, false].length = 8 ∧
      s.miso = [true, false, true, false, true, false, true, false] ++ [true] := by decide
/-- The first and the last pass. -/
theorem witness_MosiMostSignificantFirst : ready.enabled = true ∧ ready.sck = .low ∧ 0 < 8 ∧ 7 < 8 := by decide
theorem witness_WriteByteCompletes : ready.enabled = true ∧ ready.takes 1 := ⟨by decide, trivial⟩
theorem witness_ReadByteCompletes : ready.enabled = true ∧ ready.takes 2 := ⟨by decide, trivial⟩
/-- The longest payload and the shortest. -/
theorem witness_WriteBytesCompletes :
    let s : State := { ready with cmdIn := List.replicate 255 0x06#8 ++ [0x07#8] }
    s.enabled = true ∧ (List.replicate 255 0x06#8).length = (255#8 : Byte).toNat ∧
      s.cmdIn = List.replicate 255 0x06#8 ++ [0x07#8] ∧ s.takes 1 ∧
      ([] : List Byte).length = (0#8 : Byte).toNat :=
  ⟨by decide, List.length_replicate, rfl, trivial, by decide⟩
theorem witness_ReadBytesCompletes : ready.enabled = true ∧ ready.takes ((255#8 : Byte).toNat + 1) := ⟨by decide, trivial⟩
theorem witness_WriteBytesIsWriteByteRepeated :
    let s : State := { ready with cmdIn := [0xDE#8, 0xAD#8, 0x07#8] }
    s.enabled = true ∧ s.rspReady = .always ∧ s.cnt = 0x00#8 ∧ s.seq = .idle ∧
      [0xDE#8, 0xAD#8].length = (2#8 : Byte).toNat ∧ s.cmdIn = [0xDE#8, 0xAD#8] ++ [0x07#8] := by decide
theorem witness_ReadBytesIsReadByteRepeated : ready.enabled = true ∧ ready.rspReady = .always ∧ ready.cnt = 0x00#8 ∧
    ready.seq = .idle := by decide
theorem witness_ZeroCountDoesNothing : bare.takes 1 ∧ ready.takes 1 := ⟨trivial, trivial⟩
/-- One witness for each of the four commands, the bulk ones at `n = 1` and `n = 255`. -/
theorem witness_TransferHangsWhenDisabled :
    let s : State := { bare with cmdIn := [0x11#8, 0x22#8] }
    s.enabled = false ∧ s.bitcnt = 0#4 ∧ (1#8 : Byte) ≠ 0#8 ∧ (255#8 : Byte) ≠ 0#8 ∧ s.cmdIn = 0x11#8 :: [0x22#8] := by decide
theorem witness_HangEndsOnlyByReset :
    State.hung { bare with seq := .halted } ∧
    State.hung { bare with seq := .busy ⟨0x05#8, [0xA5#8], .shifting⟩, host := [.offer 0x04#8] } ∧
    ¬ State.resetNext { bare with host := [.offer 0x04#8] } :=
  ⟨.inr rfl, .inl ⟨_, _, rfl, rfl, rfl⟩, fun ⟨_, h⟩ => nomatch h⟩
theorem witness_TransferFrame : isTransfer (.readBytes 2#8) = true ∧ isTransfer (.writeByte 0#8) = true ∧
    (∃ t, exec (.readBytes 2#8) ready = .next t) ∧ ∃ t, exec (.writeByte 0#8) ready = .next t :=
  ⟨by decide, by decide, ⟨_, rfl⟩, ⟨_, rfl⟩⟩
theorem witness_WriteBytesWaitsForPayload : (1#8 : Byte) ≠ 0#8 ∧ (255#8 : Byte) ≠ 0#8 ∧ ready.cmdIn = [] ∧
    ready.rst = false := by decide
theorem witness_OfferedByteHeld :
    let s : State := { ready with seq := .busy ⟨0x07#8, [], .data 0x5A#8⟩, rspReady := .upTo 0 }
    s.rspOffered = some 0x5A#8 ∧ s.rspReady = .upTo 0 ∧ s.host = [] := by decide
theorem witness_MissingByteWaits :
    let s : State := { ready with seq := .busy ⟨0x06#8, [0x01#8], .payload⟩, cnt := 0x01#8 }
    s.cmdReady = true ∧ s.cmdIn = [] ∧ s.host = [] := by decide
theorem witness_ReadByteOffersData :
    let s : State := { ready with rspReady := .upTo 0 }
    s.enabled = true ∧ s.rspReady = .upTo 0 ∧ s.rst = false := by decide
/-- A wait of 16 DQ with all of it, and with nothing of it, left. -/
theorem witness_WaitCountsDown :
    let s : State := { bare with seq := .busy ⟨0x03#8, [0x03#8], .delay 16#16⟩, dcnt := 16#16 }
    s.seq = .busy ⟨0x03#8, [0x03#8], .delay 16#16⟩ ∧ s.host = [] ∧
      decode [0x03#8, 0x03#8] = .command (.select 3#8) [] ∧ 0 ≤ s.dcnt.toNat ∧ 16 ≤ s.dcnt.toNat := by decide
/-- SELECT with its delay of 16 DQ, and DESELECT of a slave whose delays are 0. -/
theorem witness_ChipSelectWaitsItsDelay :
    (let s : State := { chips with seq := .busy ⟨0x03#8, [0x03#8], .body⟩ }
     s.host = [] ∧ decode [0x03#8, 0x03#8] = .command (.select 3#8) [] ∧ s.slot 3#8 = some slave3 ∧
       portLegal s.cfg.nports slave3.port = true ∧ 0 ≤ slave3.sel.toNat ∧ 16 ≤ slave3.sel.toNat) ∧
    (let s : State := { chips with seq := .busy ⟨0x04#8, [0x05#8], .body⟩ }
     s.host = [] ∧ decode [0x04#8, 0x05#8] = .command (.deselect 5#8) [] ∧
       s.slot 5#8 = some ⟨1#8, 5#3, 0#16, 0#16⟩ ∧ portLegal s.cfg.nports 1#8 = true ∧ 0 ≤ (0#16 : Delay).toNat) := by
  decide
theorem witness_RaiseEffect : bare.takes 1 ∧ State.takes { bare with fault := 0x03#8, rspReady := .upTo 1 } 1 := by
  constructor
  · trivial
  · simp [State.takes]
theorem no_reset_without_script {s : State} (h : s.host = []) : ¬ s.resetNext :=
  fun ⟨_, h'⟩ => List.cons_ne_nil _ _ (h'.symm.trans h)
theorem witness_FaultSticky :
    let s : State := { bare with fault := 0x03#8, finfo := 0x05#8, cmdIn := [0x03#8, 0x09#8] }
    s.fault ≠ 0x00#8 ∧ ¬ s.resetNext ∧ ∃ t, step s = .next t :=
  ⟨by decide, no_reset_without_script rfl, _, rfl⟩
/-- A command that completes and one that faults. -/
theorem witness_OneStatusByte : (∃ t, exec .readByte ready = .next t ∧ t.seq = .idle) ∧
    ∃ t, exec (.select 9#8) bare = .next t ∧ t.seq = .idle := ⟨⟨_, rfl, rfl⟩, _, rfl, rfl⟩
theorem witness_StepKeepsInvariant :
    State.Inv { ready with grain := .fine, lines := [(7, 0x80#8)], cmdIn := [0x05#8, 0x01#8], host := [] } ∧
    ∃ t, step { ready with grain := .fine, lines := [(7, 0x80#8)], cmdIn := [0x05#8, 0x01#8], host := [] } = .next t :=
  ⟨inv_example _ _, _, rfl⟩
/-- The highest line register there is. -/
theorem witness_StepNeverStops :
    State.Inv { ready with grain := .fine, lines := [(7, 0x80#8)], cmdIn := [], host := [.platWrite 7#9 0x00#8] } ∧
    State.hostLegal { ready with host := [.platWrite 7#9 0x00#8] } := by
  refine ⟨inv_example _ _, ?_⟩
  intro m hm
  simp only [List.mem_singleton] at hm
  subst hm
  simp [HostMove.legal, ready, bare, State.reset, Config.default]
theorem witness_StepKeepsMemoryCanonical : Memory.wf chips.lines = true ∧
    ∃ t, step { chips with cmdIn := [0x03#8, 0x03#8] } = .next t := ⟨by decide, _, rfl⟩
theorem witness_StepKeepsConfig : ∃ t, step { chips with host := [.reset] } = .next t := ⟨_, rfl⟩
theorem witness_HistoryAppendOnly : (∃ t, step { chips with cmdIn := [0x03#8, 0x03#8] } = .next t) ∧ ¬ chips.resetNext :=
  ⟨⟨_, rfl⟩, fun ⟨_, h⟩ => nomatch h⟩
/-- A level that falls by SELECT, and one that falls by `PlatWrite`. -/
theorem witness_LineFallsOnlyBySelect :
    (Memory.wf chips.lines = true ∧ chips.valBit ⟨1#8, 4#3⟩ = true ∧
      ∃ t, step { chips with cmdIn := [0x03#8, 0x03#8] } = .next t ∧ t.valBit ⟨1#8, 4#3⟩ = false) ∧
    ∃ t, step { chips with host := [.platWrite 2#9 0x00#8] } = .next t ∧ t.valBit ⟨1#8, 4#3⟩ = false :=
  ⟨⟨by decide, by decide, _, rfl, by decide⟩, _, rfl, by decide⟩
theorem witness_ControlOnlyByInit : (∃ t, exec .init bare = .next t) ∧ ∃ t, exec (.select 0#8) bare = .next t :=
  ⟨⟨_, rfl⟩, _, rfl⟩
theorem witness_DirectionOnlyByInit : Memory.wf bare.lines = true ∧ (∃ t, exec .init bare = .next t) ∧
    ∃ t, exec (.select 0#8) bare = .next t := ⟨by decide, ⟨_, rfl⟩, _, rfl⟩
/-- A step that keeps `CTRL`, from a state that meets the invariant. -/
theorem witness_ControlOnlyByInit_step :
    State.Inv { ready with grain := .fine, lines := [(7, 0x80#8)], cmdIn := [0x01#8], host := [] } ∧
    ∃ t, step { ready with grain := .fine, lines := [(7, 0x80#8)], cmdIn := [0x01#8], host := [] } = .next t :=
  ⟨inv_example _ _, _, rfl⟩
/-- A `PlatWrite` of `DIR[1]` that changes the direction of line (1, 4). -/
theorem witness_DirectionOnlyByInit_step :
    State.Inv { ready with grain := .fine, lines := [(7, 0x80#8)], cmdIn := [], host := [.platWrite 3#9 0x10#8] } ∧
    ∃ t, step { ready with grain := .fine, lines := [(7, 0x80#8)], cmdIn := [], host := [.platWrite 3#9 0x10#8] } = .next t ∧
      t.dirBit ⟨1#8, 4#3⟩ ≠
        State.dirBit { ready with grain := .fine, lines := [(7, 0x80#8)], cmdIn := [], host := [.platWrite 3#9 0x10#8] } ⟨1#8, 4#3⟩ :=
  ⟨inv_example _ _, _, rfl, by decide⟩
/-- An end after which the host still writes a line register. -/
theorem witness_EndedWellIsTheEnd :
    State.endedWell { bare with host := [.platWrite 3#9 0x10#8] } ∧
    (∃ t, step { bare with host := [.platWrite 3#9 0x10#8] } = .next t) ∧
    ¬ State.resetNext { bare with host := [.platWrite 3#9 0x10#8] } :=
  ⟨⟨rfl, rfl, rfl, rfl⟩, ⟨_, rfl⟩, fun ⟨_, h⟩ => nomatch h⟩
theorem witness_ResetFromAnyState :
    State.host { bare with seq := .busy ⟨0x05#8, [0xA5#8], .shifting⟩, host := [.reset, .run] } = .reset :: [.run] := rfl
/-- The lowest and the highest line register, idle and busy. -/
theorem witness_PlatWriteOnlyWhileIdle :
    (0#9 : BitVec 9).toNat < 2 * bare.cfg.nports ∧ (7#9 : BitVec 9).toNat < 2 * bare.cfg.nports ∧
    Memory.wf bare.lines = true ∧ bare.seq = .idle ∧
    State.seq { bare with seq := .busy ⟨0x03#8, [], .operands⟩ } ≠ .idle := by decide
/-- A value at both ends of the range, and one above it. -/
theorem witness_DelayLiteralRoundsUp : (16 ≠ 0) ∧ (DelayLit.us 0 16).value = some 0#16 ∧
    (DelayLit.us 65535 16).value = some 65535#16 ∧ (DelayLit.us 65536 16).value = none := by decide
theorem witness_LongBulkSplits : 255 < 256 ∧ 255 < (List.replicate 256 0x00#8).length ∧
    (List.replicate 255 0x00#8).length = (255#8 : Byte).toNat := by
  simp only [List.length_replicate]
  decide

end Sys2Proof.Tests
end

section
/-! SUPPORT. What CORE keeps whatever it does: one relation between two states, one rule per operation of
CORE, and so for every command, every micro-step and every turn of CORE. -/

namespace Sys2Proof.Machine

/-- From `s` to `t` CORE kept the platform's parameters, the grain and the host's script, and only added
to the history (spec/00_scope.md R4; spec/10_state.md R28, R30). -/
structure CoreKeeps (s t : State) : Prop where
  cfg : t.cfg = s.cfg
  grain : t.grain = s.grain
  host : t.host = s.host
  hist : s.hist <+: t.hist

namespace CoreKeeps

/-! ### The relation -/

theorem refl (s : State) : CoreKeeps s s := ⟨rfl, rfl, rfl, List.prefix_rfl⟩

theorem trans {s t u : State} (h : CoreKeeps s t) (k : CoreKeeps t u) : CoreKeeps s u :=
  ⟨k.cfg.trans h.cfg, k.grain.trans h.grain, k.host.trans h.host, h.hist.trans k.hist⟩

/-- An update that touches none of the four fields. -/
theorem of_eq {s t : State} (hc : t.cfg = s.cfg) (hg : t.grain = s.grain) (hh : t.host = s.host)
    (he : t.hist = s.hist) : CoreKeeps s t :=
  ⟨hc, hg, hh, he ▸ List.prefix_rfl⟩

/-- An update that adds `added` to the history and touches none of the other three fields. -/
theorem of_append {s t : State} (added : List Event) (hc : t.cfg = s.cfg) (hg : t.grain = s.grain)
    (hh : t.host = s.host) (he : t.hist = s.hist ++ added) : CoreKeeps s t :=
  ⟨hc, hg, hh, added, he.symm⟩

/-! ### Operations on the state -/

section
variable {s t u : State}

theorem emit (h : CoreKeeps s t) (e : Event) : CoreKeeps s (t.emit e) :=
  h.trans (of_append [e] rfl rfl rfl rfl)

theorem moveTo (h : CoreKeeps s t) (p : Pos) : CoreKeeps s (t.moveTo p) :=
  h.trans (of_eq rfl rfl rfl rfl)

theorem begin (h : CoreKeeps s t) (i : Instr) : CoreKeeps s (t.begin i) :=
  h.trans (of_eq rfl rfl rfl rfl)

theorem latchPacket (h : CoreKeeps s t) (opc : Byte) (latch : List Byte) (p : Pos) :
    CoreKeeps s (t.latchPacket opc latch p) :=
  h.trans (of_eq rfl rfl rfl rfl)

theorem writeCtrl (h : CoreKeeps s t) (v : Byte) : CoreKeeps s (t.writeCtrl v) :=
  h.trans (of_append [.ctrl v] rfl rfl rfl rfl)

theorem writeSlot (h : CoreKeeps s t) (id : Byte) (d : Slot) : CoreKeeps s (t.writeSlot id d) := by
  obtain ⟨x, e⟩ := State.writeSlot_frame t id d
  rw [e]
  exact h.trans (of_eq rfl rfl rfl rfl)

theorem wait (h : CoreKeeps s t) (d : Delay) : CoreKeeps s (t.wait d) :=
  h.trans (of_append [.wait d] rfl rfl rfl rfl)

theorem loadData (h : CoreKeeps s t) (tx : Byte) : CoreKeeps s (t.loadData tx) :=
  h.trans (of_append [.load tx] rfl rfl rfl rfl)

theorem readData (h : CoreKeeps s t) : CoreKeeps s t.readData :=
  h.trans (of_append [.done t.data] rfl rfl rfl rfl)

theorem countByte (h : CoreKeeps s t) : CoreKeeps s t.countByte :=
  h.trans (of_eq rfl rfl rfl rfl)

/-- The read-modify-write behind `LineSet`, `LineClear` and `DirSet`. -/
theorem rmw {addr : Nat} {set clear : Byte} {e : Event} (h : CoreKeeps s t)
    (hu : t.rmw addr set clear e = .next u) : CoreKeeps s u := by
  obtain ⟨-, rfl⟩ := State.rmw_cases hu
  exact h.trans (of_append [e] rfl rfl rfl rfl)

/-- A single-bit line write and what the command does after it. -/
theorem rmw_andThen {addr : Nat} {set clear : Byte} {e : Event} {f : State → State} (h : CoreKeeps s t)
    (hu : (t.rmw addr set clear e).andThen (fun v => .next (f v)) = .next u) (hf : ∀ v, CoreKeeps v (f v)) :
    CoreKeeps s u := by
  obtain ⟨v, hv, ht⟩ := Out.andThen_eq_next.mp hu
  cases ht
  exact (h.rmw hv).trans (hf v)

theorem dirSetAll {ls : List Line} (h : CoreKeeps s t) (hu : State.dirSetAll ls t = .next u) : CoreKeeps s u := by
  rw [State.dirSetAll_cases hu]
  exact h.trans (of_append _ rfl rfl rfl rfl)

theorem cmdNext {b : Byte} (h : CoreKeeps s t) (hu : t.cmdNext = some (b, u)) : CoreKeeps s u := by
  unfold State.cmdNext at hu
  split at hu
  next => cases hu
  next =>
    cases hu
    exact h.trans (of_eq rfl rfl rfl rfl)

theorem takeRsp {v : Byte} (h : CoreKeeps s t) (hu : t.takeRsp v = some u) : CoreKeeps s u := by
  obtain ⟨-, rfl⟩ := State.takeRsp_cases hu
  exact h.trans (of_append [.rsp v] rfl rfl rfl rfl)

theorem putStatus (h : CoreKeeps s t) (v : Byte) : CoreKeeps s (t.putStatus v) := by
  obtain ⟨q, r, added, e⟩ := State.putStatus_frame t v
  rw [e]
  exact h.trans (of_append added rfl rfl rfl rfl)

theorem raise (h : CoreKeeps s t) (f : CoreFault) (info : Byte) : CoreKeeps s (t.raise f info) := by
  obtain ⟨a, b, q, r, added, e⟩ := State.raise_frame t f info
  rw [e]
  exact h.trans (of_append added rfl rfl rfl rfl)

theorem recordFault (h : CoreKeeps s t) (f : CoreFault) (info : Byte) : CoreKeeps s (t.recordFault f info) := by
  unfold State.recordFault
  split
  · exact h.trans (of_eq rfl rfl rfl rfl)
  · exact h

theorem microRaise (h : CoreKeeps s t) (f : CoreFault) (info : Byte) : CoreKeeps s (t.microRaise f info) :=
  ((h.recordFault f info).emit _).moveTo _

theorem sckRise (h : CoreKeeps s t) : CoreKeeps s t.sckRise := by
  unfold State.sckRise State.sampleMiso
  split <;> exact h.trans (of_eq rfl rfl rfl rfl)

theorem sckFall (h : CoreKeeps s t) : CoreKeeps s t.sckFall := by
  unfold State.sckFall
  split
  · exact h
  · exact h.trans (of_eq rfl rfl rfl rfl)

/-- An exchange that completes. -/
theorem exchange_done {tx rx : Byte} (h : CoreKeeps s t) (hu : t.exchange tx = .done rx u) : CoreKeeps s u := by
  rcases State.exchange_cases t tx with ⟨rx', m, r, -, e⟩ | ⟨-, e⟩
  · cases e.symm.trans hu
    exact h.trans (of_append [.load tx, .done rx] rfl rfl rfl rfl)
  · cases e.symm.trans hu

/-- An exchange that hangs. -/
theorem exchange_stuck {tx : Byte} (h : CoreKeeps s t) (hu : t.exchange tx = .stuck u) : CoreKeeps s u := by
  rcases State.exchange_cases t tx with ⟨rx, m, r, -, e⟩ | ⟨-, e⟩
  · cases e.symm.trans hu
  · cases e.symm.trans hu
    exact h.trans (of_append [.load tx] rfl rfl rfl rfl)

theorem writeLoop (h : CoreKeeps s t) (n : Nat) : CoreKeeps s (writeLoop n t) := by
  obtain ⟨d, tc, b, k, m, r, c, i, q, y, added, e⟩ := writeLoop_frame n t
  rw [e]
  exact h.trans (of_append added rfl rfl rfl rfl)

theorem readLoop (h : CoreKeeps s t) (n : Nat) : CoreKeeps s (readLoop n t) := by
  obtain ⟨d, tc, b, k, m, r, c, q, y, added, e⟩ := readLoop_frame n t
  rw [e]
  exact h.trans (of_append added rfl rfl rfl rfl)

end

end CoreKeeps

/-! ### Whole commands -/

section
variable {s t : State}

theorem execInit_keeps (h : execInit s = .next t) : CoreKeeps s t := by
  obtain ⟨u, hu, ht⟩ := Out.andThen_eq_next.mp h
  cases ht
  exact ((((CoreKeeps.refl s).begin _).dirSetAll hu).writeCtrl _).putStatus _

theorem execRegisterSlave_keeps {id port : Byte} {rsv : BitVec 5} {bit : BitPos} {sel desel : Delay}
    (h : execRegisterSlave id port rsv bit sel desel s = .next t) : CoreKeeps s t := by
  unfold execRegisterSlave at h
  split at h
  next =>
    cases h
    exact ((CoreKeeps.refl s).begin _).raise _ _
  next => exact ((CoreKeeps.refl s).begin _).rmw_andThen h fun v => ((CoreKeeps.refl v).writeSlot _ _).putStatus _

theorem execSelect_keeps {id : Byte} (h : execSelect id s = .next t) : CoreKeeps s t := by
  unfold execSelect at h
  split at h
  next =>
    cases h
    exact ((CoreKeeps.refl s).begin _).raise _ _
  next => exact ((CoreKeeps.refl s).begin _).rmw_andThen h fun v => ((CoreKeeps.refl v).wait _).putStatus _

theorem execDeselect_keeps {id : Byte} (h : execDeselect id s = .next t) : CoreKeeps s t := by
  unfold execDeselect at h
  split at h
  next =>
    cases h
    exact ((CoreKeeps.refl s).begin _).raise _ _
  next => exact ((CoreKeeps.refl s).begin _).rmw_andThen h fun v => ((CoreKeeps.refl v).wait _).putStatus _

theorem execWriteByte_keeps {b : Byte} (h : execWriteByte b s = .next t) : CoreKeeps s t := by
  unfold execWriteByte at h
  split at h
  next hx =>
    cases h
    exact (((CoreKeeps.refl s).begin _).exchange_done hx).putStatus _
  next hx =>
    cases h
    exact ((CoreKeeps.refl s).begin _).exchange_stuck hx

theorem execReadByte_keeps (h : execReadByte s = .next t) : CoreKeeps s t := by
  unfold execReadByte at h
  split at h
  next hx =>
    have hk := ((CoreKeeps.refl s).begin _).exchange_done hx
    split at h
    next hr =>
      cases h
      exact (hk.takeRsp hr).putStatus _
    next =>
      cases h
      exact hk.moveTo _
  next hx =>
    cases h
    exact ((CoreKeeps.refl s).begin _).exchange_stuck hx

theorem execWriteBytes_keeps {n : Byte} (h : execWriteBytes n s = .next t) : CoreKeeps s t := by
  cases h
  refine CoreKeeps.writeLoop ?_ _
  exact .of_eq rfl rfl rfl rfl

theorem execReadBytes_keeps {n : Byte} (h : execReadBytes n s = .next t) : CoreKeeps s t := by
  cases h
  refine CoreKeeps.readLoop ?_ _
  exact .of_eq rfl rfl rfl rfl

theorem exec_keeps {i : Instr} (h : exec i s = .next t) : CoreKeeps s t := by
  cases i with
  | init => exact execInit_keeps h
  | registerSlave => exact execRegisterSlave_keeps h
  | select => exact execSelect_keeps h
  | deselect => exact execDeselect_keeps h
  | writeByte => exact execWriteByte_keeps h
  | writeBytes => exact execWriteBytes_keeps h
  | readByte => exact execReadByte_keeps h
  | readBytes => exact execReadBytes_keeps h

/-! ### Micro-steps -/

theorem acceptPacket_keeps (h : CoreKeeps s t) (opc : Byte) (latch : List Byte) :
    CoreKeeps s (t.acceptPacket opc latch) := by
  unfold State.acceptPacket
  split
  · exact h.latchPacket _ _ _
  · exact h.latchPacket _ _ _
  · exact (h.latchPacket _ _ _).microRaise _ _

theorem takeOpcode_keeps (s : State) : CoreKeeps s s.takeOpcode := by
  unfold State.takeOpcode
  split
  next => exact .refl s
  next hb => exact acceptPacket_keeps ((CoreKeeps.refl s).cmdNext hb) _ _

theorem takeOperand_keeps (s : State) (w : Work) : CoreKeeps s (s.takeOperand w) := by
  unfold State.takeOperand
  split
  next => exact .refl s
  next hb => exact acceptPacket_keeps ((CoreKeeps.refl s).cmdNext hb) _ _

theorem microBody_registerSlave_keeps {id port : Byte} {rsv : BitVec 5} {bit : BitPos} {sel desel : Delay}
    (h : microBody (.registerSlave id port rsv bit sel desel) s = .next t) : CoreKeeps s t := by
  simp only [microBody] at h
  split at h
  next =>
    cases h
    exact (CoreKeeps.refl s).microRaise _ _
  next => exact (CoreKeeps.refl s).rmw_andThen h fun v => (CoreKeeps.refl v).moveTo _

theorem microBody_select_keeps {id : Byte} (h : microBody (.select id) s = .next t) : CoreKeeps s t := by
  simp only [microBody] at h
  split at h
  next =>
    cases h
    exact (CoreKeeps.refl s).microRaise _ _
  next => exact (CoreKeeps.refl s).rmw_andThen h fun v => .of_eq rfl rfl rfl rfl

theorem microBody_deselect_keeps {id : Byte} (h : microBody (.deselect id) s = .next t) : CoreKeeps s t := by
  simp only [microBody] at h
  split at h
  next =>
    cases h
    exact (CoreKeeps.refl s).microRaise _ _
  next => exact (CoreKeeps.refl s).rmw_andThen h fun v => .of_eq rfl rfl rfl rfl

theorem microBody_keeps {i : Instr} (h : microBody i s = .next t) : CoreKeeps s t := by
  cases i with
  | registerSlave => exact microBody_registerSlave_keeps h
  | select => exact microBody_select_keeps h
  | deselect => exact microBody_deselect_keeps h
  | init =>
    cases h
    exact (CoreKeeps.refl s).moveTo _
  | writeByte b =>
    cases h
    exact ((CoreKeeps.refl s).loadData b).moveTo _
  | readByte =>
    cases h
    exact ((CoreKeeps.refl s).loadData dummyByte).moveTo _
  | writeBytes n =>
    cases h
    exact .of_eq rfl rfl rfl rfl
  | readBytes n =>
    cases h
    exact .of_eq rfl rfl rfl rfl

theorem microOwnLines_keeps {rest : List Line} (h : microOwnLines rest s = .next t) : CoreKeeps s t := by
  cases rest with
  | nil =>
    cases h
    exact ((CoreKeeps.refl s).writeCtrl _).moveTo _
  | cons l more => exact (CoreKeeps.refl s).rmw_andThen h fun v => (CoreKeeps.refl v).moveTo _

theorem microStoreSlot_keeps (i : Instr) (s : State) : CoreKeeps s (microStoreSlot i s) := by
  unfold microStoreSlot
  split
  · exact ((CoreKeeps.refl s).writeSlot _ _).moveTo _
  all_goals exact .refl s

theorem microDelay_keeps (d : Delay) (s : State) : CoreKeeps s (microDelay d s) := by
  unfold microDelay
  split
  · exact ((CoreKeeps.refl s).emit _).moveTo _
  · exact .of_eq rfl rfl rfl rfl

theorem microPayload_keeps (s : State) : CoreKeeps s (microPayload s) := by
  unfold microPayload
  split
  next => exact (CoreKeeps.refl s).moveTo _
  next =>
    split
    next => exact .refl s
    next hb => exact (((CoreKeeps.refl s).cmdNext hb).loadData _).moveTo _

theorem microReadNext_keeps (s : State) : CoreKeeps s (microReadNext s) := by
  unfold microReadNext
  split
  · exact (CoreKeeps.refl s).moveTo _
  · exact ((CoreKeeps.refl s).loadData _).moveTo _

theorem microShifter_keeps (s : State) : CoreKeeps s (microShifter s) := by
  unfold microShifter
  split
  · exact .refl s
  · split
    · exact (CoreKeeps.refl s).sckRise
    · exact (CoreKeeps.refl s).sckFall

theorem microExchanged_keeps (i : Instr) (s : State) : CoreKeeps s (microExchanged i s) := by
  have hr := (CoreKeeps.refl s).readData
  cases i with
  | writeByte | readByte | readBytes => exact hr.moveTo _
  | writeBytes => exact hr.countByte.moveTo _
  | init | registerSlave | select | deselect => exact .refl s

theorem microData_keeps (i : Instr) (v : Byte) (s : State) : CoreKeeps s (microData i v s) := by
  unfold microData
  split
  next => exact .refl s
  next hr =>
    have hk := (CoreKeeps.refl s).takeRsp hr
    cases i with
    | readBytes => exact hk.countByte.moveTo _
    | init | registerSlave | select | deselect | writeByte | writeBytes | readByte => exact hk.moveTo _

theorem microShifting_keeps (i : Instr) (s : State) :
    CoreKeeps s (if s.tc then microExchanged i s else microShifter s) := by
  split
  · exact microExchanged_keeps i s
  · exact microShifter_keeps s

theorem microCommand_keeps {i : Instr} {pos : Pos} (h : microCommand i pos s = .next t) : CoreKeeps s t := by
  cases pos with
  | body => exact microBody_keeps h
  | ownLines rest => exact microOwnLines_keeps h
  | operands => cases h; exact .refl s
  | storeSlot => cases h; exact microStoreSlot_keeps i s
  | delay d => cases h; exact microDelay_keeps d s
  | payload => cases h; exact microPayload_keeps s
  | readNext => cases h; exact microReadNext_keeps s
  | shifting => cases h; exact microShifting_keeps i s
  | data v => cases h; exact microData_keeps i v s
  | status v => cases h; exact (CoreKeeps.refl s).putStatus v

theorem microStep_keeps {w : Work} (h : microStep w s = .next t) : CoreKeeps s t := by
  unfold microStep at h
  split at h
  next => cases h; exact takeOperand_keeps s w
  next v _ => cases h; exact (CoreKeeps.refl s).putStatus v
  next => exact microCommand_keeps h
  next => cases h; exact .refl s

theorem coreStep_keeps (h : coreStep s = .next t) : CoreKeeps s t := by
  unfold coreStep at h
  split at h
  next => cases h; exact takeOpcode_keeps s
  next => exact microStep_keeps h
  next => cases h; exact .refl s

/-! ### CORE's turn -/

/-- Taking a packet that is offered whole. -/
theorem fetch_run_keeps {i : Instr} (h : fetch s = .run i t) : CoreKeeps s t := by
  unfold fetch at h
  split at h
  next =>
    split at h
    next => cases h; exact .of_eq rfl rfl rfl rfl
    next => cases h
    next => cases h
  next => cases h

/-- Taking an illegal opcode and answering it. -/
theorem fetch_illegal_keeps (h : fetch s = .illegal t) : CoreKeeps s t := by
  unfold fetch at h
  split at h
  next =>
    split at h
    next => cases h
    next =>
      cases h
      refine CoreKeeps.raise ?_ _ _
      exact .of_eq rfl rfl rfl rfl
    next => cases h
  next => cases h

/-- CORE keeps the platform, the grain, the host's script and the history so far in every turn it takes. -/
theorem coreTurn_keeps (h : coreTurn s = .next t) : CoreKeeps s t := by
  unfold coreTurn at h
  split at h
  next hf => exact (fetch_run_keeps hf).trans (exec_keeps h)
  next hf => cases h; exact fetch_illegal_keeps hf
  next => exact coreStep_keeps h

end

/-! ### The parameters and the grain -/

/-- Settles O47: CORE's turns keep both fields by `coreTurn_keeps`, and no move of the host, a reset
included, writes either. -/
theorem stepKeepsConfig : Obligations.StepKeepsConfig := by
  intro s t h
  rcases step_cases h with
    ⟨r, -, hc⟩ | ⟨b, r, -, rfl⟩ | ⟨q, r, -, rfl⟩ | ⟨a, v, r, -, -, -, rfl⟩ | ⟨r, -, rfl⟩
  case inl =>
    have hk := coreTurn_keeps hc
    exact ⟨hk.cfg, hk.grain⟩
  all_goals exact ⟨rfl, rfl⟩

end Sys2Proof.Machine
end

section
/-! SUPPORT. Small facts of the state: the fields of `STAT`, the values a reset leaves, a packet fetched
whole. -/

namespace Sys2Proof.Machine

/-! ### The fields of STAT -/

theorem Seq.isBusy_iff {q : Seq} : q.isBusy = true ↔ ∃ w, q = .busy w := by
  cases q <;> simp [Seq.isBusy]

theorem Seq.isHalted_iff {q : Seq} : q.isHalted = true ↔ q = .halted := by
  cases q <;> simp [Seq.isHalted]

/-- The bits of `STAT`, each in its place (spec/10_state.md R17). -/
theorem State.stat_getLsbD (s : State) (k : Nat) :
    s.stat.getLsbD k = if k = 0 then s.tc else if k = 1 then s.seq.isBusy else
      if k = 2 then s.seq.isHalted else false := by
  have hs : s.stat.getLsbD k = (0#5 ++ (BitVec.ofBool s.seq.isHalted ++
    (BitVec.ofBool s.seq.isBusy ++ BitVec.ofBool s.tc))).getLsbD k := rfl
  rw [hs]
  simp only [BitVec.getLsbD_append, BitVec.getLsbD_ofBool, BitVec.getLsbD_zero]
  match k with
  | 0 | 1 | 2 => simp
  | k + 3 => simp

/-- Settles O54: each field is read off `State.stat_getLsbD`. -/
theorem statusPort : Obligations.StatusPort := by
  intro s
  refine ⟨s.stat_getLsbD 0, ?_, ?_, fun k hk => ?_⟩
  · rw [s.stat_getLsbD 1]; exact Seq.isBusy_iff
  · rw [s.stat_getLsbD 2]; exact Seq.isHalted_iff
  · rw [s.stat_getLsbD k, if_neg (by omega), if_neg (by omega), if_neg (by omega)]

/-- In `IDLE` with `TC = 0` the whole port reads 0. -/
theorem State.stat_of_idle {s : State} (hq : s.seq = .idle) (ht : s.tc = false) : s.stat = 0x00#8 := by
  simp [State.stat, hq, ht, Seq.isHalted, Seq.isBusy]

/-! ### Reset -/

/-- With no slot written, no identifier names a descriptor. -/
theorem State.slot_of_unregistered {s : State} (h : s.slots = Vector.replicate 8 none) (id : Byte) :
    s.slot id = none := by
  unfold State.slot
  split
  · simp [h]
  · rfl

/-- With `CTRL = 0` the shifter's pins are not driven to a level (spec/10_state.md R27). -/
theorem State.pins_of_ctrl_zero {s : State} (h : s.ctrl = 0x00#8) :
    s.initialized = false ∧ s.sckPin = .unspecified ∧ s.mosiPin = .unspecified := by
  have he : s.enabled = false := by simp [State.enabled, ctrlEn, h]
  simp [State.initialized, State.sckPin, State.mosiPin, he]

/-- Settles O42: the values of `State.reset`, its slots and pins by the two lemmas above. -/
theorem resetValues : Obligations.ResetValues := by
  obtain ⟨hi, hk, hm⟩ := State.pins_of_ctrl_zero (s := State.reset) rfl
  exact ⟨State.slot_of_unregistered rfl, rfl, State.stat_of_idle rfl rfl, rfl, rfl, rfl, rfl, rfl, rfl, rfl, rfl,
    hi, hk, hm⟩

/-- The invariant depends on the platform and the line registers alone where the rest of CORE's state is
at its reset value. -/
theorem State.inv_of_resetValues {s : State} (hc : configOk s.cfg) (hl : linesOk s)
    (hs : s.slots = Vector.replicate 8 none) (hr : s.ctrl = 0x00#8) (hf : s.fault = 0x00#8)
    (hi : s.finfo = 0x00#8) (hq : s.seq = .idle) (hz : countersIdle s) : s.Inv where
  config := hc
  lines := hl
  slots id d h := by simp [State.slot_of_unregistered hs] at h
  ctrl := .inl hr
  fault := by simp [faultOk, hf, hi]
  seq := by simpa [seqOk, hq] using hz

theorem configOk_default : configOk Config.default := by
  simp [configOk, Config.default, portLegal]

/-- Settles O43: `State.reset` is the default platform with no line register written. -/
theorem resetInvariant : Obligations.ResetInvariant :=
  State.inv_of_resetValues configOk_default ⟨rfl, by simp [State.reset]⟩ rfl rfl rfl rfl rfl
    ⟨rfl, rfl, rfl, rfl⟩

/-- The host's reset is a step at once, from any state (spec/70_reset_and_hazards.md R151). -/
theorem step_of_host_reset {s : State} {r : List HostMove} (h : s.host = .reset :: r) :
    step s = .next (State.applyReset { s with host := r }) := by
  simp [step, hostTurn, h, HostMove.enabled, State.hostMove]

/-- Settles O52: the step is `State.applyReset`, whose fields are its own lemmas. -/
theorem resetFromAnyState : Obligations.ResetFromAnyState := by
  intro s rest h
  have hrst : s.rst = true := by simp [State.rst, h]
  obtain ⟨-, hk, hm⟩ := State.pins_of_ctrl_zero (s := State.applyReset { s with host := rest }) rfl
  exact ⟨by simp [State.cmdReady, hrst], by simp [State.rspOffered, hrst], _, step_of_host_reset h, rfl, rfl,
    State.slot_of_unregistered rfl, rfl, rfl, State.stat_of_idle rfl rfl, rfl, rfl, rfl, rfl, rfl,
    State.rspOffered_of_idle rfl, hk, hm, rfl, rfl⟩

/-! ### A packet fetched whole -/

/-- The move `run` gives CORE the step. -/
theorem step_of_host_run {s : State} {r : List HostMove} (h : s.host = .run :: r) :
    step s = coreTurn { s with host := r } := by
  simp [step, hostTurn, h, HostMove.enabled, State.hostMove]

/-- A packet offered whole in `IDLE` under the grain `command` runs in CORE's turn. -/
theorem coreTurn_of_packet {s : State} {i : Instr} {rest : List Byte} (hg : s.grain = .command)
    (hq : s.seq = .idle) (hd : decode s.cmdIn = .command i rest) :
    coreTurn s = exec i { s with cmdIn := rest } := by
  simp only [coreTurn, fetch, hg, hq, hd]

/-- Settles O5: CORE has the step, with or without the move `run`, and fetches the packet. -/
theorem stepRunsDecoded : Obligations.StepRunsDecoded := by
  intro s i rest hh hg hq hd
  rcases hh with hh | ⟨hs, hh⟩
  · rw [step_of_host_nil hh, coreTurn_of_packet hg hq hd, hh, List.tail_nil, ← hh]
  · rw [step_of_host_run hh, coreTurn_of_packet (s := { s with host := hs }) hg hq hd, hh, List.tail_cons]

/-! ### The history -/

/-- Settles O48: CORE only adds to the history by `coreTurn_keeps`, `PlatWrite` adds its event, and the
other moves of the host but a reset leave the history alone. -/
theorem historyAppendOnly : Obligations.HistoryAppendOnly := by
  intro s t h hr
  rcases step_cases h with
    ⟨r, -, hc⟩ | ⟨b, r, -, rfl⟩ | ⟨q, r, -, rfl⟩ | ⟨a, v, r, -, -, -, rfl⟩ | ⟨r, hh, -⟩
  · obtain ⟨added, e⟩ := (coreTurn_keeps hc).hist
    exact ⟨added, e.symm⟩
  · exact ⟨[], (List.append_nil _).symm⟩
  · exact ⟨[], (List.append_nil _).symm⟩
  · exact ⟨[.plat a v], rfl⟩
  · exact absurd ⟨r, hh⟩ hr

end Sys2Proof.Machine
end

section
/-! SUPPORT. What CORE does to `CTRL`, to the fault record and to the line registers, whatever it does
else: one rule per operation that writes one of them, one equation per operation that writes none, and so
for every command, every micro-step and every turn of CORE. -/

namespace Sys2Proof.Machine

/-! ### Updates that write no register -/

/-- The fields the rules of `CTRL`, of the fault record and of the line registers speak of. -/
def State.regs (s : State) : Config × Byte × Byte × Byte × Memory := (s.cfg, s.ctrl, s.fault, s.finfo, s.lines)

section
variable {s t : State}

@[simp] theorem State.emit_regs (s : State) (e : Event) : (s.emit e).regs = s.regs := rfl
@[simp] theorem State.moveTo_regs (s : State) (p : Pos) : (s.moveTo p).regs = s.regs := rfl
@[simp] theorem State.begin_regs (s : State) (i : Instr) : (s.begin i).regs = s.regs := rfl
@[simp] theorem State.latchPacket_regs (s : State) (o : Byte) (l : List Byte) (p : Pos) :
    (s.latchPacket o l p).regs = s.regs := rfl
@[simp] theorem State.wait_regs (s : State) (d : Delay) : (s.wait d).regs = s.regs := rfl
@[simp] theorem State.loadData_regs (s : State) (v : Byte) : (s.loadData v).regs = s.regs := rfl
@[simp] theorem State.readData_regs (s : State) : s.readData.regs = s.regs := rfl
@[simp] theorem State.countByte_regs (s : State) : s.countByte.regs = s.regs := rfl

@[simp] theorem State.writeSlot_regs (s : State) (id : Byte) (d : Slot) : (s.writeSlot id d).regs = s.regs := by
  obtain ⟨x, e⟩ := State.writeSlot_frame s id d
  rw [e]; rfl

@[simp] theorem State.putStatus_regs (s : State) (v : Byte) : (s.putStatus v).regs = s.regs := by
  obtain ⟨q, r, added, e⟩ := State.putStatus_frame s v
  rw [e]; rfl

theorem State.cmdNext_regs {b : Byte} (h : s.cmdNext = some (b, t)) : t.regs = s.regs := by
  unfold State.cmdNext at h
  split at h <;> cases h
  rfl

theorem State.takeRsp_regs {v : Byte} (h : s.takeRsp v = some t) : t.regs = s.regs := by
  obtain ⟨-, rfl⟩ := State.takeRsp_cases h
  rfl

theorem State.exchange_done_regs {tx rx : Byte} (h : s.exchange tx = .done rx t) : t.regs = s.regs := by
  rcases State.exchange_cases s tx with ⟨rx', m, r, -, e⟩ | ⟨-, e⟩ <;> cases e.symm.trans h
  rfl

theorem State.exchange_stuck_regs {tx : Byte} (h : s.exchange tx = .stuck t) : t.regs = s.regs := by
  rcases State.exchange_cases s tx with ⟨rx, m, r, -, e⟩ | ⟨-, e⟩ <;> cases e.symm.trans h
  rfl

@[simp] theorem State.sckRise_regs (s : State) : s.sckRise.regs = s.regs := by
  unfold State.sckRise State.sampleMiso
  split <;> rfl

@[simp] theorem State.sckFall_regs (s : State) : s.sckFall.regs = s.regs := by
  unfold State.sckFall
  split <;> rfl

@[simp] theorem writeLoop_regs (n : Nat) (s : State) : (writeLoop n s).regs = s.regs := by
  obtain ⟨d, tc, b, k, m, r, c, i, q, y, added, e⟩ := writeLoop_frame n s
  rw [e]; rfl

@[simp] theorem readLoop_regs (n : Nat) (s : State) : (readLoop n s).regs = s.regs := by
  obtain ⟨d, tc, b, k, m, r, c, q, y, added, e⟩ := readLoop_frame n s
  rw [e]; rfl

@[simp] theorem microStoreSlot_regs (i : Instr) (s : State) : (microStoreSlot i s).regs = s.regs := by
  cases i with
  | registerSlave id port rsv bit sel desel => exact State.writeSlot_regs s id _
  | init | select | deselect | writeByte | writeBytes | readByte | readBytes => rfl

@[simp] theorem microDelay_regs (d : Delay) (s : State) : (microDelay d s).regs = s.regs := by
  unfold microDelay
  split <;> rfl

@[simp] theorem microPayload_regs (s : State) : (microPayload s).regs = s.regs := by
  unfold microPayload
  split
  · rfl
  · split
    next => rfl
    next hb => simp [State.cmdNext_regs hb]

@[simp] theorem microReadNext_regs (s : State) : (microReadNext s).regs = s.regs := by
  unfold microReadNext
  split <;> rfl

@[simp] theorem microShifter_regs (s : State) : (microShifter s).regs = s.regs := by
  unfold microShifter
  split
  · rfl
  · split <;> simp

@[simp] theorem microExchanged_regs (i : Instr) (s : State) : (microExchanged i s).regs = s.regs := by
  cases i <;> rfl

@[simp] theorem microData_regs (i : Instr) (v : Byte) (s : State) : (microData i v s).regs = s.regs := by
  unfold microData
  split
  next => rfl
  next hr => cases i <;> simp [State.takeRsp_regs hr]

end

/-! ### What is kept of the registers -/

/-- From `s` to `t` the fault record stayed or took the first fault (spec/10_state.md R20), legal line
registers stayed legal (20_memory.md R40), and `CTRL` is `v` in `t`. -/
structure RegsKept (v : Byte) (s t : State) : Prop where
  ctrl : t.ctrl = v
  fault : (t.fault = s.fault ∧ t.finfo = s.finfo) ∨ (s.fault = 0x00#8 ∧ ∃ f : CoreFault, t.fault = f.code)
  lines : linesOk s → linesOk t

namespace RegsKept

variable {v : Byte} {s s' t u : State}

theorem refl (s : State) : RegsKept s.ctrl s s := ⟨rfl, .inl ⟨rfl, rfl⟩, id⟩

/-- Nothing that writes no register matters after. -/
theorem congr (h : RegsKept v s t) (e : u.regs = t.regs) : RegsKept v s u := by
  simp only [State.regs, Prod.mk.injEq] at e
  obtain ⟨hc, hr, hf, hi, hl⟩ := e
  obtain ⟨kr, kf, kl⟩ := h
  exact ⟨hr ▸ kr, by rw [hf, hi]; exact kf, fun h0 => by unfold linesOk; rw [hc, hl]; exact kl h0⟩

/-- Nothing that writes no register matters before. -/
theorem congr_left (h : RegsKept v s t) (e : s.regs = s'.regs) : RegsKept v s' t := by
  simp only [State.regs, Prod.mk.injEq] at e
  obtain ⟨hc, -, hf, hi, hl⟩ := e
  obtain ⟨kr, kf, kl⟩ := h
  exact ⟨kr, by rw [← hf, ← hi]; exact kf, fun h0 => kl (by unfold linesOk; rw [hc, hl]; exact h0)⟩

/-- The same where `CTRL` stays. -/
theorem after (h : RegsKept s.ctrl s t) (e : s.regs = s'.regs) : RegsKept s'.ctrl s' t := by
  have hc : s.ctrl = s'.ctrl := congrArg (fun r => r.2.1) e
  exact hc ▸ h.congr_left e

theorem of_regs (e : t.regs = s.regs) : RegsKept s.ctrl s t := (refl s).congr e

theorem recordFault (s : State) (f : CoreFault) (info : Byte) : RegsKept s.ctrl s (s.recordFault f info) := by
  unfold State.recordFault
  split
  next h0 => exact ⟨rfl, .inr ⟨h0, f, rfl⟩, id⟩
  next => exact refl s

theorem microRaise (s : State) (f : CoreFault) (info : Byte) : RegsKept s.ctrl s (s.microRaise f info) :=
  (recordFault s f info).congr rfl

theorem raise (s : State) (f : CoreFault) (info : Byte) : RegsKept s.ctrl s (s.raise f info) :=
  (recordFault s f info).congr (State.putStatus_regs _ _)

/-- A byte written to a line register that exists. -/
theorem setLineByte {a : Nat} (x : Byte) (h : s.lineExists a = true) : RegsKept s.ctrl s (s.setLineByte a x) := by
  refine ⟨rfl, .inl ⟨rfl, rfl⟩, fun ⟨hwf, hin⟩ => ⟨Memory.wf_write _ _ hwf, fun c hc => ?_⟩⟩
  rcases Memory.mem_write hc with hc | rfl
  · exact hin c hc
  · simpa [State.lineExists] using h

/-- The read-modify-write behind `LineSet`, `LineClear` and `DirSet`. -/
theorem rmw {a : Nat} {set clear : Byte} {e : Event} (h : s.rmw a set clear e = .next t) :
    RegsKept s.ctrl s t := by
  obtain ⟨hx, rfl⟩ := State.rmw_cases h
  exact (setLineByte _ hx).congr rfl

/-- A single-bit line write and what the command does after it. -/
theorem rmw_andThen {a : Nat} {set clear : Byte} {e : Event} {f : State → State}
    (h : (s.rmw a set clear e).andThen (fun u => .next (f u)) = .next t) (hf : ∀ u, (f u).regs = u.regs) :
    RegsKept s.ctrl s t := by
  obtain ⟨u, hu, ht⟩ := Out.andThen_eq_next.mp h
  cases ht
  exact (rmw hu).congr (hf u)

/-- One update after another. -/
theorem trans (h : RegsKept s.ctrl s t) (k : RegsKept v t u) : RegsKept v s u := by
  refine ⟨k.ctrl, ?_, k.lines ∘ h.lines⟩
  rcases h.fault with ⟨hf, hi⟩ | ⟨h0, f, hf⟩
  · rw [← hf, ← hi]; exact k.fault
  · rcases k.fault with ⟨kf, -⟩ | ⟨k0, g, kg⟩
    · exact .inr ⟨h0, f, kf.trans hf⟩
    · exact .inr ⟨h0, g, kg⟩

theorem dirSetAll {ls : List Line} (h : State.dirSetAll ls s = .next t) : RegsKept s.ctrl s t := by
  induction ls generalizing s with
  | nil => cases h; exact refl _
  | cons l rest ih =>
    obtain ⟨u, hu, ht⟩ := Out.andThen_eq_next.mp h
    have hk := rmw hu
    have hr := ih ht
    rw [hk.ctrl] at hr
    exact hk.trans hr

theorem writeCtrl (h : RegsKept v s t) (x : Byte) : RegsKept x s (t.writeCtrl x) := ⟨rfl, h.fault, h.lines⟩

/-- A recorded fault stays as it is. -/
theorem fault_of_ne_zero (h : RegsKept v s t) (h0 : s.fault ≠ 0x00#8) : t.fault = s.fault ∧ t.finfo = s.finfo :=
  h.fault.resolve_right fun ⟨hz, _⟩ => h0 hz

end RegsKept

/-! ### Whole commands -/

section
variable {s t : State}

theorem execInit_regsKept (h : execInit s = .next t) : RegsKept ctrlInit s t := by
  obtain ⟨u, hu, ht⟩ := Out.andThen_eq_next.mp h
  cases ht
  exact (((RegsKept.dirSetAll hu).writeCtrl _).congr (State.putStatus_regs _ _)).congr_left rfl

theorem execRegisterSlave_regsKept {id port : Byte} {rsv : BitVec 5} {bit : BitPos} {sel desel : Delay}
    (h : execRegisterSlave id port rsv bit sel desel s = .next t) : RegsKept s.ctrl s t := by
  unfold execRegisterSlave at h
  split at h
  next =>
    cases h
    exact (RegsKept.raise _ _ _).after rfl
  next => exact (RegsKept.rmw_andThen h (by simp)).after rfl

theorem execSelect_regsKept {id : Byte} (h : execSelect id s = .next t) : RegsKept s.ctrl s t := by
  unfold execSelect at h
  split at h
  next =>
    cases h
    exact (RegsKept.raise _ _ _).after rfl
  next => exact (RegsKept.rmw_andThen h (by simp)).after rfl

theorem execDeselect_regsKept {id : Byte} (h : execDeselect id s = .next t) : RegsKept s.ctrl s t := by
  unfold execDeselect at h
  split at h
  next =>
    cases h
    exact (RegsKept.raise _ _ _).after rfl
  next => exact (RegsKept.rmw_andThen h (by simp)).after rfl

theorem execWriteByte_regs {b : Byte} (h : execWriteByte b s = .next t) : t.regs = s.regs := by
  unfold execWriteByte at h
  split at h
  next hx => cases h; simp [State.exchange_done_regs hx]
  next hx => cases h; simp [State.exchange_stuck_regs hx]

theorem execReadByte_regs (h : execReadByte s = .next t) : t.regs = s.regs := by
  unfold execReadByte at h
  split at h
  next hx =>
    split at h
    next hr => cases h; simp [State.takeRsp_regs hr, State.exchange_done_regs hx]
    next => cases h; simp [State.exchange_done_regs hx]
  next hx => cases h; simp [State.exchange_stuck_regs hx]

/-- Only INIT leaves another value in `CTRL` than it found (spec/10_state.md R16). -/
theorem exec_regsKept {i : Instr} (h : exec i s = .next t) :
    RegsKept (if i = .init then ctrlInit else s.ctrl) s t := by
  cases i with
  | init => exact execInit_regsKept h
  | registerSlave => exact execRegisterSlave_regsKept h
  | select => exact execSelect_regsKept h
  | deselect => exact execDeselect_regsKept h
  | writeByte => exact .of_regs (execWriteByte_regs h)
  | readByte => exact .of_regs (execReadByte_regs h)
  | writeBytes n => cases h; exact .of_regs (writeLoop_regs _ _)
  | readBytes n => cases h; exact .of_regs (readLoop_regs _ _)

/-! ### Micro-steps -/

theorem acceptPacket_regsKept (s : State) (opc : Byte) (latch : List Byte) :
    RegsKept s.ctrl s (s.acceptPacket opc latch) := by
  unfold State.acceptPacket
  split
  · exact .of_regs rfl
  · exact .of_regs rfl
  · exact (RegsKept.microRaise _ _ _).after rfl

theorem takeOpcode_regsKept (s : State) : RegsKept s.ctrl s s.takeOpcode := by
  unfold State.takeOpcode
  split
  next => exact .refl s
  next hb => exact (acceptPacket_regsKept _ _ _).after (State.cmdNext_regs hb)

theorem takeOperand_regsKept (s : State) (w : Work) : RegsKept s.ctrl s (s.takeOperand w) := by
  unfold State.takeOperand
  split
  next => exact .refl s
  next hb => exact (acceptPacket_regsKept _ _ _).after (State.cmdNext_regs hb)

theorem microBody_regsKept {i : Instr} (h : microBody i s = .next t) : RegsKept s.ctrl s t := by
  cases i with
  | registerSlave =>
    simp only [microBody] at h
    split at h
    next => cases h; exact .microRaise _ _ _
    next => exact .rmw_andThen h fun _ => rfl
  | select =>
    simp only [microBody] at h
    split at h
    next => cases h; exact .microRaise _ _ _
    next => exact .rmw_andThen h fun _ => rfl
  | deselect =>
    simp only [microBody] at h
    split at h
    next => cases h; exact .microRaise _ _ _
    next => exact .rmw_andThen h fun _ => rfl
  | init | writeByte | writeBytes | readByte | readBytes => cases h; exact .of_regs rfl

/-- One more own line, or at the end of them the write of `CTRL`. -/
theorem microOwnLines_regsKept {rest : List Line} (h : microOwnLines rest s = .next t) :
    RegsKept (if rest = [] then ctrlInit else s.ctrl) s t := by
  cases rest with
  | nil => cases h; exact ((RegsKept.refl s).writeCtrl _).congr rfl
  | cons l more => exact .rmw_andThen h fun _ => rfl

/-- Of the micro-steps of commands only the last of INIT leaves another value in `CTRL`. -/
theorem microCommand_regsKept {i : Instr} {pos : Pos} (h : microCommand i pos s = .next t) :
    RegsKept (if pos = .ownLines [] then ctrlInit else s.ctrl) s t := by
  cases pos with
  | body => exact microBody_regsKept h
  | ownLines rest => simpa using microOwnLines_regsKept h
  | operands => cases h; exact .refl s
  | storeSlot => cases h; exact .of_regs (microStoreSlot_regs i s)
  | delay d => cases h; exact .of_regs (microDelay_regs d s)
  | payload => cases h; exact .of_regs (microPayload_regs s)
  | readNext => cases h; exact .of_regs (microReadNext_regs s)
  | shifting => cases h; exact .of_regs (by split <;> simp)
  | data v => cases h; exact .of_regs (microData_regs i v s)
  | status v => cases h; exact .of_regs (State.putStatus_regs s v)

theorem microStep_regsKept {w : Work} (h : microStep w s = .next t) :
    RegsKept s.ctrl s t ∨ (w.pos = .ownLines [] ∧ RegsKept ctrlInit s t) := by
  unfold microStep at h
  split at h
  next => cases h; exact .inl (takeOperand_regsKept s w)
  next v _ => cases h; exact .inl (.of_regs (State.putStatus_regs s v))
  next =>
    have hk := microCommand_regsKept h
    split at hk
    next hp => exact .inr ⟨hp, hk⟩
    next => exact .inl hk
  next => cases h; exact .inl (.refl s)

/-- The sequencer is about to write `CTRL`: at the end of INIT's own lines. -/
def State.atCtrlWrite (s : State) : Prop := ∃ opc latch, s.seq = .busy ⟨opc, latch, .ownLines []⟩

theorem coreStep_regsKept (h : coreStep s = .next t) :
    RegsKept s.ctrl s t ∨ (s.atCtrlWrite ∧ RegsKept ctrlInit s t) := by
  unfold coreStep at h
  split at h
  next => cases h; exact .inl (takeOpcode_regsKept s)
  next w hw =>
    obtain ⟨opc, latch, pos⟩ := w
    rcases microStep_regsKept h with hk | ⟨rfl, hk⟩
    · exact .inl hk
    · exact .inr ⟨⟨opc, latch, hw⟩, hk⟩
  next => cases h; exact .inl (.refl s)

/-! ### CORE's turn and the step -/

/-- A packet the fetch takes whole was offered in `IDLE` under the grain `command`. -/
theorem fetch_run_cases {i : Instr} (h : fetch s = .run i t) :
    s.grain = .command ∧ s.seq = .idle ∧
      ∃ rest, decode s.cmdIn = .command i rest ∧ t = { s with cmdIn := rest } := by
  unfold fetch at h
  split at h
  next hg hq =>
    split at h
    next hd => cases h; exact ⟨hg, hq, _, hd, rfl⟩
    next => cases h
    next => cases h
  next => cases h

/-- An illegal opcode the fetch takes is answered in the same step. -/
theorem fetch_illegal_cases (h : fetch s = .illegal t) :
    s.seq = .idle ∧ ∃ opc rest, decode s.cmdIn = .illegal opc rest ∧
      t = (State.latchPacket { s with cmdIn := rest } opc [] .operands).raise .illegalCommand opc := by
  unfold fetch at h
  split at h
  next hg hq =>
    split at h
    next => cases h
    next hd => cases h; exact ⟨hq, _, _, hd, rfl⟩
    next => cases h
  next => cases h

/-- In a turn of CORE `CTRL` stays, or the turn runs INIT or ends it. -/
theorem coreTurn_regsKept (h : coreTurn s = .next t) :
    RegsKept s.ctrl s t ∨ ((s.running = some .init ∨ s.atCtrlWrite) ∧ RegsKept ctrlInit s t) := by
  unfold coreTurn at h
  split at h
  next i u hf =>
    obtain ⟨hg, hq, rest, hd, rfl⟩ := fetch_run_cases hf
    have hk := exec_regsKept h
    split at hk
    next hi =>
      exact .inr ⟨.inl (by simp [State.running, hq, hg, hd, hi, Decoded.command?]), hk.congr_left rfl⟩
    next => exact .inl (hk.congr_left rfl)
  next hf =>
    obtain ⟨-, opc, rest, -, rfl⟩ := fetch_illegal_cases hf
    cases h
    exact .inl ((RegsKept.raise _ _ _).after rfl)
  next => exact (coreStep_regsKept h).imp_right fun ⟨ha, hk⟩ => ⟨.inr ha, hk⟩

/-- Under the invariant only INIT has own lines to do. -/
theorem State.Inv.running_of_atCtrlWrite (hi : s.Inv) (h : s.atCtrlWrite) : s.running = some .init := by
  obtain ⟨opc, latch, hq⟩ := h
  have hs := hi.seq
  simp only [seqOk, hq, workOk, posOk] at hs
  rcases hs with ⟨hp, -⟩ | ⟨v, hp, -⟩ | ⟨i, hd, rfl, -⟩
  · cases hp
  · cases hp
  · simp [State.running, hq, hd, Decoded.command?]

end

/-! ### The fault record and CTRL -/

/-- Settles O40: CORE records no fault over another by `RegsKept`, and of the host's moves only a reset
writes the record. -/
theorem faultSticky : Obligations.FaultSticky := by
  intro s t h0 hr h
  rcases step_cases h with
    ⟨r, -, hc⟩ | ⟨b, r, -, rfl⟩ | ⟨q, r, -, rfl⟩ | ⟨a, v, r, -, -, -, rfl⟩ | ⟨r, hh, -⟩
  · rcases coreTurn_regsKept hc with hk | ⟨-, hk⟩ <;> exact hk.fault_of_ne_zero h0
  · exact ⟨rfl, rfl⟩
  · exact ⟨rfl, rfl⟩
  · exact ⟨rfl, rfl⟩
  · exact absurd ⟨r, hh⟩ hr

/-- Settles O50: `CTRL` is the first field of `RegsKept`, for `exec` and for a turn of CORE; no move of
the host but a reset writes it. -/
theorem controlOnlyByInit : Obligations.ControlOnlyByInit := by
  refine ⟨fun s t i h => (exec_regsKept h).ctrl, fun s t hi h => ?_⟩
  rcases step_cases h with
    ⟨r, -, hc⟩ | ⟨b, r, -, rfl⟩ | ⟨q, r, -, rfl⟩ | ⟨a, v, r, -, -, -, rfl⟩ | ⟨r, hh, rfl⟩
  · rcases coreTurn_regsKept hc with hk | ⟨hrun, hk⟩
    · exact .inl hk.ctrl
    · exact .inr (.inl ⟨hrun.elim id hi.running_of_atCtrlWrite, hk.ctrl⟩)
  · exact .inl rfl
  · exact .inl rfl
  · exact .inl rfl
  · exact .inr (.inr ⟨⟨r, hh⟩, rfl⟩)

end Sys2Proof.Machine
end

section
/-! SUPPORT. Every turn of CORE is a sequence of micro-steps: the taking of a packet byte by byte, then each
command one micro-step at a time, up to the state `exec` gives. -/

namespace Sys2Proof.Machine

/-! ### Packets, whole and cut short -/

theorem decode_encode_append (i : Instr) (rest : List Byte) : decode (encode i ++ rest) = .command i rest := by
  cases i with
  | registerSlave =>
    simp [encode, decode, Instr.opcode, Instr.operandBytes, decodeRegister, rsvOf_byte3, bitOf_byte3,
      delayOf_halves]
  | init | readByte => simp [encode, decode, Instr.opcode, Instr.operandBytes]
  | select | deselect | writeByte | writeBytes | readBytes =>
    simp [encode, decode, Instr.opcode, Instr.operandBytes, decodeByteOperand]

theorem decode_encode (i : Instr) : decode (i.opcode :: i.operandBytes) = .command i [] := by
  simpa [encode] using decode_encode_append i []

/-- What the operand bytes of format R decode to, they encode. -/
theorem decodeRegister_cases {l rest : List Byte} {i : Instr} (h : decodeRegister l = .command i rest) :
    i.opcode = 0x02#8 ∧ l = i.operandBytes ++ rest := by
  unfold decodeRegister at h
  split at h
  · cases h
    simp [Instr.opcode, Instr.operandBytes, byte3_parts, delayLo_delayOf, delayHi_delayOf]
  · cases h

/-- What the operand byte of formats I, B, C and V decodes to. -/
theorem decodeByteOperand_cases {f : Byte → Instr} {l rest : List Byte} {i : Instr}
    (h : decodeByteOperand f l = .command i rest) : ∃ v, i = f v ∧ l = v :: rest := by
  cases l with
  | nil => cases h
  | cons v r => cases h; exact ⟨v, rfl, rfl⟩

theorem eq_encode_append_of_decode {bs rest : List Byte} {i : Instr} (h : decode bs = .command i rest) :
    bs = encode i ++ rest := by
  cases bs with
  | nil => cases h
  | cons opc l =>
    simp only [decode] at h
    split_ifs at h with h1 h2 h3 h4 h5 h6 h7 h8
    · cases h; rw [h1]; rfl
    · obtain ⟨ho, hl⟩ := decodeRegister_cases h
      rw [h2, hl, ← ho]; rfl
    · obtain ⟨v, rfl, rfl⟩ := decodeByteOperand_cases h
      rw [h3]; rfl
    · obtain ⟨v, rfl, rfl⟩ := decodeByteOperand_cases h
      rw [h4]; rfl
    · obtain ⟨v, rfl, rfl⟩ := decodeByteOperand_cases h
      rw [h5]; rfl
    · obtain ⟨v, rfl, rfl⟩ := decodeByteOperand_cases h
      rw [h6]; rfl
    · cases h; rw [h7]; rfl
    · obtain ⟨v, rfl, rfl⟩ := decodeByteOperand_cases h
      rw [h8]; rfl

theorem decodeByteOperand_ne_illegal {f : Byte → Instr} {l rest : List Byte} {c : Byte} :
    decodeByteOperand f l ≠ .illegal c rest := by
  cases l <;> simp [decodeByteOperand]

theorem decodeRegister_ne_illegal {l rest : List Byte} {c : Byte} : decodeRegister l ≠ .illegal c rest := by
  unfold decodeRegister
  split <;> simp

/-- Whether an opcode is illegal does not depend on what follows it (spec/30_encoding.md R65). -/
theorem decode_illegal_cases {bs rest : List Byte} {c : Byte} (h : decode bs = .illegal c rest) :
    bs = c :: rest ∧ ∀ l, decode (c :: l) = .illegal c l := by
  cases bs with
  | nil => cases h
  | cons opc r =>
    simp only [decode] at h
    split_ifs at h with h1 h2 h3 h4 h5 h6 h7 h8
    case neg => cases h; exact ⟨rfl, fun l => by simp only [decode, *, if_false]⟩
    case pos => exact absurd h decodeRegister_ne_illegal
    all_goals exact absurd h decodeByteOperand_ne_illegal

/-- A packet cut short is not complete (spec/30_encoding.md R67). -/
theorem decode_cut_more {i : Instr} {p q : List Byte} (h : i.operandBytes = p ++ q) (hq : q ≠ []) :
    decode (i.opcode :: p) = .more := by
  have hi : decode (i.opcode :: p ++ q) = .command i [] := by simpa [h] using decode_encode i
  cases hd : decode (i.opcode :: p) with
  | more => rfl
  | illegal c r =>
    obtain ⟨hc, hl⟩ := decode_illegal_cases hd
    rw [hc, List.cons_append, hl] at hi
    cases hi
  | command j r =>
    rw [eq_encode_append_of_decode hd, List.append_assoc, decode_encode_append, Decoded.command.injEq] at hi
    exact absurd (List.append_eq_nil_iff.mp hi.2).2 hq

/-- A byte completes a packet without anything left over. -/
theorem decode_snoc_complete {p r : List Byte} {b : Byte} {i : Instr} (hp : ∀ r, decode p ≠ .command i r)
    (h : decode (p ++ [b]) = .command i r) : r = [] := by
  rcases List.eq_nil_or_concat r with rfl | ⟨r', c, rfl⟩
  · rfl
  · have he := eq_encode_append_of_decode h
    rw [List.concat_eq_append, ← List.append_assoc] at he
    have hpe := (List.append_inj' he rfl).1
    exact absurd (hpe ▸ decode_encode_append i r') (hp r')

/-! ### Sequences of micro-steps -/

/-- CORE comes from `s` to `t` by micro-steps. -/
def CoreSteps : State → State → Prop := Relation.ReflTransGen fun s t => coreStep s = .next t

namespace CoreSteps

theorem refl (s : State) : CoreSteps s s := Relation.ReflTransGen.refl

theorem trans {s t u : State} (h : CoreSteps s t) (k : CoreSteps t u) : CoreSteps s u :=
  Relation.ReflTransGen.trans h k

theorem single {s t : State} (h : coreStep s = .next t) : CoreSteps s t := Relation.ReflTransGen.single h

/-- Under the fine grain, with no host move to make, a sequence of micro-steps is a run. -/
theorem runs {s t : State} (h : CoreSteps s t) (hg : s.grain = .fine) (hh : s.host = []) :
    ∃ n, s.runs n = .next t := by
  induction h using Relation.ReflTransGen.head_induction_on with
  | refl => exact ⟨0, rfl⟩
  | @head s u hs _ ih =>
    have hk := coreStep_keeps hs
    obtain ⟨n, hn⟩ := ih (hk.grain.trans hg) (hk.host.trans hh)
    have hc : coreTurn s = coreStep s := by simp only [coreTurn, fetch, hg]
    exact ⟨n + 1, by rw [State.runs_succ, step_of_host_nil hh, hc, hs, Out.andThen_next, hn]⟩

end CoreSteps

/-- `SEQ = BUSY` with the packet of `i` in the latches, at position `p` (spec/10_state.md R23). -/
def State.standsAt (s : State) (i : Instr) (p : Pos) : Prop :=
  ∃ opc latch, s.seq = .busy ⟨opc, latch, p⟩ ∧ decode (opc :: latch) = .command i []

/-- The same at any position. -/
def State.holds (s : State) (i : Instr) : Prop := ∃ p, s.standsAt i p

/-- A position of a command's own pseudocode, not one at a packet byte or at the status byte. -/
def Pos.isOwn : Pos → Bool
  | .operands => false
  | .status _ => false
  | .body | .ownLines _ | .storeSlot | .delay _ | .payload | .readNext | .shifting | .data _ => true

section
variable {s t : State} {i : Instr}

/-- An update that leaves the sequencer alone. -/
theorem State.holds.of_seq (h : s.holds i) (e : t.seq = s.seq) : t.holds i := by
  obtain ⟨pos, opc, latch, hq, hd⟩ := h
  exact ⟨pos, opc, latch, e.trans hq, hd⟩

theorem State.holds_begin (s : State) (i : Instr) : (s.begin i).holds i :=
  ⟨.body, i.opcode, i.operandBytes, rfl, decode_encode i⟩

/-- The micro-step of the command in the latches at one of its own positions. -/
theorem coreStep_moveTo (h : s.holds i) {p : Pos} (hp : p.isOwn = true) :
    coreStep (s.moveTo p) = microCommand i p (s.moveTo p) := by
  obtain ⟨pos, opc, latch, hq, hd⟩ := h
  have hm : (s.moveTo p).seq = .busy ⟨opc, latch, p⟩ := by simp [hq, Seq.moveTo]
  simp only [coreStep, hm]
  exact microStep_command (by rintro rfl; cases hp) (by rintro v rfl; cases hp) hd

/-- At the status byte CORE offers it, whatever the latches hold. -/
theorem CoreSteps.offerStatus {w : Work} (hq : s.seq = .busy w) (v : Byte) :
    CoreSteps (s.moveTo (.status v)) (s.putStatus v) := by
  have hm : (s.moveTo (.status v)).seq = .busy { w with pos := .status v } := by simp [hq, Seq.moveTo]
  refine .single ?_
  simp only [coreStep, hm, microStep, State.putStatus_moveTo]

/-- The status byte ends the command. -/
theorem CoreSteps.status (h : s.holds i) (v : Byte) : CoreSteps (s.moveTo (.status v)) (s.putStatus v) := by
  obtain ⟨pos, opc, latch, hq, -⟩ := h
  exact .offerStatus hq v

/-- One micro-step of the command, then the rest. -/
theorem CoreSteps.command {u : State} (h : s.holds i) {p : Pos} (hp : p.isOwn = true)
    (hm : microCommand i p (s.moveTo p) = .next u) (hr : CoreSteps u t) : CoreSteps (s.moveTo p) t :=
  (CoreSteps.single ((coreStep_moveTo h hp).trans hm)).trans hr

/-! ### Operations and the position -/

theorem State.rmw_moveTo {a : Nat} {set clear : Byte} {e : Event} (h : s.rmw a set clear e = .next t) (p : Pos) :
    (s.moveTo p).rmw a set clear e = .next (t.moveTo p) := by
  obtain ⟨hx, rfl⟩ := State.rmw_cases h
  exact State.rmw_next _ _ _ hx

theorem State.writeSlot_moveTo (s : State) (id : Byte) (d : Slot) (p : Pos) :
    (s.moveTo p).writeSlot id d = (s.writeSlot id d).moveTo p := by
  unfold State.writeSlot
  split <;> rfl

theorem State.takeRsp_moveTo (s : State) (v : Byte) (p : Pos) :
    (s.moveTo p).takeRsp v = (s.takeRsp v).map (·.moveTo p) := by
  by_cases h : s.takes 1
  · rw [State.takeRsp_takes v h, State.takeRsp_takes (s := s.moveTo p) v h]; rfl
  · rw [State.takeRsp_holds v h, State.takeRsp_holds (s := s.moveTo p) v h]; rfl

theorem State.sckRise_moveTo (s : State) (p : Pos) : (s.moveTo p).sckRise = s.sckRise.moveTo p := by
  unfold State.sckRise State.sampleMiso
  rw [State.moveTo_miso]
  cases s.miso <;> rfl

theorem State.sckFall_moveTo (s : State) (p : Pos) : (s.moveTo p).sckFall = s.sckFall.moveTo p := by
  unfold State.sckFall
  rw [State.moveTo_sck]
  cases s.sck <;> rfl

/-- A rising edge samples `miso` and changes nothing else but the draws. -/
theorem State.sckRise_frame (s : State) : ∃ b m r, s.sckRise = { s with sck := .high b, miso := m, draws := r } := by
  unfold State.sckRise State.sampleMiso
  split <;> exact ⟨_, _, _, rfl⟩

/-! ### Taking a packet -/

/-- The operand bytes of a packet offered whole are taken one by one (spec/20_memory.md R48). -/
theorem CoreSteps.operands {p q rest : List Byte} (hq : q ≠ []) (ho : i.operandBytes = p ++ q)
    (hs : s.seq = .busy ⟨i.opcode, p, .operands⟩) (hc : s.cmdIn = q ++ rest) :
    CoreSteps s (State.begin { s with cmdIn := rest } i) := by
  induction q generalizing s p with
  | nil => exact absurd rfl hq
  | cons b q ih =>
    have ho' : i.operandBytes = (p ++ [b]) ++ q := by simpa using ho
    have hstep : coreStep s = .next (State.acceptPacket { s with cmdIn := q ++ rest } i.opcode (p ++ [b])) := by
      simp only [coreStep, hs, microStep, State.takeOperand, State.cmdNext, hc, List.cons_append]
    refine (CoreSteps.single hstep).trans ?_
    by_cases hn : q = []
    · subst hn
      rw [List.append_nil] at ho'
      simp only [State.acceptPacket, ← ho', decode_encode, List.nil_append]
      exact .refl _
    · simp only [State.acceptPacket, decode_cut_more ho' hn]
      exact ih (s := State.latchPacket { s with cmdIn := q ++ rest } i.opcode (p ++ [b]) .operands) hn ho' rfl rfl

/-- A packet offered whole in `IDLE` is taken byte by byte (spec/10_state.md R22). -/
theorem CoreSteps.packet {rest : List Byte} (hq : s.seq = .idle) (hd : decode s.cmdIn = .command i rest) :
    CoreSteps s (State.begin { s with cmdIn := rest } i) := by
  have hc : s.cmdIn = i.opcode :: (i.operandBytes ++ rest) := eq_encode_append_of_decode hd
  have hstep : coreStep s = .next (State.acceptPacket { s with cmdIn := i.operandBytes ++ rest } i.opcode []) := by
    simp only [coreStep, hq, State.takeOpcode, State.cmdNext, hc]
  refine (CoreSteps.single hstep).trans ?_
  by_cases hn : i.operandBytes = []
  · have hi : decode [i.opcode] = .command i [] := by simpa only [hn] using decode_encode i
    simp only [State.acceptPacket, hi, hn, List.nil_append, State.latchPacket, State.begin]
    exact .refl _
  · simp only [State.acceptPacket, decode_cut_more (p := []) rfl hn]
    exact CoreSteps.operands
      (s := State.latchPacket { s with cmdIn := i.operandBytes ++ rest } i.opcode [] .operands) hn rfl rfl rfl

/-- An illegal opcode is taken, and its status byte answers it (spec/60_exceptions.md R132). -/
theorem CoreSteps.illegal {opc : Byte} {rest : List Byte} (hq : s.seq = .idle)
    (hd : decode s.cmdIn = .illegal opc rest) :
    CoreSteps s ((State.latchPacket { s with cmdIn := rest } opc [] .operands).raise .illegalCommand opc) := by
  obtain ⟨hc, hl⟩ := decode_illegal_cases hd
  obtain ⟨a, b, h, e⟩ := State.enterFault_frame (State.latchPacket { s with cmdIn := rest } opc [] .operands)
    .illegalCommand opc
  refine (CoreSteps.single ?_).trans (.offerStatus (w := ⟨opc, [], .operands⟩) (by rw [e]; rfl) _)
  simp only [coreStep, hq, State.takeOpcode, State.cmdNext, hc, State.acceptPacket, hl]
  rfl

/-! ### The shifter -/

/-- The passes of the shifter, edge by edge (spec/43_transfer.md R113). -/
theorem CoreSteps.passes {n : Nat} (h : s.holds i) (hn : s.bitcnt.toNat = n) (ht : n ≠ 0 → s.tc = false)
    (hk : s.sck = .low) : CoreSteps (s.moveTo .shifting) ((State.shiftBits n s).moveTo .shifting) := by
  induction n generalizing s with
  | zero => exact .refl _
  | succ n ih =>
    have htc : s.tc = false := ht (by omega)
    have hb : s.bitcnt ≠ 0#4 := fun e => by simp [e] at hn
    obtain ⟨b, m, r, hr⟩ := s.sckRise_frame
    have hrise : microCommand i .shifting (s.moveTo .shifting) = .next (s.sckRise.moveTo .shifting) := by
      simp [microCommand, microShifter, htc, hb, hk, State.sckRise_moveTo]
    have hfall : microCommand i .shifting (s.sckRise.moveTo .shifting) = .next (s.shiftBit.moveTo .shifting) := by
      have hf : s.shiftBit.moveTo .shifting = (s.sckRise.moveTo .shifting).sckFall := by
        rw [State.sckFall_moveTo]; rfl
      simp [microCommand, microShifter, hf, hr, htc, hb]
    obtain ⟨hcnt, hlow, htcb⟩ := s.shiftBit_count
    have hseq : s.shiftBit.seq = s.seq := by simp [State.shiftBit, State.sckFall, hr]
    have hn' : s.shiftBit.bitcnt.toNat = n := by rw [hcnt]; bv_omega
    refine .command h rfl hrise (.command (h.of_seq (by rw [hr])) rfl hfall ?_)
    refine ih (h.of_seq hseq) hn' (fun h0 => ?_) hlow
    have hne : s.bitcnt - 1#4 ≠ 0#4 := fun e => h0 (by rw [← hn', hcnt, e]; rfl)
    rw [htcb, tcAfterBit, if_neg hne, htc]

/-- What a transfer command does at the end of an exchange does not depend on the position. -/
theorem microExchanged_moveTo (hi : isTransfer i = true) (s : State) (p : Pos) :
    microExchanged i (s.moveTo p) = microExchanged i s := by
  cases i with
  | writeByte | readByte | readBytes => exact State.moveTo_moveTo s.readData _ _
  | writeBytes => exact State.moveTo_moveTo s.readData.countByte _ _
  | init | registerSlave | select | deselect => cases hi

/-- An exchange that completes, up to the step in which the sequencer reads `DATA`. -/
theorem CoreSteps.exchange {tx rx : Byte} (hi : isTransfer i = true) (h : s.holds i) (hk : s.sck = .low)
    (hx : s.exchange tx = .done rx t) :
    ∃ u : State, CoreSteps ((s.loadData tx).moveTo .shifting) (microExchanged i u) ∧
      u.data = rx ∧ u.readData = t ∧ t.holds i ∧ t.sck = .low ∧ t.cnt = s.cnt := by
  have he : s.enabled = true := by
    rcases State.exchange_cases s tx with ⟨-, -, -, he, -⟩ | ⟨-, e⟩
    · exact he
    · cases e.symm.trans hx
  obtain ⟨-, hlow, htc⟩ := State.shiftBits_eight (s := s.loadData tx) (by simp [he])
  obtain ⟨d, tc, b, k, m, r, hf⟩ := State.shiftBits_frame 8 (s.loadData tx)
  have hu : (State.shiftBits 8 (s.loadData tx)).holds i := h.of_seq (by rw [hf]; rfl)
  simp only [State.exchange, he, if_true, Xfer.done.injEq] at hx
  obtain ⟨hd, rfl⟩ := hx
  refine ⟨State.shiftBits 8 (s.loadData tx), ?_, hd, rfl, hu, hlow, by rw [hf]; rfl⟩
  refine (CoreSteps.passes (s := s.loadData tx) (n := 8) h (by simp [he]) (fun _ => rfl) hk).trans ?_
  exact .command hu rfl (by simp [microCommand, htc, microExchanged_moveTo hi]) (.refl _)

/-- An exchange that hangs stands at `shifting`. -/
theorem exchange_stuck_cases {tx : Byte} (hx : s.exchange tx = .stuck t) :
    t = (s.loadData tx).moveTo .shifting := by
  unfold State.exchange at hx
  split at hx
  · cases hx
  · exact (Xfer.stuck.inj hx).symm

/-! ### The delay counter -/

/-- The count of `Wait`, DQ by DQ (spec/42_select.md R100). -/
theorem CoreSteps.delay {n : Nat} (h : s.holds i) (d : Delay) (hn : s.dcnt.toNat = n) :
    CoreSteps (s.moveTo (.delay d)) ((s.wait d).moveTo (.status statusOk)) := by
  induction n generalizing s with
  | zero =>
    have h0 : s.dcnt = 0x0000#16 := BitVec.eq_of_toNat_eq hn
    have hw : s.wait d = s.emit (.wait d) := by unfold State.wait; rw [← h0]
    refine .command h rfl ?_ (.refl _)
    simp only [microCommand, microDelay, State.moveTo_dcnt, h0, if_true, hw]
    exact congrArg Host.Outcome.next (State.moveTo_moveTo (s.emit (.wait d)) _ _)
  | succ n ih =>
    have hne : s.dcnt ≠ 0x0000#16 := fun e => by simp [e] at hn
    have hn' : (s.dcnt - 1#16).toNat = n := by bv_omega
    refine .command (u := State.moveTo { s with dcnt := s.dcnt - 1#16 } (.delay d)) h rfl ?_
      (ih (s := { s with dcnt := s.dcnt - 1#16 }) h hn')
    simp only [microCommand, microDelay, State.moveTo_dcnt, hne, if_false]
    rfl

end

end Sys2Proof.Machine
end

section
/-! SUPPORT. Each command, one micro-step at a time: from its packet to the state `exec` gives. -/

namespace Sys2Proof.Machine

namespace CoreSteps

section
variable {s t : State} {i : Instr}

/-! ### INIT (spec/41_init.md R92) -/

theorem ownLines {ls : List Line} (h : s.holds i) (hd : State.dirSetAll ls s = .next t) :
    t.holds i ∧ CoreSteps (s.moveTo (.ownLines ls)) (t.moveTo (.ownLines [])) := by
  induction ls generalizing s with
  | nil => cases hd; exact ⟨h, .refl _⟩
  | cons l rest ih =>
    obtain ⟨u, hu, ht⟩ := Out.andThen_eq_next.mp hd
    obtain ⟨-, hr⟩ := State.rmw_cases hu
    obtain ⟨htH, hsteps⟩ := ih (h.of_seq (by rw [hr]; rfl)) ht
    refine ⟨htH, .command (u := u.moveTo (.ownLines rest)) h rfl ?_ hsteps⟩
    have hm : (s.moveTo (.ownLines (l :: rest))).dirSet l.port l.bit = .next (u.moveTo (.ownLines (l :: rest))) :=
      State.rmw_moveTo hu _
    simp only [microCommand, microOwnLines, hm, Out.andThen_next, State.moveTo_moveTo]

theorem init (h : execInit s = .next t) : CoreSteps (s.begin .init) t := by
  obtain ⟨u, hu, ht⟩ := Out.andThen_eq_next.mp h
  cases ht
  have hb := s.holds_begin .init
  obtain ⟨hH, hsteps⟩ := ownLines hb hu
  refine .command (p := .body) hb rfl rfl (hsteps.trans ?_)
  refine .command (u := (u.writeCtrl ctrlInit).moveTo (.status statusOk)) hH rfl ?_
    (.status (s := u.writeCtrl ctrlInit) hH _)
  exact congrArg Host.Outcome.next (State.moveTo_moveTo (u.writeCtrl ctrlInit) _ _)

/-! ### REGISTER_SLAVE, SELECT, DESELECT (spec/40_registry.md R81, 42_select.md R102, R104) -/

/-- A fault of the command in the latches. -/
theorem raise (h : s.holds i) (f : CoreFault) (info : Byte) : CoreSteps (s.microRaise f info) (s.raise f info) := by
  obtain ⟨a, b, hist, e⟩ := State.enterFault_frame s f info
  exact .status (h.of_seq (by rw [e])) _

theorem registerSlave {id port : Byte} {rsv : BitVec 5} {bit : BitPos} {sel desel : Delay}
    (h : execRegisterSlave id port rsv bit sel desel s = .next t) :
    CoreSteps (s.begin (.registerSlave id port rsv bit sel desel)) t := by
  have hb := s.holds_begin (.registerSlave id port rsv bit sel desel)
  unfold execRegisterSlave at h
  split at h
  next f info hf =>
    cases h
    refine .command (p := .body) hb rfl ?_ (.raise hb f info)
    simp only [microCommand, microBody, State.moveTo_cfg, State.begin_cfg, hf]
    rfl
  next hf =>
    obtain ⟨u, hu, ht⟩ := Out.andThen_eq_next.mp h
    cases ht
    obtain ⟨-, hr⟩ := State.rmw_cases hu
    have hH : u.holds (.registerSlave id port rsv bit sel desel) := hb.of_seq (by rw [hr]; rfl)
    obtain ⟨x, hx⟩ := State.writeSlot_frame u id ⟨port, bit, sel, desel⟩
    refine .command (p := .body) (u := u.moveTo .storeSlot) hb rfl ?_ ?_
    · have hm : ((s.begin (.registerSlave id port rsv bit sel desel)).moveTo .body).lineSet port bit =
        .next u := hu
      simp only [microCommand, microBody, State.moveTo_cfg, State.begin_cfg, hf, hm, Out.andThen_next]
    · refine .command (u := (u.writeSlot id ⟨port, bit, sel, desel⟩).moveTo (.status statusOk)) hH rfl ?_
        (.status (hH.of_seq (by rw [hx])) _)
      simp only [microCommand, microStoreSlot, State.writeSlot_moveTo, State.moveTo_moveTo]

/-- The line write of SELECT and DESELECT, the wait after it, and the status byte. -/
theorem lineWait {a : Nat} {set clear : Byte} {e : Event} {d : Delay} (h : s.holds i)
    (ht : (s.rmw a set clear e).andThen (fun u => .next ((u.wait d).putStatus statusOk)) = .next t) :
    ∃ u, s.rmw a set clear e = .next u ∧ CoreSteps (State.moveTo { u with dcnt := d } (.delay d)) t := by
  obtain ⟨u, hu, ht⟩ := Out.andThen_eq_next.mp ht
  cases ht
  have hH : u.holds i := h.of_seq (by rw [(State.rmw_cases hu).2]; rfl)
  exact ⟨u, hu, (delay (s := { u with dcnt := d }) hH d rfl).trans (.status (s := u.wait d) hH _)⟩

theorem select {id : Byte} (h : execSelect id s = .next t) : CoreSteps (s.begin (.select id)) t := by
  have hb := s.holds_begin (.select id)
  unfold execSelect at h
  split at h
  next f hf =>
    cases h
    have hm : ((s.begin (.select id)).moveTo .body).lookup id = .error f := hf
    refine .command (p := .body) hb rfl ?_ (.raise hb f id)
    simp only [microCommand, microBody, hm]
    rfl
  next d hf =>
    obtain ⟨u, hu, hsteps⟩ := lineWait hb h
    have hm : ((s.begin (.select id)).moveTo .body).lookup id = .ok d := hf
    have hc : ((s.begin (.select id)).moveTo .body).lineClear d.port d.bit = .next u := hu
    refine .command (p := .body) hb rfl ?_ hsteps
    simp only [microCommand, microBody, hm, hc, Out.andThen_next]

theorem deselect {id : Byte} (h : execDeselect id s = .next t) : CoreSteps (s.begin (.deselect id)) t := by
  have hb := s.holds_begin (.deselect id)
  unfold execDeselect at h
  split at h
  next f hf =>
    cases h
    have hm : ((s.begin (.deselect id)).moveTo .body).lookup id = .error f := hf
    refine .command (p := .body) hb rfl ?_ (.raise hb f id)
    simp only [microCommand, microBody, hm]
    rfl
  next d hf =>
    obtain ⟨u, hu, hsteps⟩ := lineWait hb h
    have hm : ((s.begin (.deselect id)).moveTo .body).lookup id = .ok d := hf
    have hc : ((s.begin (.deselect id)).moveTo .body).lineSet d.port d.bit = .next u := hu
    refine .command (p := .body) hb rfl ?_ hsteps
    simp only [microCommand, microBody, hm, hc, Out.andThen_next]

/-! ### WRITE_BYTE and READ_BYTE (spec/43_transfer.md R115, R119) -/

theorem writeByte {b : Byte} (hk : s.sck = .low) (h : execWriteByte b s = .next t) :
    CoreSteps (s.begin (.writeByte b)) t := by
  have hb := s.holds_begin (.writeByte b)
  refine .command (p := .body) (u := ((s.begin (.writeByte b)).loadData b).moveTo .shifting) hb rfl rfl ?_
  unfold execWriteByte at h
  split at h
  next rx u hx =>
    cases h
    obtain ⟨v, hsteps, -, rfl, hH, -, -⟩ := exchange rfl hb hk hx
    exact hsteps.trans (.status hH _)
  next u hx =>
    cases h
    rw [exchange_stuck_cases hx]
    exact .refl _

theorem readByte (hk : s.sck = .low) (h : execReadByte s = .next t) : CoreSteps (s.begin .readByte) t := by
  have hb := s.holds_begin .readByte
  refine .command (p := .body) (u := ((s.begin .readByte).loadData dummyByte).moveTo .shifting) hb rfl rfl ?_
  unfold execReadByte at h
  split at h
  next rx u hx =>
    obtain ⟨v, hsteps, rfl, rfl, hH, -, -⟩ := exchange rfl hb hk hx
    refine hsteps.trans ?_
    split at h
    next u hr =>
      cases h
      refine .command (u := u.moveTo (.status statusOk)) hH rfl ?_ (.status (hH.of_seq ?_) _)
      · simp only [microCommand, microData, State.takeRsp_moveTo, hr, Option.map_some, State.moveTo_moveTo]
      · rw [(State.takeRsp_cases hr).2]; rfl
    next =>
      cases h
      exact .refl _
  next u hx =>
    cases h
    rw [exchange_stuck_cases hx]
    exact .refl _

/-! ### WRITE_BYTES and READ_BYTES (spec/43_transfer.md R117, R121) -/

/-- `CNT` above 0, counted down. -/
theorem cnt_pred {c : Byte} {n : Nat} (h : c.toNat = n + 1) : c ≠ 0x00#8 ∧ (c - 1#8).toNat = n := by
  constructor <;> bv_omega

theorem writeLoop {m : Byte} {n : Nat} (h : s.holds (.writeBytes m)) (hk : s.sck = .low) (hn : s.cnt.toNat = n) :
    CoreSteps (s.moveTo .payload) (writeLoop n s) := by
  induction n generalizing s with
  | zero =>
    have h0 : s.cnt = 0x00#8 := BitVec.eq_of_toNat_eq hn
    refine .command (u := s.moveTo (.status statusOk)) h rfl ?_ (.status h _)
    simp only [microCommand, microPayload, State.moveTo_cnt, h0, if_true, State.moveTo_moveTo]
  | succ n ih =>
    obtain ⟨hne, hpred⟩ := cnt_pred hn
    unfold Machine.writeLoop
    cases hc : s.cmdIn with
    | nil => simp only [State.cmdNext, hc]; exact .refl _
    | cons b rest =>
      simp only [State.cmdNext, hc]
      refine .command (u := (State.loadData { s with cmdIn := rest } b).moveTo .shifting) h rfl ?_ ?_
      · simp only [microCommand, microPayload, State.moveTo_cnt, hne, if_false, State.cmdNext, State.moveTo_cmdIn,
          hc]
        exact congrArg Host.Outcome.next (State.moveTo_moveTo (State.loadData { s with cmdIn := rest } b) _ _)
      split
      next rx u hx =>
        obtain ⟨v, hsteps, -, rfl, hH, hlow, hcnt⟩ := exchange (s := { s with cmdIn := rest }) rfl h hk hx
        refine hsteps.trans (ih (s := v.readData.countByte) hH hlow ?_)
        rw [State.countByte_cnt, hcnt, hpred]
      next u hx =>
        rw [exchange_stuck_cases hx]
        exact .refl _

theorem readLoop {m : Byte} {n : Nat} (h : s.holds (.readBytes m)) (hk : s.sck = .low) (hn : s.cnt.toNat = n) :
    CoreSteps (s.moveTo .readNext) (readLoop n s) := by
  induction n generalizing s with
  | zero =>
    have h0 : s.cnt = 0x00#8 := BitVec.eq_of_toNat_eq hn
    refine .command (u := s.moveTo (.status statusOk)) h rfl ?_ (.status h _)
    simp only [microCommand, microReadNext, State.moveTo_cnt, h0, if_true, State.moveTo_moveTo]
  | succ n ih =>
    obtain ⟨hne, hpred⟩ := cnt_pred hn
    unfold Machine.readLoop
    refine .command (u := (s.loadData dummyByte).moveTo .shifting) h rfl ?_ ?_
    · simp only [microCommand, microReadNext, State.moveTo_cnt, hne, if_false]
      exact congrArg Host.Outcome.next (State.moveTo_moveTo (s.loadData dummyByte) _ _)
    split
    next rx u hx =>
      obtain ⟨v, hsteps, rfl, rfl, hH, hlow, hcnt⟩ := exchange rfl h hk hx
      refine hsteps.trans ?_
      split
      next u hr =>
        obtain ⟨-, rfl⟩ := State.takeRsp_cases hr
        refine .command (p := .data v.data) (u := (v.readData.taken v.data).countByte.moveTo .readNext) hH rfl ?_
          (ih (s := (v.readData.taken v.data).countByte) hH hlow ?_)
        · simp only [microCommand, microData, State.takeRsp_moveTo, hr, Option.map_some]
          exact congrArg Host.Outcome.next (State.moveTo_moveTo (v.readData.taken v.data).countByte _ _)
        · show (v.readData.cnt - 1#8).toNat = n
          rw [hcnt, hpred]
      next => exact .refl _
    next u hx =>
      rw [exchange_stuck_cases hx]
      exact .refl _

end

end CoreSteps

/-! ### Every command -/

section
variable {s t : State}

/-- From the packet of a command to the state `exec` gives. -/
theorem exec_coreSteps {i : Instr} (hk : s.sck = .low) (h : exec i s = .next t) : CoreSteps (s.begin i) t := by
  cases i with
  | init => exact .init h
  | registerSlave => exact .registerSlave h
  | select => exact .select h
  | deselect => exact .deselect h
  | writeByte => exact .writeByte hk h
  | readByte => exact .readByte hk h
  | writeBytes n =>
    cases h
    have hb := s.holds_begin (.writeBytes n)
    exact .command (p := .body) hb rfl rfl
      (CoreSteps.writeLoop (s := { s.begin (.writeBytes n) with cnt := n }) hb hk rfl)
  | readBytes n =>
    cases h
    have hb := s.holds_begin (.readBytes n)
    exact .command (p := .body) hb rfl rfl
      (CoreSteps.readLoop (s := { s.begin (.readBytes n) with cnt := n }) hb hk rfl)

/-- Under either grain a turn of CORE is a sequence of micro-steps. -/
theorem coreTurn_coreSteps (hk : s.seq = .idle → s.sck = .low) (h : coreTurn s = .next t) : CoreSteps s t := by
  unfold coreTurn at h
  split at h
  next i u hf =>
    obtain ⟨-, hq, rest, hd, rfl⟩ := fetch_run_cases hf
    exact (CoreSteps.packet hq hd).trans (exec_coreSteps (hk hq) h)
  next u hf =>
    obtain ⟨hq, opc, rest, hd, rfl⟩ := fetch_illegal_cases hf
    cases h
    exact .illegal hq hd
  next => exact .single h

end

/-- Under the invariant the shifter is at rest in `IDLE`. -/
theorem State.Inv.sck_of_idle {s : State} (hi : s.Inv) (hq : s.seq = .idle) : s.sck = .low := by
  have hz := hi.seq
  rw [seqOk, hq] at hz
  obtain ⟨-, -, -, hk⟩ := hz
  exact hk

/-- Settles O6: the packet is taken byte by byte, the command's micro-steps lead where `exec` does, and
under the fine grain a sequence of micro-steps is a run. -/
theorem microStepsReachExec : Obligations.MicroStepsReachExec := by
  intro s t i rest hi hh hg hq hd h
  have hk : s.sck = .low := hi.sck_of_idle hq
  exact ((CoreSteps.packet hq hd).trans (exec_coreSteps (s := { s with cmdIn := rest }) hk h)).runs hg hh

end Sys2Proof.Machine
end

section
/-! SUPPORT. The invariant of CORE: where the sequencer stands after each micro-step and what the slots
and the counters hold there; `CTRL`, the fault record and the line registers are `RegsKept`. -/

namespace Sys2Proof.Machine

/-! ### Positions that fit the state -/

/-- The slots name existing ports, and `SEQ` fits the state. -/
structure State.SeqInv (s : State) : Prop where
  slots : slotsOk s
  seq : seqOk s

section
variable {s t : State} {i : Instr} {p q : Pos}

/-- The command stands at a position that fits. -/
theorem State.SeqInv.stays (hs : slotsOk t) (h : t.standsAt i p) (hp : posOk i p t) : t.SeqInv := by
  obtain ⟨opc, latch, hq, hd⟩ := h
  exact ⟨hs, by rw [seqOk, hq]; exact .inr (.inr ⟨i, hd, hp⟩)⟩

/-- The command goes on at another position that fits. -/
theorem State.SeqInv.moveTo (hs : slotsOk t) (h : t.standsAt i q) (hp : posOk i p t) : (t.moveTo p).SeqInv := by
  obtain ⟨opc, latch, hq, hd⟩ := h
  exact .stays hs ⟨opc, latch, by rw [State.moveTo_seq, hq]; rfl, hd⟩ hp

/-- The command goes on to its status byte. -/
theorem State.SeqInv.status {w : Work} (hs : slotsOk t) (hq : t.seq = .busy w) {v : Byte} (hv : v.toNat ≤ 4)
    (hf : v ≠ statusOk → t.fault ≠ 0x00#8) (hz : countersIdle t) : (t.moveTo (.status v)).SeqInv := by
  refine ⟨hs, ?_⟩
  rw [seqOk, State.moveTo_seq, hq]
  exact .inr (.inl ⟨v, rfl, hv, hf, hz⟩)

/-- The command goes on to the status byte of a command that completed. -/
theorem State.SeqInv.completed (hs : slotsOk t) (h : t.standsAt i q) (hz : countersIdle t) :
    (t.moveTo (.status statusOk)).SeqInv := by
  obtain ⟨opc, latch, hq, -⟩ := h
  exact .status hs hq (by decide) (fun h => absurd rfl h) hz

theorem CoreFault.code_toNat_le (f : CoreFault) : f.code.toNat ≤ 4 := by cases f <;> decide

theorem CoreFault.code_ne_zero (f : CoreFault) : f.code ≠ 0x00#8 := by cases f <;> decide

/-- After `raise` there is a fault on record. -/
theorem State.recordFault_fault_ne_zero (s : State) (f : CoreFault) (info : Byte) :
    (s.recordFault f info).fault ≠ 0x00#8 := by
  unfold State.recordFault
  split
  · exact f.code_ne_zero
  · assumption

/-- The command goes on to the status byte of a fault. -/
theorem State.SeqInv.microRaise {w : Work} (hs : slotsOk t) (hq : t.seq = .busy w) (hz : countersIdle t)
    (f : CoreFault) (info : Byte) : (t.microRaise f info).SeqInv := by
  have hf : (t.enterFault f info).fault ≠ 0x00#8 := t.recordFault_fault_ne_zero f info
  obtain ⟨a, b, h, e⟩ := State.enterFault_frame t f info
  rw [State.microRaise]
  rw [e] at hf ⊢
  exact .status (t := { t with fault := a, finfo := b, hist := h }) hs hq f.code_toNat_le (fun _ => hf) hz

/-- A line write and the move to another position. -/
theorem State.SeqInv.rmw_andThen {a : Nat} {set clear : Byte} {e : Event} {f : State → State}
    (h : (s.rmw a set clear e).andThen (fun u => .next (f u)) = .next t)
    (hf : ∀ x y, State.SeqInv (f { s with lines := x, hist := y })) : t.SeqInv := by
  obtain ⟨u, hu, ht⟩ := Out.andThen_eq_next.mp h
  cases ht
  obtain ⟨-, rfl⟩ := State.rmw_cases hu
  exact hf _ _

/-- Storing a slot with a legal port. -/
theorem slotsOk_writeSlot (hs : slotsOk s) {d : Slot} (hp : portLegal s.cfg.nports d.port = true) (id : Byte) :
    slotsOk (s.writeSlot id d) := by
  intro j e hj
  obtain ⟨x, hx⟩ := State.writeSlot_frame s id d
  have hc : (s.writeSlot id d).cfg = s.cfg := by rw [hx]
  rw [hc]
  by_cases hji : j = id
  · subst hji
    cases hl : idLegal j
    · simp [State.slot, slotIndex_of_not_idLegal hl] at hj
    · rw [State.writeSlot_slot_same _ _ hl] at hj
      cases hj
      exact hp
  · rw [State.writeSlot_slot_other _ _ hji] at hj
    exact hs j e hj

/-! ### Taking a packet -/

/-- With the packet so far not a whole command, the next byte leaves a position that fits. -/
theorem acceptPacket_seqInv {opc : Byte} {latch : List Byte} (hs : slotsOk s) (hz : countersIdle s)
    (hc : ∀ i r, decode (opc :: latch) = .command i r → r = []) : (s.acceptPacket opc latch).SeqInv := by
  unfold State.acceptPacket
  split
  next i r hd =>
    have hr := hc i r hd
    subst hr
    exact .stays (t := s.latchPacket opc latch .body) hs ⟨opc, latch, rfl, hd⟩ hz
  next hd => exact ⟨hs, .inl ⟨rfl, hd, hz⟩⟩
  next => exact .microRaise (t := s.latchPacket opc latch .operands) hs rfl hz _ _

theorem takeOpcode_seqInv (h : s.SeqInv) (hz : countersIdle s) : s.takeOpcode.SeqInv := by
  unfold State.takeOpcode State.cmdNext
  cases s.cmdIn with
  | nil => exact h
  | cons b rest =>
    exact acceptPacket_seqInv (s := { s with cmdIn := rest }) h.slots hz
      fun i r hd => decode_snoc_complete (p := []) (by simp [decode]) hd

theorem takeOperand_seqInv {w : Work} (h : s.SeqInv) (hm : decode (w.opc :: w.latch) = .more)
    (hz : countersIdle s) : (s.takeOperand w).SeqInv := by
  unfold State.takeOperand State.cmdNext
  cases s.cmdIn with
  | nil => exact h
  | cons b rest =>
    exact acceptPacket_seqInv (s := { s with cmdIn := rest }) h.slots hz
      fun i r hd => decode_snoc_complete (p := w.opc :: w.latch) (by simp [hm]) hd

/-- Offering the status byte, whether the host takes it or not. -/
theorem putStatus_seqInv {w : Work} {v : Byte} (hs : slotsOk s) (hq : s.seq = .busy w) (hv : v.toNat ≤ 4)
    (hf : v ≠ statusOk → s.fault ≠ 0x00#8) (hz : countersIdle s) : (s.putStatus v).SeqInv := by
  by_cases ht : s.takes 1
  · rw [State.putStatus_takes v ht]
    refine ⟨hs, ?_⟩
    unfold seqOk seqAfterStatus
    by_cases hi : v = CoreFault.illegalCommand.code
    · simp only [hi, if_true]
      exact ⟨hz, hf (by rw [hi]; decide)⟩
    · simp only [hi, if_false]
      exact hz
  · rw [State.putStatus_holds v ht]
    exact .status hs hq hv hf hz

/-! ### The command in the latches -/

/-- The start of an exchange from rest (spec/43_transfer.md R110, R111). -/
theorem shiftingOk_loadData (h : shifterIdle s) (tx : Byte) : shiftingOk (s.loadData tx) := by
  obtain ⟨hb, hk⟩ := h
  have he : (s.loadData tx).enabled = s.enabled := rfl
  unfold shiftingOk
  rw [he, State.loadData_bitcnt, State.loadData_tc, State.loadData_sck, hk]
  cases s.enabled <;> simp [hb]

theorem microBody_seqInv (hs : slotsOk s) (h : s.standsAt i .body) (hz : countersIdle s)
    (hm : microBody i s = .next t) : t.SeqInv := by
  have ⟨opc, latch, hq, _⟩ := h
  obtain ⟨hcnt, hdcnt, hsh⟩ := hz
  cases i with
  | init =>
    cases hm
    exact .moveTo hs h ⟨rfl, List.suffix_rfl, hcnt, hdcnt, hsh⟩
  | registerSlave id port rsv bit sel desel =>
    simp only [microBody] at hm
    split at hm
    next => cases hm; exact .microRaise hs hq ⟨hcnt, hdcnt, hsh⟩ _ _
    next hf =>
      obtain ⟨-, hp, -⟩ := registerFault_none.mp hf
      exact .rmw_andThen hm fun x y =>
        .moveTo (t := { s with lines := x, hist := y }) hs h ⟨hp, hcnt, hdcnt, hsh⟩
  | select id =>
    simp only [microBody] at hm
    split at hm
    next => cases hm; exact .microRaise hs hq ⟨hcnt, hdcnt, hsh⟩ _ _
    next d _ =>
      exact .rmw_andThen hm fun x y =>
        .moveTo (t := { s with lines := x, hist := y, dcnt := d.sel }) hs h ⟨hcnt, le_refl _, hsh⟩
  | deselect id =>
    simp only [microBody] at hm
    split at hm
    next => cases hm; exact .microRaise hs hq ⟨hcnt, hdcnt, hsh⟩ _ _
    next d _ =>
      exact .rmw_andThen hm fun x y =>
        .moveTo (t := { s with lines := x, hist := y, dcnt := d.desel }) hs h ⟨hcnt, le_refl _, hsh⟩
  | writeByte b =>
    cases hm
    exact .moveTo (t := s.loadData b) hs h ⟨hcnt, hdcnt, shiftingOk_loadData hsh b⟩
  | readByte =>
    cases hm
    exact .moveTo (t := s.loadData dummyByte) hs h ⟨hcnt, hdcnt, shiftingOk_loadData hsh dummyByte⟩
  | writeBytes n =>
    cases hm
    exact .moveTo (t := { s with cnt := n }) hs h ⟨⟨n, rfl, le_refl _⟩, hdcnt, hsh⟩
  | readBytes n =>
    cases hm
    exact .moveTo (t := { s with cnt := n }) hs h ⟨⟨n, rfl, le_refl _⟩, hdcnt, hsh⟩

theorem microOwnLines_seqInv {rest : List Line} (hs : slotsOk s) (h : s.standsAt i (.ownLines rest))
    (hp : posOk i (.ownLines rest) s) (hm : microOwnLines rest s = .next t) : t.SeqInv := by
  obtain ⟨rfl, hsuf, hz⟩ := hp
  cases rest with
  | nil =>
    cases hm
    exact .completed (t := s.writeCtrl ctrlInit) hs h hz
  | cons l more =>
    exact .rmw_andThen hm fun x y =>
      .moveTo (t := { s with lines := x, hist := y }) hs h ⟨rfl, (List.suffix_cons l more).trans hsuf, hz⟩

theorem microStoreSlot_seqInv (hs : slotsOk s) (h : s.standsAt i .storeSlot) (hp : posOk i .storeSlot s) :
    (microStoreSlot i s).SeqInv := by
  cases i with
  | registerSlave id port rsv bit sel desel =>
    obtain ⟨hport, hz⟩ := hp
    have hw := slotsOk_writeSlot (d := ⟨port, bit, sel, desel⟩) hs hport id
    obtain ⟨x, hx⟩ := State.writeSlot_frame s id ⟨port, bit, sel, desel⟩
    rw [hx] at hw
    simp only [microStoreSlot, hx]
    exact .completed hw h hz
  | init | select | deselect | writeByte | writeBytes | readByte | readBytes => exact hp.elim

theorem microDelay_seqInv {d : Delay} (hs : slotsOk s) (h : s.standsAt i (.delay d)) (hp : posOk i (.delay d) s) :
    (microDelay d s).SeqInv := by
  obtain ⟨hcnt, hle, hsh⟩ := hp
  unfold microDelay
  split
  next h0 => exact .completed (t := s.emit (.wait d)) hs h ⟨hcnt, h0, hsh⟩
  next h0 =>
    have hle' : (s.dcnt - 1#16).toNat ≤ d.toNat := by bv_omega
    exact .stays (t := { s with dcnt := s.dcnt - 1#16 }) hs h ⟨hcnt, hle', hsh⟩

theorem microPayload_seqInv (hs : slotsOk s) (h : s.standsAt i .payload) (hp : posOk i .payload s) :
    (microPayload s).SeqInv := by
  have hfits := hp
  obtain ⟨⟨n, rfl, hle⟩, hdcnt, hsh⟩ := hp
  unfold microPayload State.cmdNext
  split
  next h0 => exact .completed hs h ⟨h0, hdcnt, hsh⟩
  next h0 =>
    cases s.cmdIn with
    | nil => exact .stays hs h hfits
    | cons b rest =>
      exact .moveTo (t := State.loadData { s with cmdIn := rest } b) hs h
        ⟨⟨h0, hle⟩, hdcnt, shiftingOk_loadData (s := { s with cmdIn := rest }) hsh b⟩

theorem microReadNext_seqInv (hs : slotsOk s) (h : s.standsAt i .readNext) (hp : posOk i .readNext s) :
    (microReadNext s).SeqInv := by
  obtain ⟨⟨n, rfl, hle⟩, hdcnt, hsh⟩ := hp
  unfold microReadNext
  split
  next h0 => exact .completed hs h ⟨h0, hdcnt, hsh⟩
  next h0 =>
    exact .moveTo (t := s.loadData dummyByte) hs h ⟨⟨h0, hle⟩, hdcnt, shiftingOk_loadData hsh dummyByte⟩

/-- An edge of `sck` during an exchange (spec/43_transfer.md R113). -/
theorem microShifter_frame (s : State) : ∃ d tc b k m r, microShifter s =
    { s with data := d, tc := tc, bitcnt := b, sck := k, miso := m, draws := r } := by
  unfold microShifter
  split
  · exact ⟨_, _, _, _, _, _, rfl⟩
  · split
    · obtain ⟨b, m, r, e⟩ := s.sckRise_frame
      exact ⟨_, _, _, _, _, _, e⟩
    · unfold State.sckFall
      split <;> exact ⟨_, _, _, _, _, _, rfl⟩

theorem shiftingOk_microShifter (h : shiftingOk s) : shiftingOk (microShifter s) := by
  obtain ⟨hle, hrun, hend⟩ := h
  unfold microShifter
  split
  next => exact ⟨hle, hrun, hend⟩
  next hb =>
    obtain ⟨hen, htc⟩ := hrun hb
    split
    next =>
      obtain ⟨b, m, r, e⟩ := s.sckRise_frame
      rw [e]
      exact ⟨hle, fun _ => ⟨hen, htc⟩, fun h0 => absurd h0 hb⟩
    next m hk =>
      have hf : s.sckFall = { s with sck := .low, data := shiftIn s.data m, bitcnt := s.bitcnt - 1#4,
                                     tc := tcAfterBit (s.bitcnt - 1#4) s.tc } := by
        simp only [State.sckFall, hk]
      rw [hf]
      refine ⟨by show (s.bitcnt - 1#4).toNat ≤ 8; bv_omega, fun h1 => ⟨hen, ?_⟩, fun h0 => ⟨rfl, ?_⟩⟩
      · exact (if_neg h1).trans htc
      · exact (if_pos h0).trans hen.symm

theorem microExchanged_seqInv (hs : slotsOk s) (h : s.standsAt i .shifting) (hp : posOk i .shifting s)
    (ht : s.tc = true) : (microExchanged i s).SeqInv := by
  obtain ⟨hcnt, hdcnt, -, hrun, hend⟩ := hp
  have hb : s.bitcnt = 0#4 := by
    by_contra hb
    simp [(hrun hb).2] at ht
  have hsh : shifterIdle s := ⟨hb, (hend hb).1⟩
  cases i with
  | writeByte b => exact .completed (t := s.readData) hs h ⟨hcnt, hdcnt, hsh⟩
  | writeBytes n =>
    obtain ⟨h0, hle⟩ := hcnt
    have hle' : (s.cnt - 1#8).toNat ≤ n.toNat := by bv_omega
    exact .moveTo (t := s.readData.countByte) hs h ⟨⟨n, rfl, hle'⟩, hdcnt, hsh⟩
  | readByte => exact .moveTo (t := s.readData) hs h ⟨.inl rfl, hcnt, hdcnt, hsh⟩
  | readBytes n => exact .moveTo (t := s.readData) hs h ⟨.inr ⟨n, rfl⟩, hcnt, hdcnt, hsh⟩
  | init | registerSlave | select | deselect => exact hcnt.elim

theorem microShifting_seqInv (hs : slotsOk s) (h : s.standsAt i .shifting) (hp : posOk i .shifting s) :
    State.SeqInv (if s.tc then microExchanged i s else microShifter s) := by
  split
  next ht => exact microExchanged_seqInv hs h hp ht
  next =>
    obtain ⟨hcnt, hdcnt, hsh⟩ := hp
    have hsh' := shiftingOk_microShifter hsh
    obtain ⟨d, tc, b, k, m, r, e⟩ := microShifter_frame s
    rw [e] at hsh' ⊢
    exact .stays hs h ⟨hcnt, hdcnt, hsh'⟩

theorem microData_seqInv {v : Byte} (hs : slotsOk s) (h : s.standsAt i (.data v)) (hp : posOk i (.data v) s) :
    (microData i v s).SeqInv := by
  unfold microData
  split
  next => exact .stays hs h hp
  next t hr =>
    obtain ⟨-, rfl⟩ := State.takeRsp_cases hr
    obtain ⟨hi, hcnt, hdcnt, hsh⟩ := hp
    rcases hi with rfl | ⟨n, rfl⟩
    · exact .completed (t := s.taken v) hs h ⟨hcnt, hdcnt, hsh⟩
    · obtain ⟨h0, hle⟩ := hcnt
      have hle' : (s.cnt - 1#8).toNat ≤ n.toNat := by bv_omega
      exact .moveTo (t := (s.taken v).countByte) hs h ⟨⟨n, rfl, hle'⟩, hdcnt, hsh⟩

theorem microCommand_seqInv (hs : slotsOk s) (h : s.standsAt i p) (hp : posOk i p s)
    (hm : microCommand i p s = .next t) : t.SeqInv := by
  cases p with
  | operands => exact hp.elim
  | body => exact microBody_seqInv hs h hp hm
  | ownLines rest => exact microOwnLines_seqInv hs h hp hm
  | storeSlot => cases hm; exact microStoreSlot_seqInv hs h hp
  | delay d => cases hm; exact microDelay_seqInv hs h hp
  | payload => cases hm; exact microPayload_seqInv hs h hp
  | readNext => cases hm; exact microReadNext_seqInv hs h hp
  | shifting => cases hm; exact microShifting_seqInv hs h hp
  | data v => cases hm; exact microData_seqInv hs h hp
  | status v => exact hp.elim

/-! ### Micro-steps and the turn of CORE -/

/-- A position that fits is one of the command's own. -/
theorem posOk_isOwn (hp : posOk i p s) : p.isOwn = true := by
  cases p with
  | operands | status => exact hp.elim
  | body | ownLines | storeSlot | delay | payload | readNext | shifting | data => rfl

theorem microStep_seqInv {w : Work} (h : s.SeqInv) (hq : s.seq = .busy w) (hm : microStep w s = .next t) :
    t.SeqInv := by
  have hw : workOk w s := by have := h.seq; rwa [seqOk, hq] at this
  rcases hw with ⟨hp, hd, hz⟩ | ⟨v, hp, hv, hf, hz⟩ | ⟨i, hd, hp⟩
  · rw [microStep_operands s w hp] at hm
    cases hm
    exact takeOperand_seqInv h hd hz
  · rw [microStep_status s w v hp] at hm
    cases hm
    exact putStatus_seqInv h.slots hq hv hf hz
  · have ho := posOk_isOwn hp
    have h1 : w.pos ≠ .operands := fun e => by simp [e, Pos.isOwn] at ho
    have h2 : ∀ v, w.pos ≠ .status v := fun v e => by simp [e, Pos.isOwn] at ho
    rw [microStep_command h1 h2 hd] at hm
    exact microCommand_seqInv h.slots ⟨w.opc, w.latch, hq, hd⟩ hp hm

theorem coreStep_seqInv (h : s.SeqInv) (hm : coreStep s = .next t) : t.SeqInv := by
  unfold coreStep at hm
  split at hm
  next hq =>
    cases hm
    exact takeOpcode_seqInv h (by have := h.seq; rwa [seqOk, hq] at this)
  next w hq => exact microStep_seqInv h hq hm
  next => cases hm; exact h

theorem State.Inv.seqInv (h : s.Inv) : s.SeqInv := ⟨h.slots, h.seq⟩

theorem ctrlOk_of_regsKept (h : ctrlOk s) (hk : RegsKept s.ctrl s t ∨ RegsKept ctrlInit s t) : ctrlOk t := by
  unfold ctrlOk
  rcases hk with hk | hk
  · rw [hk.ctrl]; exact h
  · exact .inr hk.ctrl

theorem faultOk_of_regsKept {v : Byte} (h : faultOk s) (hk : RegsKept v s t) : faultOk t := by
  rcases hk.fault with ⟨hf, hi⟩ | ⟨-, f, hf⟩
  · unfold faultOk; rw [hf, hi]; exact h
  · unfold faultOk; rw [hf]; exact ⟨f.code_toNat_le, fun h0 => absurd h0 f.code_ne_zero⟩

/-- Each micro-step keeps the invariant: the registers by `RegsKept`, the platform by `CoreKeeps`, the slots
and the sequencer by the walk above. -/
theorem coreStep_inv (h : s.Inv) (hm : coreStep s = .next t) : t.Inv := by
  obtain ⟨hslots, hseq⟩ := coreStep_seqInv h.seqInv hm
  have hc : t.cfg = s.cfg := (coreStep_keeps hm).cfg
  have hk : RegsKept s.ctrl s t ∨ RegsKept ctrlInit s t := (coreStep_regsKept hm).imp_right And.right
  exact ⟨hc ▸ h.config, hk.elim (·.lines h.lines) (·.lines h.lines), hslots, ctrlOk_of_regsKept h.ctrl hk,
    hk.elim (faultOk_of_regsKept h.fault) (faultOk_of_regsKept h.fault), hseq⟩

theorem CoreSteps.inv (h : CoreSteps s t) (hi : s.Inv) : t.Inv := by
  induction h with
  | refl => exact hi
  | tail _ hm ih => exact coreStep_inv ih hm

/-- Each turn of CORE keeps the invariant, because it is a sequence of micro-steps. -/
theorem coreTurn_inv (h : s.Inv) (hm : coreTurn s = .next t) : t.Inv :=
  (coreTurn_coreSteps h.sck_of_idle hm).inv h

/-! ### The moves of the host -/

/-- Nothing of the invariant speaks of the host's script, the streams or the readiness. -/
theorem State.Inv.host_move (h : s.Inv) (r : List HostMove) (c : List Byte) (y : RspReady) :
    State.Inv { s with host := r, cmdIn := c, rspReady := y } :=
  ⟨h.config, h.lines, h.slots, h.ctrl, h.fault, h.seq⟩

theorem State.Inv.platWrite (h : s.Inv) {a : BitVec 9} (ha : a.toNat < 2 * s.cfg.nports) (v : Byte) :
    ((s.setLineByte a.toNat v).emit (.plat a v)).Inv := by
  have hx : s.lineExists a.toNat = true := by simpa [State.lineExists] using ha
  exact ⟨h.config, (RegsKept.setLineByte v hx).lines h.lines, h.slots, h.ctrl, h.fault, h.seq⟩

theorem State.Inv.applyReset (h : s.Inv) : s.applyReset.Inv :=
  State.inv_of_resetValues h.config h.lines rfl rfl rfl rfl rfl ⟨rfl, rfl, rfl, rfl⟩

end

/-- Settles O44: CORE's turns by `coreTurn_inv`; the moves of the host write only line registers that exist,
or apply the reset. -/
theorem stepKeepsInvariant : Obligations.StepKeepsInvariant := by
  intro s t h hm
  rcases step_cases hm with
    ⟨r, -, hc⟩ | ⟨b, r, -, rfl⟩ | ⟨q, r, -, rfl⟩ | ⟨a, v, r, -, -, ha, rfl⟩ | ⟨r, -, rfl⟩
  · exact coreTurn_inv (h.host_move r _ _) hc
  · exact h.host_move r _ _
  · exact h.host_move r _ _
  · exact (h.host_move r s.cmdIn s.rspReady).platWrite ha v
  · exact (h.host_move r s.cmdIn s.rspReady).applyReset

end Sys2Proof.Machine
end

section
/-! SUPPORT. From the invariant CORE addresses no line register that does not exist (spec/20_memory.md R41),
so every turn of CORE and every legal move of the host answers a next state. -/

namespace Sys2Proof.Machine

section
variable {s t : State}

/-! ### CORE's turn -/

/-- An operation that answers a next state, and then a change that cannot stop. -/
theorem Out.andThen_answers {o : Out} {u : State} (h : o = .next u) (f : State → State) :
    ∃ t, o.andThen (fun v => .next (f v)) = .next t := ⟨f u, by rw [h, Out.andThen_next]⟩

/-- A slot that SELECT or DESELECT finds names a line register that exists. -/
theorem portLegal_of_lookup {id : Byte} {d : Slot} (hs : slotsOk s) (h : s.lookup id = .ok d) :
    portLegal s.cfg.nports d.port = true := hs id d (State.lookup_ok.mp h)

theorem exec_answers (hc : configOk s.cfg) (hs : slotsOk s) (i : Instr) : ∃ t, exec i s = .next t := by
  cases i with
  | init =>
    obtain ⟨-, -, -, hown⟩ := hc
    obtain ⟨u, hu⟩ := State.dirSetAll_next (s := s.begin .init) hown
    exact Out.andThen_answers hu _
  | registerSlave id port rsv bit sel desel =>
    simp only [exec, execRegisterSlave]
    split
    next => exact ⟨_, rfl⟩
    next hf =>
      obtain ⟨-, hp, -⟩ := registerFault_none.mp hf
      exact Out.andThen_answers (State.lineSet_next (s := s.begin _) bit hp) _
  | select id =>
    simp only [exec, execSelect]
    split
    next => exact ⟨_, rfl⟩
    next d hd => exact Out.andThen_answers (State.lineClear_next (s := s.begin _) d.bit (portLegal_of_lookup hs hd)) _
  | deselect id =>
    simp only [exec, execDeselect]
    split
    next => exact ⟨_, rfl⟩
    next d hd => exact Out.andThen_answers (State.lineSet_next (s := s.begin _) d.bit (portLegal_of_lookup hs hd)) _
  | writeByte b => simp only [exec, execWriteByte]; split <;> exact ⟨_, rfl⟩
  | readByte =>
    simp only [exec, execReadByte]
    split
    · split <;> exact ⟨_, rfl⟩
    · exact ⟨_, rfl⟩
  | writeBytes | readBytes => exact ⟨_, rfl⟩

theorem microBody_answers (hs : slotsOk s) (i : Instr) : ∃ t, microBody i s = .next t := by
  cases i with
  | registerSlave id port rsv bit sel desel =>
    simp only [microBody]
    split
    next => exact ⟨_, rfl⟩
    next hf =>
      obtain ⟨-, hp, -⟩ := registerFault_none.mp hf
      exact Out.andThen_answers (State.lineSet_next bit hp) _
  | select id =>
    simp only [microBody]
    split
    next => exact ⟨_, rfl⟩
    next d hd => exact Out.andThen_answers (State.lineClear_next d.bit (portLegal_of_lookup hs hd)) _
  | deselect id =>
    simp only [microBody]
    split
    next => exact ⟨_, rfl⟩
    next d hd => exact Out.andThen_answers (State.lineSet_next d.bit (portLegal_of_lookup hs hd)) _
  | init | writeByte | writeBytes | readByte | readBytes => exact ⟨_, rfl⟩

/-- The own lines INIT has still to do are some of the platform's. -/
theorem microOwnLines_answers (hc : configOk s.cfg) {rest : List Line} (hr : rest <:+ s.cfg.ownLines) :
    ∃ t, microOwnLines rest s = .next t := by
  cases rest with
  | nil => exact ⟨_, rfl⟩
  | cons l more =>
    obtain ⟨-, -, -, hown⟩ := hc
    exact Out.andThen_answers (State.dirSet_next l.bit (hown l (hr.subset List.mem_cons_self))) _

theorem microCommand_answers {i : Instr} {p : Pos} (hc : configOk s.cfg) (hs : slotsOk s) (hp : posOk i p s) :
    ∃ t, microCommand i p s = .next t := by
  cases p with
  | body => exact microBody_answers hs i
  | ownLines rest =>
    obtain ⟨-, hr, -⟩ := hp
    exact microOwnLines_answers hc hr
  | operands | storeSlot | delay | payload | readNext | shifting | data | status => exact ⟨_, rfl⟩

theorem microStep_answers {w : Work} (h : s.Inv) (hq : s.seq = .busy w) : ∃ t, microStep w s = .next t := by
  have hw : workOk w s := by have := h.seq; rwa [seqOk, hq] at this
  rcases hw with ⟨hp, -, -⟩ | ⟨v, hp, -⟩ | ⟨i, hd, hp⟩
  · exact ⟨_, microStep_operands s w hp⟩
  · exact ⟨_, microStep_status s w v hp⟩
  · have ho := posOk_isOwn hp
    have h1 : w.pos ≠ .operands := fun e => by simp [e, Pos.isOwn] at ho
    have h2 : ∀ v, w.pos ≠ .status v := fun v e => by simp [e, Pos.isOwn] at ho
    rw [microStep_command h1 h2 hd]
    exact microCommand_answers h.config h.slots hp

theorem coreStep_answers (h : s.Inv) : ∃ t, coreStep s = .next t := by
  unfold coreStep
  split
  next => exact ⟨_, rfl⟩
  next hq => exact microStep_answers h hq
  next => exact ⟨_, rfl⟩

theorem coreTurn_answers (h : s.Inv) : ∃ t, coreTurn s = .next t := by
  unfold coreTurn
  split
  next i u hf =>
    obtain ⟨-, -, rest, -, rfl⟩ := fetch_run_cases hf
    exact exec_answers (s := { s with cmdIn := rest }) h.config h.slots i
  next => exact ⟨_, rfl⟩
  next => exact coreStep_answers h

/-! ### The host's moves -/

/-- A move that is not enabled waits, and CORE has the step. -/
theorem step_of_host_waits {m : HostMove} {r : List HostMove} (h : s.host = m :: r) (he : m.enabled s = false) :
    step s = coreTurn s := by
  simp [step, hostTurn, h, he]

/-- `PlatWrite` of a line register that exists, in `IDLE` (spec/20_memory.md R46). -/
theorem step_of_host_platWrite {a : BitVec 9} {v : Byte} {r : List HostMove} (h : s.host = .platWrite a v :: r)
    (hq : s.seq = .idle) (ha : a.toNat < 2 * s.cfg.nports) :
    step s = .next ((State.setLineByte { s with host := r } a.toNat v).emit (.plat a v)) := by
  simp [step, hostTurn, h, HostMove.enabled, hq, Seq.isIdle, State.hostMove, State.platWrite, State.memWrite,
    State.lineExists, ha]

theorem step_answers (h : s.Inv) (hl : s.hostLegal) : ∃ t, step s = .next t := by
  cases hh : s.host with
  | nil =>
    rw [step_of_host_nil hh]
    exact coreTurn_answers h
  | cons m r =>
    cases he : m.enabled s
    · rw [step_of_host_waits hh he]
      exact coreTurn_answers h
    · cases m with
      | run =>
        rw [step_of_host_run hh]
        exact coreTurn_answers (h.host_move r s.cmdIn s.rspReady)
      | offer b => simp [step, hostTurn, hh, HostMove.enabled, State.hostMove]
      | ready q => simp [step, hostTurn, hh, HostMove.enabled, State.hostMove]
      | platWrite a v =>
        have hq : s.seq = .idle := by cases hq : s.seq <;> simp [HostMove.enabled, hq, Seq.isIdle] at he ⊢
        have ha : HostMove.legal s.cfg.nports (.platWrite a v) := hl _ (hh ▸ List.mem_cons_self)
        exact ⟨_, step_of_host_platWrite hh hq ha⟩
      | reset => exact ⟨_, step_of_host_reset hh⟩

/-- A legal script stays legal: no step adds a move to it or changes `NPORTS`. -/
theorem step_keeps_hostLegal (h : step s = .next t) (hl : s.hostLegal) : t.hostLegal := by
  have htail : ∀ {m : HostMove} {r}, s.host = m :: r → ∀ k ∈ r, k.legal s.cfg.nports :=
    fun hh k hk => hl k (hh ▸ List.mem_cons_of_mem _ hk)
  rcases step_cases h with
    ⟨r, hr, hc⟩ | ⟨b, r, hh, rfl⟩ | ⟨q, r, hh, rfl⟩ | ⟨a, v, r, hh, -, -, rfl⟩ | ⟨r, hh, rfl⟩
  · obtain ⟨hcfg, -, hhost, -⟩ := coreTurn_keeps hc
    unfold State.hostLegal
    rw [hcfg, hhost]
    rcases hr with hh | ⟨rfl, -⟩
    · exact htail hh
    · exact hl
  all_goals exact htail hh

end

/-- Settles O45: from the invariant CORE's turns and the enabled moves of a legal script all answer, and
what is left of the script is legal. -/
theorem stepNeverStops : Obligations.StepNeverStops := by
  intro s h hl
  obtain ⟨t, ht⟩ := step_answers h hl
  exact ⟨t, ht, step_keeps_hostLegal ht hl⟩

/-! ### PlatWrite -/

/-- Settles O53: in `IDLE` the step is the write of `step_of_host_platWrite`, elsewhere the move waits. -/
theorem platWriteOnlyWhileIdle : Obligations.PlatWriteOnlyWhileIdle := by
  intro s addr v rest hh ha hwf
  refine ⟨fun hq => ⟨_, step_of_host_platWrite hh hq ha, rfl, ?_, fun a hne => ?_, rfl, hq, rfl, rfl, rfl, ?_⟩,
    fun hq => step_of_host_waits hh ?_⟩
  · exact State.setLineByte_lineByte_same (s := { s with host := rest }) _ v hwf
  · exact State.setLineByte_lineByte_other { s with host := rest } v hne
  · simp [State.hostRead, hq, Seq.isIdle, State.memRead, State.lineExists, ha]
  · cases hs : s.seq <;> simp [HostMove.enabled, hs, Seq.isIdle] at hq ⊢

end Sys2Proof.Machine
end

section
/-! SUPPORT. What CORE does to the line registers, to the falls among its events and to the bytes on offer,
whatever it does else: one rule per operation, and so for every command, every micro-step and every turn of
CORE (spec/20_memory.md R43, R44, R48). -/

namespace Sys2Proof.Machine

/-! ### Falls in the history -/

/-- The lines the events of a history let fall, oldest first (20_memory.md R43). -/
def falls (h : List Event) : List Line :=
  h.filterMap fun e =>
    match e with
    | .line p b false => some ⟨p, b⟩
    | .line _ _ true | .dir _ _ | .ctrl _ | .wait _ | .load _ | .done _ | .rsp _ | .fault _ _ | .plat _ _ => none

theorem mem_falls {h : List Event} {l : Line} : l ∈ falls h ↔ Event.line l.port l.bit false ∈ h := by
  constructor
  · intro hl
    obtain ⟨e, he, hl⟩ := List.mem_filterMap.mp hl
    split at hl
    next => cases hl; exact he
    all_goals cases hl
  · exact fun hl => List.mem_filterMap.mpr ⟨_, hl, rfl⟩

@[simp] theorem falls_append (h k : List Event) : falls (h ++ k) = falls h ++ falls k := List.filterMap_append

/-- `DirSet` events are no falls. -/
@[simp] theorem falls_dirs (ls : List Line) : falls (ls.map fun l => Event.dir l.port l.bit) = [] := by
  simp [falls]

/-! ### Updates that write no line register, let no line fall and take no byte -/

/-- What the rules of this part speak of: the line registers, the falls, the bytes on offer. -/
def State.io (s : State) : Memory × List Line × List Byte := (s.lines, falls s.hist, s.cmdIn)

section
variable {s t : State}

@[simp] theorem State.moveTo_io (s : State) (p : Pos) : (s.moveTo p).io = s.io := rfl
@[simp] theorem State.begin_io (s : State) (i : Instr) : (s.begin i).io = s.io := rfl
@[simp] theorem State.latchPacket_io (s : State) (o : Byte) (l : List Byte) (p : Pos) :
    (s.latchPacket o l p).io = s.io := rfl
@[simp] theorem State.countByte_io (s : State) : s.countByte.io = s.io := rfl
@[simp] theorem State.wait_io (s : State) (d : Delay) : (s.wait d).io = s.io := by simp [State.io, falls]
@[simp] theorem State.loadData_io (s : State) (v : Byte) : (s.loadData v).io = s.io := by simp [State.io, falls]
@[simp] theorem State.readData_io (s : State) : s.readData.io = s.io := by simp [State.io, falls]
@[simp] theorem State.writeCtrl_io (s : State) (v : Byte) : (s.writeCtrl v).io = s.io := by simp [State.io, falls]
@[simp] theorem State.taken_io (s : State) (v : Byte) : (s.taken v).io = s.io := by
  simp [State.io, State.taken, falls]

@[simp] theorem State.writeSlot_io (s : State) (id : Byte) (d : Slot) : (s.writeSlot id d).io = s.io := by
  obtain ⟨x, e⟩ := State.writeSlot_frame s id d
  rw [e]; rfl

theorem State.takeRsp_io {v : Byte} (h : s.takeRsp v = some t) : t.io = s.io := by
  obtain ⟨-, rfl⟩ := State.takeRsp_cases h
  exact s.taken_io v

@[simp] theorem State.putStatus_io (s : State) (v : Byte) : (s.putStatus v).io = s.io := by
  by_cases ht : s.takes 1
  · rw [State.putStatus_takes v ht]; exact s.taken_io v
  · rw [State.putStatus_holds v ht]; rfl

@[simp] theorem State.enterFault_io (s : State) (f : CoreFault) (info : Byte) : (s.enterFault f info).io = s.io := by
  unfold State.enterFault State.recordFault
  split <;> simp [State.io, falls]

@[simp] theorem State.raise_io (s : State) (f : CoreFault) (info : Byte) : (s.raise f info).io = s.io := by
  simp [State.raise]

@[simp] theorem State.microRaise_io (s : State) (f : CoreFault) (info : Byte) : (s.microRaise f info).io = s.io := by
  simp [State.microRaise]

theorem State.exchange_done_io {tx rx : Byte} (h : s.exchange tx = .done rx t) : t.io = s.io := by
  rcases State.exchange_cases s tx with ⟨rx', m, r, -, e⟩ | ⟨-, e⟩ <;> cases e.symm.trans h
  simp [State.io, falls]

theorem State.exchange_stuck_io {tx : Byte} (h : s.exchange tx = .stuck t) : t.io = s.io := by
  rw [exchange_stuck_cases h]; simp

@[simp] theorem readLoop_io (n : Nat) (s : State) : (readLoop n s).io = s.io := by
  induction n generalizing s with
  | zero => simp [readLoop]
  | succ n ih =>
    unfold readLoop
    split
    next hx =>
      split
      next hr => simp [ih, State.takeRsp_io hr, State.exchange_done_io hx]
      next => simp [State.exchange_done_io hx]
    next hx => exact State.exchange_stuck_io hx

@[simp] theorem microStoreSlot_io (i : Instr) (s : State) : (microStoreSlot i s).io = s.io := by
  cases i with
  | registerSlave id port rsv bit sel desel => exact State.writeSlot_io s id _
  | init | select | deselect | writeByte | writeBytes | readByte | readBytes => rfl

@[simp] theorem microDelay_io (d : Delay) (s : State) : (microDelay d s).io = s.io := by
  unfold microDelay
  split
  · simp [State.io, falls]
  · rfl

@[simp] theorem microReadNext_io (s : State) : (microReadNext s).io = s.io := by
  unfold microReadNext
  split <;> simp

@[simp] theorem microShifter_io (s : State) : (microShifter s).io = s.io := by
  obtain ⟨d, tc, b, k, m, r, e⟩ := microShifter_frame s
  rw [e]; rfl

@[simp] theorem microExchanged_io (i : Instr) (s : State) : (microExchanged i s).io = s.io := by
  cases i with
  | writeByte | writeBytes | readByte | readBytes => simp [microExchanged]
  | init | registerSlave | select | deselect => rfl

@[simp] theorem microData_io (i : Instr) (v : Byte) (s : State) : (microData i v s).io = s.io := by
  unfold microData
  split
  next => rfl
  next hr => cases i <;> simp [State.takeRsp_io hr]

end

/-! ### What CORE does to the line registers -/

/-- From `s` to `t` CORE set the direction bits of `ls` (20_memory.md R44), or one level rose, or one level
fell with its event, and then `r` is a SELECT of a slave on that line (42_select.md R102). -/
inductive LineChange (r : Option Instr) (s t : State) : List Line → Prop where
  | dirs (ls : List Line) (hl : t.lines = dirLines ls s.lines) (hf : falls t.hist = falls s.hist) :
    LineChange r s t ls
  | rise (p : Byte) (b : BitPos) (e : Event)
    (hl : t.lines = (s.rmwResult (valAddr p) (bitMask b) 0#8 e).lines) (hf : falls t.hist = falls s.hist) :
    LineChange r s t []
  | fall (id : Byte) (d : Slot) (e : Event) (hr : r = some (.select id)) (hs : s.slot id = some d)
    (hl : t.lines = (s.rmwResult (valAddr d.port) 0#8 (bitMask d.bit) e).lines)
    (hf : falls t.hist = falls s.hist ++ [⟨d.port, d.bit⟩]) :
    LineChange r s t []

namespace LineChange

variable {r : Option Instr} {s t : State} {ls : List Line}

theorem wf (h : LineChange r s t ls) (hwf : Memory.wf s.lines = true) : Memory.wf t.lines = true := by
  cases h with
  | dirs _ hl => rw [hl]; exact dirLines_wf _ hwf
  | rise _ _ _ hl => rw [hl]; exact Memory.wf_write _ _ hwf
  | fall _ _ _ _ _ hl => rw [hl]; exact Memory.wf_write _ _ hwf

/-- No direction bit changes but those of `ls`, and none is cleared. -/
theorem dirBit (h : LineChange r s t ls) (hwf : Memory.wf s.lines = true) (l : Line) :
    t.dirBit l = (s.dirBit l || decide (l ∈ ls)) := by
  cases h with
  | dirs _ hl => simp only [State.dirBit, State.lineByte, hl]; exact dirLines_getLsbD _ l hwf
  | rise _ _ _ hl => rw [State.dirBit_of_lines hl, State.rmwResult_dirBit]; simp
  | fall _ _ _ _ _ hl => rw [State.dirBit_of_lines hl, State.rmwResult_dirBit]; simp

/-- A level that falls has its event. -/
theorem falls_of_valBit (h : LineChange r s t ls) (hwf : Memory.wf s.lines = true) {l : Line}
    (hs : s.valBit l = true) (ht : t.valBit l = false) : falls t.hist = falls s.hist ++ [l] := by
  cases h with
  | dirs _ hl =>
    have hv : t.valBit l = s.valBit l := by
      simp only [State.valBit, State.lineByte, hl]
      rw [dirLines_read_other _ _ fun k _ => valAddr_ne_dirAddr _ _]
    simp [hv, hs] at ht
  | rise _ _ _ hl => simp [State.valBit_of_lines hl, State.rmwResult_valBit_set _ _ _ _ hwf, hs] at ht
  | fall id d _ _ _ hl hf =>
    rw [State.valBit_of_lines hl, State.rmwResult_valBit_clear _ _ _ _ hwf, hs] at ht
    have hd : l = ⟨d.port, d.bit⟩ := by simpa using ht
    rw [hf, hd]

/-- Every fall is that of the line of the slave selected. -/
theorem select_of_mem_falls (h : LineChange r s t ls) {added : List Event} (ha : t.hist = s.hist ++ added)
    {l : Line} (hl : l ∈ falls added) :
    ∃ id d, r = some (.select id) ∧ s.slot id = some d ∧ l = ⟨d.port, d.bit⟩ := by
  have hfalls {k : List Line} (hf : falls t.hist = falls s.hist ++ k) : falls added = k := by
    rw [ha, falls_append] at hf
    exact List.append_cancel_left hf
  cases h with
  | dirs _ _ hf => simp [hfalls (k := []) (by simpa using hf)] at hl
  | rise _ _ _ _ hf => simp [hfalls (k := []) (by simpa using hf)] at hl
  | fall id d _ hr hs _ hf => exact ⟨id, d, hr, hs, by simpa [hfalls hf] using hl⟩

end LineChange

/-- From `s` to `t` CORE took at most `n` bytes from the front of those on offer (20_memory.md R48). -/
def CmdTaken (n : Nat) (s t : State) : Prop := ∃ taken, s.cmdIn = taken ++ t.cmdIn ∧ taken.length ≤ n

/-- Both rules together: running `r`, CORE took at most `n` bytes and set no direction bit but those of
`ls`. -/
structure CoreEffect (r : Option Instr) (n : Nat) (ls : List Line) (s t : State) : Prop where
  taken : CmdTaken n s t
  change : LineChange r s t ls

namespace CoreEffect

variable {r : Option Instr} {n : Nat} {ls : List Line} {s t u : State}

theorem of_cmdIn (hc : t.cmdIn = s.cmdIn) (h : LineChange r s t ls) : CoreEffect r 0 ls s t :=
  ⟨⟨[], hc.symm, le_refl _⟩, h⟩

/-- An update that does none of the three things. -/
theorem of_io (e : t.io = s.io) : CoreEffect r 0 [] s t := by
  simp only [State.io, Prod.mk.injEq] at e
  obtain ⟨hl, hf, hc⟩ := e
  exact of_cmdIn hc (.dirs [] hl hf)

theorem refl (s : State) : CoreEffect r 0 [] s s := of_io rfl

theorem mono {m : Nat} (h : CoreEffect r m ls s t) (hle : m ≤ n) : CoreEffect r n ls s t := by
  obtain ⟨⟨x, hx, hlen⟩, hc⟩ := h
  exact ⟨⟨x, hx, hlen.trans hle⟩, hc⟩

/-- An update that takes the bytes `x` and does neither of the other two things. -/
theorem of_taken {x rest : List Byte} (hc : s.cmdIn = x ++ rest) (e : t.io = State.io { s with cmdIn := rest }) :
    CoreEffect r x.length [] s t := by
  simp only [State.io, Prod.mk.injEq] at e
  obtain ⟨hl, hf, ht⟩ := e
  exact ⟨⟨x, by rw [ht, hc], le_refl _⟩, .dirs [] hl hf⟩

/-- What has happened before: the bytes `x` were taken. -/
theorem after_bytes (x : List Byte) (h : CoreEffect r n ls u t) (hl : u.lines = s.lines) (hs : u.slots = s.slots)
    (hf : falls u.hist = falls s.hist) (hc : s.cmdIn = x ++ u.cmdIn) : CoreEffect r (x.length + n) ls s t := by
  obtain ⟨⟨y, hy, hlen⟩, hch⟩ := h
  refine ⟨⟨x ++ y, by rw [hc, hy, List.append_assoc], by simpa using hlen⟩, ?_⟩
  cases hch with
  | dirs _ hl' hf' => exact .dirs _ (hl ▸ hl') (hf'.trans hf)
  | rise p b e hl' hf' =>
    refine .rise p b e ?_ (hf'.trans hf)
    rw [hl']; simp [State.rmwResult, State.setLineByte, State.lineByte, State.emit, hl]
  | fall id d e hr hsl hl' hf' =>
    refine .fall id d e hr (by simpa [State.slot, hs] using hsl) ?_ (by rw [hf', hf])
    rw [hl']; simp [State.rmwResult, State.setLineByte, State.lineByte, State.emit, hl]

/-- The command begins. -/
theorem of_begin {i : Instr} (h : CoreEffect r n ls (s.begin i) t) : CoreEffect r n ls s t := by
  have hb := h.after_bytes (s := s) [] rfl rfl rfl rfl
  rwa [List.length_nil, Nat.zero_add] at hb

/-- What happens after and does none of the three things. -/
theorem congr (h : CoreEffect r n ls s t) (e : u.io = t.io) : CoreEffect r n ls s u := by
  simp only [State.io, Prod.mk.injEq] at e
  obtain ⟨hl, hf, hc⟩ := e
  obtain ⟨ht, hch⟩ := h
  refine ⟨by unfold CmdTaken; rw [hc]; exact ht, ?_⟩
  cases hch with
  | dirs _ hl' hf' => exact .dirs _ (hl.trans hl') (hf.trans hf')
  | rise p b e hl' hf' => exact .rise p b e (hl.trans hl') (hf.trans hf')
  | fall id d e hr hs hl' hf' => exact .fall id d e hr hs (hl.trans hl') (hf.trans hf')

/-- `LineSet` and what the command does after it (20_memory.md R43). -/
theorem lineSet {p : Byte} {b : BitPos} {f : State → State}
    (h : (s.lineSet p b).andThen (fun v => .next (f v)) = .next t) (hf : ∀ v, (f v).io = v.io) :
    CoreEffect r 0 [] s t := by
  obtain ⟨v, hv, ht⟩ := Out.andThen_eq_next.mp h
  cases ht
  obtain ⟨-, rfl⟩ := State.rmw_cases hv
  have hu : CoreEffect r 0 [] s (s.rmwResult (valAddr p) (bitMask b) 0#8 (.line p b true)) :=
    of_cmdIn rfl (.rise p b _ rfl ((falls_append s.hist _).trans (List.append_nil _)))
  exact hu.congr (hf _)

/-- `LineClear` of a slave's line, and what SELECT does after it. -/
theorem lineClear {id : Byte} {d : Slot} {f : State → State} (hd : s.slot id = some d)
    (h : (s.lineClear d.port d.bit).andThen (fun v => .next (f v)) = .next t) (hf : ∀ v, (f v).io = v.io) :
    CoreEffect (some (.select id)) 0 [] s t := by
  obtain ⟨v, hv, ht⟩ := Out.andThen_eq_next.mp h
  cases ht
  obtain ⟨-, rfl⟩ := State.rmw_cases hv
  have hu : CoreEffect (some (.select id)) 0 [] s
      (s.rmwResult (valAddr d.port) 0#8 (bitMask d.bit) (.line d.port d.bit false)) :=
    of_cmdIn rfl (.fall id d _ rfl hd rfl (falls_append s.hist _))
  exact hu.congr (hf _)

/-- `DirSet` of a list of lines. -/
theorem dirSetAll (h : State.dirSetAll ls s = .next t) : CoreEffect r 0 ls s t := by
  rw [State.dirSetAll_cases h]
  exact of_cmdIn rfl (.dirs ls rfl (by simp))

end CoreEffect

/-! ### Whole commands -/

section
variable {s t : State}

/-- The lines whose direction bit the command sets (41_init.md R91). -/
def dirTargets (c : Config) (i : Instr) : List Line :=
  match i with
  | .init => c.ownLines
  | .registerSlave _ _ _ _ _ _ | .select _ | .deselect _ | .writeByte _ | .writeBytes _ | .readByte | .readBytes _ => []

theorem execInit_effect (h : execInit s = .next t) : CoreEffect (some .init) 0 s.cfg.ownLines s t := by
  obtain ⟨u, hu, ht⟩ := Out.andThen_eq_next.mp h
  cases ht
  exact ((CoreEffect.dirSetAll hu).congr (by simp)).of_begin

theorem execRegisterSlave_effect {r : Option Instr} {id port : Byte} {rsv : BitVec 5} {bit : BitPos}
    {sel desel : Delay} (h : execRegisterSlave id port rsv bit sel desel s = .next t) : CoreEffect r 0 [] s t := by
  unfold execRegisterSlave at h
  split at h
  next => cases h; exact .of_io (by simp)
  next => exact (CoreEffect.lineSet h (by simp)).of_begin

theorem execSelect_effect {id : Byte} (h : execSelect id s = .next t) :
    CoreEffect (some (.select id)) 0 [] s t := by
  unfold execSelect at h
  split at h
  next => cases h; exact .of_io (by simp)
  next d hd => exact (CoreEffect.lineClear (s := s.begin _) (State.lookup_ok.mp hd) h (by simp)).of_begin

theorem execDeselect_effect {r : Option Instr} {id : Byte} (h : execDeselect id s = .next t) :
    CoreEffect r 0 [] s t := by
  unfold execDeselect at h
  split at h
  next => cases h; exact .of_io (by simp)
  next => exact (CoreEffect.lineSet h (by simp)).of_begin

theorem execWriteByte_io {b : Byte} (h : execWriteByte b s = .next t) : t.io = s.io := by
  unfold execWriteByte at h
  split at h
  next hx => cases h; simp [State.exchange_done_io hx]
  next hx => cases h; simp [State.exchange_stuck_io hx]

theorem execReadByte_io (h : execReadByte s = .next t) : t.io = s.io := by
  unfold execReadByte at h
  split at h
  next hx =>
    split at h
    next hr => cases h; simp [State.takeRsp_io hr, State.exchange_done_io hx]
    next => cases h; simp [State.exchange_done_io hx]
  next hx => cases h; simp [State.exchange_stuck_io hx]

/-- The loop of WRITE_BYTES takes at most its payload (43_transfer.md R117). -/
theorem writeLoop_io (n : Nat) (s : State) : ∃ x rest, s.cmdIn = x ++ rest ∧ x.length ≤ n ∧
    (writeLoop n s).io = State.io { s with cmdIn := rest } := by
  induction n generalizing s with
  | zero => exact ⟨[], s.cmdIn, rfl, le_refl _, s.putStatus_io statusOk⟩
  | succ n ih =>
    unfold writeLoop State.cmdNext
    cases hc : s.cmdIn with
    | nil => exact ⟨[], [], rfl, Nat.zero_le _, by simp [State.io, hc]⟩
    | cons b rest =>
      dsimp only
      split
      next rx u hx =>
        have hu := State.exchange_done_io hx
        obtain ⟨x, left, hxl, hlen, e⟩ := ih u.countByte
        simp only [State.io, Prod.mk.injEq] at hu
        obtain ⟨hul, huf, huc⟩ := hu
        rw [State.countByte_cmdIn, huc] at hxl
        exact ⟨b :: x, left, by rw [hxl]; rfl, Nat.succ_le_succ hlen, by rw [e]; simp [State.io, hul, huf]⟩
      next hx => exact ⟨[b], rest, rfl, Nat.succ_le_succ (Nat.zero_le _), State.exchange_stuck_io hx⟩

theorem execWriteBytes_effect {r : Option Instr} {n : Byte} (h : execWriteBytes n s = .next t) :
    CoreEffect r n.toNat [] s t := by
  cases h
  obtain ⟨x, rest, hc, hlen, e⟩ := writeLoop_io n.toNat { s.begin (.writeBytes n) with cnt := n }
  exact (CoreEffect.of_taken (s := s) hc e).mono hlen

open Laws.PacketLength in
/-- Running a command takes at most the payload behind its packet, and touches the line registers as its
own pseudocode says. -/
theorem exec_effect {i : Instr} (h : exec i s = .next t) :
    CoreEffect (some i) (payload i) (dirTargets s.cfg i) s t := by
  cases i with
  | init => exact execInit_effect h
  | registerSlave => exact execRegisterSlave_effect h
  | select => exact execSelect_effect h
  | deselect => exact execDeselect_effect h
  | writeByte => exact .of_io (execWriteByte_io h)
  | writeBytes => exact execWriteBytes_effect h
  | readByte => exact .of_io (execReadByte_io h)
  | readBytes n => cases h; exact .of_io (readLoop_io n.toNat { s.begin (.readBytes n) with cnt := n })

/-! ### Micro-steps -/

/-- How many bytes a micro-step may take: one at a `CmdNext` inside a command, else none (20_memory.md R48). -/
def Pos.cmdAsked (p : Pos) (cnt : Byte) : Nat :=
  match p with
  | .operands => 1
  | .payload => if cnt = 0x00#8 then 0 else 1
  | .body | .ownLines _ | .storeSlot | .delay _ | .readNext | .shifting | .data _ | .status _ => 0

/-- The line whose direction bit a micro-step sets, if it sets one (41_init.md R92). -/
def Pos.dirTarget (p : Pos) : List Line :=
  match p with
  | .ownLines (l :: _) => [l]
  | .ownLines [] => []
  | .operands | .body | .storeSlot | .delay _ | .payload | .readNext | .shifting | .data _ | .status _ => []

theorem acceptPacket_io (s : State) (opc : Byte) (latch : List Byte) : (s.acceptPacket opc latch).io = s.io := by
  unfold State.acceptPacket
  split <;> simp

theorem takeOpcode_effect {r : Option Instr} (s : State) : CoreEffect r 1 [] s s.takeOpcode := by
  unfold State.takeOpcode State.cmdNext
  cases hc : s.cmdIn with
  | nil => exact (CoreEffect.refl s).mono (Nat.zero_le _)
  | cons b rest => exact .of_taken (x := [b]) hc (acceptPacket_io _ _ _)

theorem takeOperand_effect {r : Option Instr} (s : State) (w : Work) : CoreEffect r 1 [] s (s.takeOperand w) := by
  unfold State.takeOperand State.cmdNext
  cases hc : s.cmdIn with
  | nil => exact (CoreEffect.refl s).mono (Nat.zero_le _)
  | cons b rest => exact .of_taken (x := [b]) hc (acceptPacket_io _ _ _)

theorem microPayload_effect {r : Option Instr} (s : State) :
    CoreEffect r (Pos.payload.cmdAsked s.cnt) [] s (microPayload s) := by
  by_cases h0 : s.cnt = 0x00#8
  · simp only [microPayload, Pos.cmdAsked, h0, if_true]
    exact .of_io (s.moveTo_io _)
  · simp only [microPayload, Pos.cmdAsked, h0, if_false, State.cmdNext]
    cases hc : s.cmdIn with
    | nil => exact (CoreEffect.refl s).mono (Nat.zero_le _)
    | cons b rest => exact .of_taken (x := [b]) hc (by simp)

theorem microBody_effect {i : Instr} (h : microBody i s = .next t) : CoreEffect (some i) 0 [] s t := by
  cases i with
  | registerSlave =>
    simp only [microBody] at h
    split at h
    next => cases h; exact .of_io (by simp)
    next => exact .lineSet h fun _ => rfl
  | select =>
    simp only [microBody] at h
    split at h
    next => cases h; exact .of_io (by simp)
    next hd => exact .lineClear (State.lookup_ok.mp hd) h fun _ => rfl
  | deselect =>
    simp only [microBody] at h
    split at h
    next => cases h; exact .of_io (by simp)
    next => exact .lineSet h fun _ => rfl
  | writeByte | readByte => cases h; exact .of_io (by simp)
  | init | writeBytes | readBytes => cases h; exact .of_io rfl

theorem microOwnLines_effect {r : Option Instr} {rest : List Line} (h : microOwnLines rest s = .next t) :
    CoreEffect r 0 (Pos.ownLines rest).dirTarget s t := by
  cases rest with
  | nil => cases h; exact .of_io (by simp)
  | cons l more =>
    obtain ⟨u, hu, ht⟩ := Out.andThen_eq_next.mp h
    cases ht
    have hall : State.dirSetAll [l] s = .next u := by simp [State.dirSetAll, hu]
    exact (CoreEffect.dirSetAll hall).congr rfl

theorem microCommand_effect {i : Instr} {p : Pos} (h : microCommand i p s = .next t) :
    CoreEffect (some i) (p.cmdAsked s.cnt) p.dirTarget s t := by
  cases p with
  | body => exact microBody_effect h
  | ownLines rest => exact microOwnLines_effect h
  | payload => cases h; exact microPayload_effect s
  | operands => cases h; exact (CoreEffect.refl s).mono (Nat.zero_le _)
  | storeSlot => cases h; exact .of_io (by simp)
  | delay d => cases h; exact .of_io (by simp)
  | readNext => cases h; exact .of_io (by simp)
  | shifting => cases h; exact .of_io (by split <;> simp)
  | data v => cases h; exact .of_io (by simp)
  | status v => cases h; exact .of_io (by simp)

theorem microStep_effect {w : Work} (h : microStep w s = .next t) :
    ∃ ls, CoreEffect (decode (w.opc :: w.latch)).command? (w.pos.cmdAsked s.cnt) ls s t ∧ ls ⊆ w.pos.dirTarget := by
  unfold microStep at h
  split at h
  next hp => cases h; exact ⟨[], hp ▸ takeOperand_effect s w, List.nil_subset _⟩
  next hp => cases h; exact ⟨[], hp ▸ .of_io (by simp), List.nil_subset _⟩
  next hd _ _ => exact ⟨_, hd ▸ microCommand_effect h, List.Subset.refl _⟩
  next => cases h; exact ⟨[], (CoreEffect.refl s).mono (Nat.zero_le _), List.nil_subset _⟩

/-! ### CORE's turn -/

/-- How many bytes a turn of CORE may take: where it runs a whole packet that packet, at another `CmdNext`
one, else none (20_memory.md R48). -/
def State.cmdAsked (s : State) : Nat :=
  match s.seq with
  | .idle => (s.running.map Instr.packetLength).getD 1
  | .busy w => w.pos.cmdAsked s.cnt
  | .halted => 0

/-- CORE is about to set the direction bit of `l`: it runs INIT whole, or stands at that own line. -/
def State.atDirSet (s : State) (l : Line) : Prop :=
  (s.running = some .init ∧ l ∈ s.cfg.ownLines) ∨
    ∃ opc latch more, s.seq = .busy ⟨opc, latch, .ownLines (l :: more)⟩

open Laws.PacketLength in
theorem encode_length_add_payload (i : Instr) : (encode i).length + payload i = i.packetLength := by
  cases i with
  | init => exact init.left
  | registerSlave => exact (registerSlave ..).left
  | select => exact (select _).left
  | deselect => exact (deselect _).left
  | writeByte => exact (writeByte _).left
  | writeBytes => exact (writeBytes _).left
  | readByte => exact readByte.left
  | readBytes => exact (readBytes _).left

theorem packetLength_pos (i : Instr) : 1 ≤ i.packetLength := by
  rw [← encode_length_add_payload, encode, List.length_cons]
  omega

theorem State.one_le_cmdAsked (hq : s.seq = .idle) : 1 ≤ s.cmdAsked := by
  unfold State.cmdAsked
  rw [hq]
  cases s.running with
  | none => exact le_refl _
  | some i => exact packetLength_pos i

theorem mem_dirTarget {p : Pos} {l : Line} (h : l ∈ p.dirTarget) : ∃ more, p = .ownLines (l :: more) := by
  unfold Pos.dirTarget at h
  split at h
  next k more => exact ⟨more, by rw [List.mem_singleton.mp h]⟩
  all_goals exact absurd h List.not_mem_nil

theorem mem_dirTargets {c : Config} {i : Instr} {l : Line} (h : l ∈ dirTargets c i) : i = .init ∧ l ∈ c.ownLines := by
  cases i with
  | init => exact ⟨rfl, h⟩
  | registerSlave | select | deselect | writeByte | writeBytes | readByte | readBytes =>
    exact absurd h List.not_mem_nil

theorem coreStep_effect (h : coreStep s = .next t) :
    ∃ ls, CoreEffect s.running s.cmdAsked ls s t ∧ ∀ l ∈ ls, s.atDirSet l := by
  unfold coreStep at h
  split at h
  next hq =>
    cases h
    exact ⟨[], (takeOpcode_effect s).mono (State.one_le_cmdAsked hq), by simp⟩
  next w hq =>
    obtain ⟨opc, latch, pos⟩ := w
    obtain ⟨ls, he, hsub⟩ := microStep_effect h
    have hr : s.running = (decode (opc :: latch)).command? := by simp [State.running, hq]
    have ha : s.cmdAsked = pos.cmdAsked s.cnt := by simp [State.cmdAsked, hq]
    refine ⟨ls, hr ▸ ha ▸ he, fun l hl => .inr ?_⟩
    obtain ⟨more, rfl⟩ := mem_dirTarget (hsub hl)
    exact ⟨opc, latch, more, hq⟩
  next => cases h; exact ⟨[], (CoreEffect.refl s).mono (Nat.zero_le _), by simp⟩

/-- All that a turn of CORE does to the line registers, the falls and the bytes on offer. -/
theorem coreTurn_effect (h : coreTurn s = .next t) :
    ∃ ls, CoreEffect s.running s.cmdAsked ls s t ∧ ∀ l ∈ ls, s.atDirSet l := by
  unfold coreTurn at h
  split at h
  next i u hf =>
    obtain ⟨hg, hq, rest, hd, rfl⟩ := fetch_run_cases hf
    have hr : s.running = some i := by simp [State.running, hq, hg, hd, Decoded.command?]
    have ha : s.cmdAsked = (encode i).length + Laws.PacketLength.payload i := by
      simp [State.cmdAsked, hq, hr, encode_length_add_payload]
    have he := (exec_effect h).after_bytes (s := s) (encode i) rfl rfl rfl (eq_encode_append_of_decode hd)
    refine ⟨_, hr ▸ ha ▸ he, ?_⟩
    intro l hl
    obtain ⟨rfl, hown⟩ := mem_dirTargets hl
    exact .inl ⟨hr, hown⟩
  next hf =>
    obtain ⟨hq, opc, rest, hd, rfl⟩ := fetch_illegal_cases hf
    cases h
    obtain ⟨hc, -⟩ := decode_illegal_cases hd
    have he : CoreEffect s.running 1 [] s
        ((State.latchPacket { s with cmdIn := rest } opc [] .operands).raise .illegalCommand opc) :=
      .of_taken (x := [opc]) hc (by simp)
    exact ⟨[], he.mono (State.one_le_cmdAsked hq), by simp⟩
  next => exact coreStep_effect h

/-- Under the invariant only INIT sets direction bits, and only those of own lines (20_memory.md R44). -/
theorem State.Inv.init_of_atDirSet (hi : s.Inv) {l : Line} (h : s.atDirSet l) :
    s.running = some .init ∧ l ∈ s.cfg.ownLines := by
  rcases h with h | ⟨opc, latch, more, hq⟩
  · exact h
  · have hs := hi.seq
    simp only [seqOk, hq, workOk, posOk] at hs
    rcases hs with ⟨hp, -⟩ | ⟨v, hp, -⟩ | ⟨i, hd, rfl, hsuf, -⟩
    · cases hp
    · cases hp
    · exact ⟨by simp [State.running, hq, hd, Decoded.command?], hsuf.subset List.mem_cons_self⟩

end

/-! ### The line registers in every step -/

/-- Settles O46: CORE's writes keep the canonical form by `LineChange.wf`, the host's by `Memory.wf_write`. -/
theorem stepKeepsMemoryCanonical : Obligations.StepKeepsMemoryCanonical := by
  intro s t hwf h
  rcases step_cases h with
    ⟨r, -, hc⟩ | ⟨b, r, -, rfl⟩ | ⟨q, r, -, rfl⟩ | ⟨a, v, r, -, -, -, rfl⟩ | ⟨r, -, rfl⟩
  case inl =>
    obtain ⟨ls, he, -⟩ := coreTurn_effect hc
    exact he.change.wf hwf
  case inr.inr.inr.inl => exact Memory.wf_write _ _ hwf
  all_goals exact hwf

/-- Settles O49: in CORE's turns by the two rules of `LineChange`; of the host's moves only `PlatWrite`
changes levels, those of the register it names, and none lets a line fall. -/
theorem lineFallsOnlyBySelect : Obligations.LineFallsOnlyBySelect := by
  intro s t l hwf h hnr
  rcases step_cases h with
    ⟨r, -, hc⟩ | ⟨b, r, -, rfl⟩ | ⟨q, r, -, rfl⟩ | ⟨a, v, r, -, -, -, rfl⟩ | ⟨r, hh, -⟩
  case inl =>
    obtain ⟨ls, ⟨-, hch⟩, -⟩ := coreTurn_effect hc
    refine ⟨fun hs ht => ?_, fun added ha hm => ?_⟩
    · obtain ⟨added, ha⟩ := (coreTurn_keeps hc).hist
      have hfall := hch.falls_of_valBit hwf hs ht
      rw [← ha, falls_append] at hfall
      have hl : l ∈ falls added := by rw [List.append_cancel_left hfall]; exact List.mem_singleton_self l
      exact ⟨added, ha.symm, .inl (mem_falls.mp hl)⟩
    · obtain ⟨id, d, hr, hs, rfl⟩ := hch.select_of_mem_falls ha (mem_falls.mpr hm)
      exact ⟨id, d, hr, hs, rfl, rfl⟩
  case inr.inr.inr.inl =>
    refine ⟨fun hs ht => ⟨[.plat a v], rfl, .inr ⟨a, v, by simp, ?_⟩⟩, fun added ha hm => ?_⟩
    · by_contra hne
      have hv := State.setLineByte_lineByte_other { s with host := r } v (Ne.symm hne)
      simp only [State.valBit, State.emit_lineByte, hv] at ht hs
      exact absurd (hs.symm.trans ht) (by decide)
    · cases List.append_cancel_left ha
      simp at hm
  case inr.inr.inr.inr => exact absurd ⟨r, hh⟩ hnr
  all_goals
    refine ⟨fun hs ht => absurd (hs.symm.trans ht) (by decide), fun added ha hm => ?_⟩
    rw [List.self_eq_append_right.mp ha] at hm
    exact absurd hm List.not_mem_nil

/-- Settles O51: `LineChange.dirBit` for `exec` and for a turn of CORE; of the host's moves only `PlatWrite`
changes a direction bit, one of the register it names. -/
theorem directionOnlyByInit : Obligations.DirectionOnlyByInit := by
  refine ⟨fun s t i hwf h l => ?_, fun s t l hi h hne => ?_⟩
  · rw [(exec_effect h).change.dirBit hwf l]
    congr 1
    exact decide_eq_decide.mpr ⟨mem_dirTargets, fun ⟨hi, hl⟩ => by subst hi; exact hl⟩
  · rcases step_cases h with
      ⟨r, -, hc⟩ | ⟨b, r, -, rfl⟩ | ⟨q, r, -, rfl⟩ | ⟨a, v, r, hh, hq, -, rfl⟩ | ⟨r, -, rfl⟩
    case inl =>
      obtain ⟨ls, ⟨-, hch⟩, hat⟩ := coreTurn_effect hc
      obtain ⟨hwf, -⟩ := hi.lines
      have hd : t.dirBit l = (s.dirBit l || decide (l ∈ ls)) := hch.dirBit hwf l
      have hl : l ∈ ls := by
        by_contra hl
        exact hne (by simpa [hl] using hd)
      obtain ⟨hrun, hown⟩ := (hi.host_move r _ _).init_of_atDirSet (hat l hl)
      exact .inl ⟨hrun, hown, by simp [hd, hl]⟩
    case inr.inr.inr.inl =>
      refine .inr ⟨a, v, r, hh, hq, ?_⟩
      by_contra ha
      have hv := State.setLineByte_lineByte_other { s with host := r } v (Ne.symm ha)
      exact hne (by simp only [State.dirBit, State.emit_lineByte, hv]; rfl)
    all_goals exact absurd rfl hne

/-! ### The command stream in every step -/

/-- A move that waits offers no byte. -/
theorem HostMove.offeredByte_of_not_enabled {m : HostMove} {s : State} (h : m.enabled s = false) :
    m.offeredByte = none := by
  cases m with
  | platWrite | run | ready | reset => rfl
  | offer => cases h

theorem Pos.cmdAsked_le_one (p : Pos) (cnt : Byte) : p.cmdAsked cnt ≤ 1 := by
  unfold Pos.cmdAsked
  split
  · exact le_refl _
  · split <;> decide
  all_goals exact Nat.zero_le _

/-- The bytes a turn may take are within the bounds of R48. -/
theorem State.cmdAsked_le (s : State) :
    s.cmdAsked ≤ if s.seq = .idle then (s.running.map Instr.packetLength).getD 1 else 1 := by
  unfold State.cmdAsked
  cases hq : s.seq with
  | idle => simp
  | busy w => simpa using w.pos.cmdAsked_le_one s.cnt
  | halted => simp

/-- Away from a `CmdNext` a turn may take no byte. -/
theorem State.cmdAsked_of_not_atCmdNext {s : State} (h : s.atCmdNext = false) : s.cmdAsked = 0 := by
  unfold State.atCmdNext at h
  unfold State.cmdAsked
  cases hq : s.seq with
  | idle => simp [hq] at h
  | halted => rfl
  | busy w =>
    simp only [hq] at h
    cases hp : w.pos with
    | operands => simp [hp] at h
    | payload => simpa [hp, Pos.cmdAsked] using h
    | body | ownLines | storeSlot | delay | readNext | shifting | data | status => simp [hp, Pos.cmdAsked]

/-- Settles O7: CORE's turns take bytes by `coreTurn_effect`, within `State.cmdAsked`; the host's moves but
a reset take none, and an offer puts its byte behind the others. -/
theorem commandBytesInOrder : Obligations.CommandBytesInOrder := by
  intro s t h hnr
  rcases step_cases h with
    ⟨r, hr, hc⟩ | ⟨b, r, hh, rfl⟩ | ⟨q, r, hh, rfl⟩ | ⟨a, v, r, hh, -, -, rfl⟩ | ⟨r, hh, -⟩
  case inl =>
    obtain ⟨ls, ⟨⟨x, hx, hlen⟩, -⟩, -⟩ := coreTurn_effect hc
    have hoff : s.offeredNext = [] := by
      rcases hr with hh | ⟨rfl, hw⟩
      · simp [State.offeredNext, hh, HostMove.offeredByte]
      · cases hm : s.host.head? with
        | none => simp [State.offeredNext, hm]
        | some m => simp [State.offeredNext, hm, HostMove.offeredByte_of_not_enabled (hw m hm)]
    refine ⟨x, t.cmdIn, hx, by rw [hoff, List.append_nil], fun m hm he hne => ?_, fun ha => ?_,
      hlen.trans s.cmdAsked_le⟩
    · rcases hr with hh | ⟨rfl, hw⟩
      · exact absurd (by simpa [hh] using hm.symm) hne
      · simp [hw m hm] at he
    · have h0 : x.length ≤ 0 := (State.cmdAsked_of_not_atCmdNext ha) ▸ hlen
      exact List.length_eq_zero_iff.mp (Nat.le_zero.mp h0)
  case inr.inr.inr.inr => exact absurd ⟨r, hh⟩ hnr
  all_goals
    exact ⟨[], s.cmdIn, rfl, by simp [State.offeredNext, hh, HostMove.offeredByte], fun _ _ _ _ => rfl, fun _ => rfl,
      Nat.zero_le _⟩

end Sys2Proof.Machine
end

section
/-! SUPPORT. CORE at a byte it waits for: one it asks for on the command stream (spec/20_memory.md R48), one
it offers on the response stream (R49). -/

namespace Sys2Proof.Machine

section
variable {s : State}

/-! ### Waiting is a step that changes nothing -/

/-- The sequencer at `p` moved to `p`. -/
theorem State.moveTo_self {w : Work} (h : s.seq = .busy w) : s.moveTo w.pos = s := by
  have hq : s.seq.moveTo w.pos = s.seq := by rw [h]; rfl
  rw [State.moveTo, hq]

theorem coreTurn_of_no_opcode (hq : s.seq = .idle) (hc : s.cmdIn = []) : coreTurn s = .next s := by
  cases hg : s.grain <;>
    simp [coreTurn, fetch, hg, hq, hc, decode, coreStep, State.takeOpcode, State.cmdNext]

theorem microStep_of_no_operand {w : Work} (hp : w.pos = .operands) (hc : s.cmdIn = []) :
    microStep w s = .next s := by
  rw [microStep_operands s w hp]
  simp [State.takeOperand, State.cmdNext, hc]

/-- At a position whose micro-step changes nothing in any command, CORE stays. -/
theorem microStep_stays {w : Work} (h1 : w.pos ≠ .operands) (h2 : ∀ v, w.pos ≠ .status v)
    (h : ∀ i, microCommand i w.pos s = .next s) : microStep w s = .next s := by
  unfold microStep
  split
  next hp => exact absurd hp h1
  next v hp => exact absurd hp (h2 v)
  next i _ _ _ _ => exact h i
  next => rfl

theorem microCommand_payload_of_no_byte (h0 : s.cnt ≠ 0x00#8) (hc : s.cmdIn = []) (i : Instr) :
    microCommand i .payload s = .next s := by
  simp [microCommand, microPayload, h0, State.cmdNext, hc]

theorem microCommand_data_of_not_taken {v : Byte} (h : ¬ s.takes 1) (i : Instr) :
    microCommand i (.data v) s = .next s := by
  simp [microCommand, microData, State.takeRsp_holds v h]

/-- A host that takes no byte more. -/
theorem State.not_takes_one (h : s.rspReady = .upTo 0) : ¬ s.takes 1 := by
  simp [State.takes, h]

end

/-! ### The command stream -/

/-- Settles O36: each of the three places of a `CmdNext` has its lemma above. -/
theorem missingByteWaits : Obligations.MissingByteWaits := by
  intro s hr hc hh
  rw [step_of_host_nil hh]
  have ha : s.atCmdNext = true := by
    simp only [State.cmdReady, Bool.and_eq_true] at hr
    exact hr.2
  unfold State.atCmdNext at ha
  cases hq : s.seq with
  | idle => exact coreTurn_of_no_opcode hq hc
  | halted => simp [hq] at ha
  | busy w =>
    rw [coreTurn_of_busy hq]
    simp only [hq] at ha
    cases hp : w.pos with
    | operands => exact microStep_of_no_operand hp hc
    | payload =>
      have h0 : s.cnt ≠ 0x00#8 := by simpa [hp] using ha
      exact microStep_stays (by simp [hp]) (by simp [hp]) (hp ▸ microCommand_payload_of_no_byte h0 hc)
    | body | ownLines | storeSlot | delay | readNext | shifting | data | status => simp [hp] at ha

/-- Settles O34: the loop of WRITE_BYTES stops at its head, before the first exchange. -/
theorem writeBytesWaitsForPayload : Obligations.WriteBytesWaitsForPayload := by
  intro s n hn hc hr
  obtain ⟨k, hk⟩ : ∃ k, n.toNat = k + 1 := Nat.exists_eq_succ_of_ne_zero fun h => hn (BitVec.eq_of_toNat_eq h)
  have hx : exec (.writeBytes n) s = .next (State.moveTo { s.begin (.writeBytes n) with cnt := n } .payload) := by
    simp [exec, execWriteBytes, hk, writeLoop, State.cmdNext, hc]
  refine ⟨_, hx, rfl, ?_, rfl, rfl, rfl, rfl⟩
  rw [State.cmdReady_of_rst (s := State.moveTo { s.begin (.writeBytes n) with cnt := n } .payload) hr]
  exact decide_eq_true hn

/-! ### The response stream -/

/-- Settles O35: a data byte is held by `microData`, a status byte by `State.putStatus`. -/
theorem offeredByteHeld : Obligations.OfferedByteHeld := by
  intro s v ho hr hh
  rw [step_of_host_nil hh]
  have ht := State.not_takes_one hr
  have ha : s.atRspPut = some v := by
    unfold State.rspOffered at ho
    split at ho
    · cases ho
    · exact ho
  unfold State.atRspPut at ha
  cases hq : s.seq with
  | idle | halted => simp [hq] at ha
  | busy w =>
    rw [coreTurn_of_busy hq]
    simp only [hq] at ha
    cases hp : w.pos with
    | data x => exact microStep_stays (by simp [hp]) (by simp [hp]) (hp ▸ microCommand_data_of_not_taken ht)
    | status x => rw [microStep_status s w x hp, State.putStatus_holds x ht, ← hp, State.moveTo_self hq]
    | operands | body | ownLines | storeSlot | delay | payload | readNext | shifting => simp [hp] at ha

/-- READ_BYTE whose data byte is not taken stops at it (43_transfer.md R119). -/
theorem execReadByte_of_not_taken {s u : State} {rx : Byte}
    (hx : (s.begin .readByte).exchange dummyByte = .done rx u) (hu : ¬ u.takes 1) :
    execReadByte s = .next (u.moveTo (.data rx)) := by
  simp only [execReadByte, hx, State.takeRsp_holds rx hu]

/-- Settles O37: the exchange completes, and READ_BYTE stops at its data byte. -/
theorem readByteOffersData : Obligations.ReadByteOffersData := by
  intro s he hr hrst
  obtain ⟨rx, m, d, hx⟩ := State.exchange_done (s := s.begin .readByte) dummyByte he
  refine ⟨_, execReadByte_of_not_taken hx (State.not_takes_one hr), rfl, ?_, rfl⟩
  exact State.rspOffered_of_rst (s := State.moveTo _ _) hrst

end Sys2Proof.Machine
end

section
/-! SUPPORT. The packets of the commands and the opcodes that select none (spec/30_encoding.md R61 to R65). -/

namespace Sys2Proof.Machine

/-! ### Packets -/

/-- Settles O1, by the case split over the commands in `decode_encode_append`. -/
theorem decodeOfEncode : Obligations.DecodeOfEncode := decode_encode_append

/-- Settles O2, by the case split over the opcode map in `eq_encode_append_of_decode`. -/
theorem encodeOfDecode : Obligations.EncodeOfDecode := fun _ _ _ => eq_encode_append_of_decode

/-- Settles O3: each packet is short and closed, and the decoder computes. -/
theorem decodedWords : Obligations.DecodedWords := by
  unfold Obligations.DecodedWords
  decide

/-! ### Illegal opcodes -/

/-- The opcodes outside the map are 0 and those from 9 on (spec/30_encoding.md R65). -/
theorem decode_illegal_iff (opc : Byte) (rest : List Byte) :
    decode (opc :: rest) = .illegal opc rest ↔ (opc = 0x00#8 ∨ 9 ≤ opc.toNat) := by
  constructor
  · intro h
    simp only [decode] at h
    split_ifs at h with h1 h2 h3 h4 h5 h6 h7 h8
    case pos => exact absurd h decodeRegister_ne_illegal
    case neg => bv_omega
    all_goals exact absurd h decodeByteOperand_ne_illegal
  · intro h
    have hne : ∀ k : Byte, k ≠ 0x00#8 → k.toNat < 9 → opc ≠ k := by
      rintro k h0 h9 rfl
      exact h.elim h0 (by omega)
    simp [decode, hne]

/-- What raising a fault does to each field once the host takes the status byte (spec/60_exceptions.md R131). -/
theorem State.raise_fields {s : State} (f : CoreFault) (info : Byte) (h : s.takes 1) :
    s.raise f info = { s with
      fault := if s.fault = 0x00#8 then f.code else s.fault,
      finfo := if s.fault = 0x00#8 then info else s.finfo,
      hist := s.hist ++ [.fault f.code info, .rsp f.code], rspReady := s.rspReady.afterTake,
      seq := seqAfterStatus f.code } := by
  rw [State.raise_takes f info h, State.recordFault]
  by_cases h0 : s.fault = 0x00#8
  · simp only [h0, if_true]
  · simp only [h0, if_false]

section
variable {s : State} {opc : Byte} {rest : List Byte}

/-- Under the grain `command` an illegal opcode is taken and answered in one turn (spec/60_exceptions.md R132). -/
theorem coreTurn_of_illegal_command (hg : s.grain = .command) (hq : s.seq = .idle)
    (hd : decode s.cmdIn = .illegal opc rest) :
    coreTurn s = .next ((State.latchPacket { s with cmdIn := rest } opc [] .operands).raise .illegalCommand opc) := by
  simp only [coreTurn, fetch, hg, hq, hd]

/-- Under the fine grain the turn that takes an illegal opcode stops at its status byte. -/
theorem coreTurn_of_illegal_fine (hg : s.grain = .fine) (hq : s.seq = .idle)
    (hd : decode s.cmdIn = .illegal opc rest) :
    coreTurn s =
      .next ((State.latchPacket { s with cmdIn := rest } opc [] .operands).microRaise .illegalCommand opc) := by
  obtain ⟨hc, hl⟩ := decode_illegal_cases hd
  rw [coreTurn_of_idle_fine hq hg]
  simp only [State.takeOpcode, State.cmdNext, hc, State.acceptPacket, hl]

/-- The turn after a fault inside a command: the status byte ends it (spec/60_exceptions.md R131). -/
theorem coreTurn_microRaise {w : Work} (hq : s.seq = .busy w) (f : CoreFault) (info : Byte) :
    coreTurn (s.microRaise f info) = .next (s.raise f info) := by
  obtain ⟨a, b, h, e⟩ := State.enterFault_frame s f info
  have hb : (s.microRaise f info).seq = .busy { w with pos := .status f.code } := by
    rw [State.microRaise, e, State.moveTo_seq, hq]; rfl
  rw [coreTurn_of_busy hb, microStep_status _ _ _ rfl, State.microRaise, State.putStatus_moveTo, State.raise]

theorem State.microRaise_host (s : State) (f : CoreFault) (info : Byte) : (s.microRaise f info).host = s.host := by
  obtain ⟨a, b, h, e⟩ := State.enterFault_frame s f info
  rw [State.microRaise, e, State.moveTo_host]

/-- One turn of CORE, the host making no move. -/
theorem State.runs_one {t : State} (hh : s.host = []) (h : coreTurn s = .next t) : s.runs 1 = .next t := by
  rw [State.runs_succ, step_of_host_nil hh, h, Out.andThen_next, State.runs_zero]

/-- An illegal opcode is taken and answered in one step or in two, by the grain (log entries 10, 17). -/
theorem State.runs_of_illegal (hh : s.host = []) (hq : s.seq = .idle) (hd : decode s.cmdIn = .illegal opc rest) :
    ∃ n, n ≤ 2 ∧ s.runs n =
      .next ((State.latchPacket { s with cmdIn := rest } opc [] .operands).raise .illegalCommand opc) := by
  have hgrain : s.grain = .command ∨ s.grain = .fine := by cases s.grain <;> simp
  rcases hgrain with hg | hg
  · exact ⟨1, by decide, State.runs_one hh (coreTurn_of_illegal_command hg hq hd)⟩
  · refine ⟨2, le_rfl, ?_⟩
    rw [State.runs_add 1 (State.runs_one hh (coreTurn_of_illegal_fine hg hq hd))]
    exact State.runs_one ((State.microRaise_host _ _ _).trans hh) (coreTurn_microRaise rfl _ _)

end

/-- Settles O4: the run comes to the fault raised on the state with the opcode taken, and what raising a fault
does to each field is `State.raise_fields`. -/
theorem illegalOpcodeHalts : Obligations.IllegalOpcodeHalts := by
  refine ⟨decode_illegal_iff, fun s opc rest hq hh hc ho ht => ?_⟩
  have hd : decode s.cmdIn = .illegal opc rest := hc ▸ (decode_illegal_iff opc rest).mpr ho
  obtain ⟨n, hn, hr⟩ := State.runs_of_illegal hh hq hd
  refine ⟨n, hn, hr.trans ?_⟩
  rw [State.raise_fields (s := State.latchPacket { s with cmdIn := rest } opc [] .operands) _ _ ht]
  rfl

end Sys2Proof.Machine
end

section
/-! SUPPORT. The response of a command (spec/30_encoding.md R68): what CORE has sent since the command began, one
rule per operation, and so what each command that ends has answered. -/

namespace Sys2Proof.Machine

/-! ### Bytes sent inside a command -/

@[simp] theorem responses_append (h k : List Event) : responses (h ++ k) = responses h ++ responses k :=
  List.filterMap_append

@[simp] theorem responses_rsp (v : Byte) : responses [.rsp v] = [v] := rfl

/-- `DirSet` events are no responses. -/
@[simp] theorem responses_dirs (ls : List Line) : responses (ls.map fun l => Event.dir l.port l.bit) = [] := by
  simp [responses]

theorem Seq.moveTo_eq_idle {q : Seq} {p : Pos} : q.moveTo p = .idle ↔ q = .idle := by
  cases q <;> simp [Seq.moveTo]

/-- A command is in progress in `t`, and CORE has sent `data` since `s`. -/
structure Sent (s : State) (data : List Byte) (t : State) : Prop where
  inProgress : t.seq ≠ .idle
  sent : responses t.hist = responses s.hist ++ data

/-- The response of command `i` since `s` is its data bytes and one status byte, by the table of R68. -/
def Answered (i : Instr) (s t : State) : Prop :=
  ∃ data status, responses t.hist = responses s.hist ++ data ++ [status] ∧
    ((status = 0x00#8 ∧ data.length = dataBytes i) ∨ (status ∈ faultCodes i ∧ data = []))

namespace Sent

section
variable {s t u : State} {data : List Byte}

theorem begin (s : State) (i : Instr) : Sent s [] (s.begin i) := ⟨nofun, (List.append_nil _).symm⟩

/-- An update that neither ends the command nor sends a byte. -/
theorem silent (h : Sent s data t) (hq : u.seq = t.seq) (hr : responses u.hist = responses t.hist) :
    Sent s data u :=
  ⟨hq ▸ h.inProgress, hr.trans h.sent⟩

theorem rmw {a : Nat} {set clear : Byte} {e : Event} (h : Sent s data t) (he : responses [e] = [])
    (hu : t.rmw a set clear e = .next u) : Sent s data u := by
  obtain ⟨-, rfl⟩ := State.rmw_cases hu
  exact h.silent rfl (by simp [State.rmwResult, State.setLineByte, he])

theorem dirSetAll {ls : List Line} (h : Sent s data t) (hu : State.dirSetAll ls t = .next u) : Sent s data u := by
  rw [State.dirSetAll_cases hu]
  exact h.silent rfl (by simp)

theorem writeCtrl (h : Sent s data t) (v : Byte) : Sent s data (t.writeCtrl v) :=
  h.silent rfl (by simp [State.writeCtrl, responses])

theorem writeSlot (h : Sent s data t) (id : Byte) (d : Slot) : Sent s data (t.writeSlot id d) := by
  obtain ⟨x, e⟩ := State.writeSlot_frame t id d
  rw [e]
  exact h.silent rfl rfl

theorem wait (h : Sent s data t) (d : Delay) : Sent s data (t.wait d) :=
  h.silent rfl (by simp [State.wait, responses])

theorem countByte (h : Sent s data t) : Sent s data t.countByte := h.silent rfl rfl

theorem exchange_done {tx rx : Byte} (h : Sent s data t) (hu : t.exchange tx = .done rx u) : Sent s data u := by
  rcases State.exchange_cases t tx with ⟨rx', m, r, -, e⟩ | ⟨-, e⟩
  · cases e.symm.trans hu
    exact h.silent rfl (by simp [responses])
  · cases e.symm.trans hu

/-- An exchange that hangs does not end the command (43_transfer.md R111). -/
theorem exchange_stuck {tx : Byte} (h : Sent s data t) (hu : t.exchange tx = .stuck u) : u.seq ≠ .idle := by
  rcases State.exchange_cases t tx with ⟨rx, m, r, -, e⟩ | ⟨-, e⟩
  · cases e.symm.trans hu
  · cases e.symm.trans hu
    exact mt Seq.moveTo_eq_idle.mp h.inProgress

/-- A command that moves to another position has not ended. -/
theorem moveTo_ne_idle (h : Sent s data t) (p : Pos) : (t.moveTo p).seq ≠ .idle :=
  mt Seq.moveTo_eq_idle.mp h.inProgress

/-- A data byte the host takes. -/
theorem takeRsp {v : Byte} (h : Sent s data t) (hu : t.takeRsp v = some u) : Sent s (data ++ [v]) u := by
  obtain ⟨-, rfl⟩ := State.takeRsp_cases hu
  exact ⟨h.inProgress, by simp [State.taken, h.sent]⟩

theorem recordFault (h : Sent s data t) (f : CoreFault) (info : Byte) : Sent s data (t.recordFault f info) := by
  unfold State.recordFault
  split
  · exact h.silent rfl rfl
  · exact h

theorem enterFault (h : Sent s data t) (f : CoreFault) (info : Byte) : Sent s data (t.enterFault f info) :=
  (h.recordFault f info).silent rfl (by simp [State.enterFault, responses])

/-! ### How a command ends -/

/-- The status byte ends the command only where the host takes it. -/
theorem putStatus (h : Sent s data t) {v : Byte} (hq : (t.putStatus v).seq = .idle) :
    responses (t.putStatus v).hist = responses s.hist ++ data ++ [v] := by
  by_cases ht : t.takes 1
  · rw [State.putStatus_takes v ht]
    simp [State.taken, h.sent]
  · rw [State.putStatus_holds v ht] at hq
    exact absurd hq (h.moveTo_ne_idle _)

theorem completed {i : Instr} (h : Sent s data t) (hl : data.length = dataBytes i)
    (hq : (t.putStatus statusOk).seq = .idle) : Answered i s (t.putStatus statusOk) :=
  ⟨data, statusOk, h.putStatus hq, .inl ⟨rfl, hl⟩⟩

theorem faulted {i : Instr} {f : CoreFault} {info : Byte} (h : Sent s [] t) (hf : f.code ∈ faultCodes i)
    (hq : (t.raise f info).seq = .idle) : Answered i s (t.raise f info) :=
  ⟨[], f.code, (h.enterFault f info).putStatus hq, .inr ⟨hf, rfl⟩⟩

/-- A single-bit line write, and what a command that returns no data does after it. -/
theorem lineWrite {i : Instr} {a : Nat} {set clear : Byte} {e : Event} {g : State → State} (h : Sent s [] t)
    (hi : dataBytes i = 0) (he : responses [e] = []) (hg : ∀ v, Sent s [] v → Sent s [] (g v))
    (hu : (t.rmw a set clear e).andThen (fun v => .next ((g v).putStatus statusOk)) = .next u)
    (hq : u.seq = .idle) : Answered i s u := by
  obtain ⟨v, hv, hu⟩ := Out.andThen_eq_next.mp hu
  cases hu
  exact (hg v (h.rmw he hv)).completed hi.symm hq

/-- The loop of WRITE_BYTES returns no data, however many bytes it has to go. -/
theorem writeLoop {n : Byte} (h : Sent s [] t) (k : Nat) (hq : (writeLoop k t).seq = .idle) :
    Answered (.writeBytes n) s (writeLoop k t) := by
  induction k generalizing t with
  | zero => exact h.completed rfl hq
  | succ k ih =>
    cases hc : t.cmdIn with
    | nil =>
      simp only [Machine.writeLoop, State.cmdNext, hc] at hq
      exact absurd hq (h.moveTo_ne_idle _)
    | cons b rest =>
      have hb : Sent s [] { t with cmdIn := rest } := h.silent rfl rfl
      cases hx : State.exchange { t with cmdIn := rest } b with
      | done rx u =>
        simp only [Machine.writeLoop, State.cmdNext, hc, hx] at hq ⊢
        exact ih (hb.exchange_done hx).countByte hq
      | stuck u =>
        simp only [Machine.writeLoop, State.cmdNext, hc, hx] at hq
        exact absurd hq (hb.exchange_stuck hx)

/-- The loop of READ_BYTES returns the bytes sent before it and one for each pass. -/
theorem readLoop {n : Byte} {k : Nat} (h : Sent s data t) (hl : data.length + k = n.toNat)
    (hq : (readLoop k t).seq = .idle) : Answered (.readBytes n) s (readLoop k t) := by
  induction k generalizing t data with
  | zero => exact h.completed hl hq
  | succ k ih =>
    cases hx : t.exchange dummyByte with
    | done rx u =>
      have hu := h.exchange_done hx
      cases hr : u.takeRsp rx with
      | none =>
        simp only [Machine.readLoop, hx, hr] at hq
        exact absurd hq (hu.moveTo_ne_idle _)
      | some v =>
        simp only [Machine.readLoop, hx, hr] at hq ⊢
        exact ih (hu.takeRsp hr).countByte (by simp; omega) hq
    | stuck u =>
      simp only [Machine.readLoop, hx] at hq
      exact absurd hq (h.exchange_stuck hx)

end

end Sent

/-! ### Whole commands -/

/-- REGISTER_SLAVE faults with one of the codes R68 lists for it. -/
theorem registerFault_code {n : Nat} {id port : Byte} {rsv : BitVec 5} {b3 info : Byte} {f : CoreFault}
    (h : registerFault n id port rsv b3 = some (f, info)) : f.code ∈ [0x02#8, 0x04#8] := by
  unfold registerFault at h
  split_ifs at h <;> cases h <;> simp [CoreFault.code]

/-- SELECT and DESELECT fault with one of the codes R68 lists for them. -/
theorem lookup_error_code {s : State} {id : Byte} {f : CoreFault} (h : s.lookup id = .error f) :
    f.code ∈ [0x02#8, 0x03#8] := by
  rw [(State.lookup_error h).2]
  split <;> simp [CoreFault.code]

section
variable {s t : State}

theorem execInit_answered (h : execInit s = .next t) (hq : t.seq = .idle) : Answered .init s t := by
  obtain ⟨u, hu, ht⟩ := Out.andThen_eq_next.mp h
  cases ht
  exact (((Sent.begin s _).dirSetAll hu).writeCtrl _).completed rfl hq

theorem execRegisterSlave_answered {id port : Byte} {rsv : BitVec 5} {bit : BitPos} {sel desel : Delay}
    (h : execRegisterSlave id port rsv bit sel desel s = .next t) (hq : t.seq = .idle) :
    Answered (.registerSlave id port rsv bit sel desel) s t := by
  unfold execRegisterSlave at h
  split at h
  next hf =>
    cases h
    exact (Sent.begin s _).faulted (registerFault_code hf) hq
  next => exact (Sent.begin s _).lineWrite rfl rfl (fun v hv => hv.writeSlot _ _) h hq

theorem execSelect_answered {id : Byte} (h : execSelect id s = .next t) (hq : t.seq = .idle) :
    Answered (.select id) s t := by
  unfold execSelect at h
  split at h
  next hf =>
    cases h
    exact (Sent.begin s _).faulted (lookup_error_code hf) hq
  next => exact (Sent.begin s _).lineWrite rfl rfl (fun v hv => hv.wait _) h hq

theorem execDeselect_answered {id : Byte} (h : execDeselect id s = .next t) (hq : t.seq = .idle) :
    Answered (.deselect id) s t := by
  unfold execDeselect at h
  split at h
  next hf =>
    cases h
    exact (Sent.begin s _).faulted (lookup_error_code hf) hq
  next => exact (Sent.begin s _).lineWrite rfl rfl (fun v hv => hv.wait _) h hq

theorem execWriteByte_answered {b : Byte} (h : execWriteByte b s = .next t) (hq : t.seq = .idle) :
    Answered (.writeByte b) s t := by
  unfold execWriteByte at h
  split at h
  next hx =>
    cases h
    exact ((Sent.begin s _).exchange_done hx).completed rfl hq
  next hx =>
    cases h
    exact absurd hq ((Sent.begin s _).exchange_stuck hx)

theorem execReadByte_answered (h : execReadByte s = .next t) (hq : t.seq = .idle) : Answered .readByte s t := by
  unfold execReadByte at h
  split at h
  next hx =>
    have hs := (Sent.begin s _).exchange_done hx
    split at h
    next hr =>
      cases h
      exact (hs.takeRsp hr).completed rfl hq
    next =>
      cases h
      exact absurd hq (hs.moveTo_ne_idle _)
  next hx =>
    cases h
    exact absurd hq ((Sent.begin s _).exchange_stuck hx)

theorem execWriteBytes_answered {n : Byte} (h : execWriteBytes n s = .next t) (hq : t.seq = .idle) :
    Answered (.writeBytes n) s t := by
  cases h
  have hs : Sent s [] { s.begin (.writeBytes n) with cnt := n } := (Sent.begin s _).silent rfl rfl
  exact hs.writeLoop _ hq

theorem execReadBytes_answered {n : Byte} (h : execReadBytes n s = .next t) (hq : t.seq = .idle) :
    Answered (.readBytes n) s t := by
  cases h
  have hs : Sent s [] { s.begin (.readBytes n) with cnt := n } := (Sent.begin s _).silent rfl rfl
  exact hs.readLoop (Nat.zero_add _) hq

end

/-- Settles O41: one lemma per command. -/
theorem oneStatusByte : Obligations.OneStatusByte := by
  intro s t i h hq
  cases i with
  | init => exact execInit_answered h hq
  | registerSlave => exact execRegisterSlave_answered h hq
  | select => exact execSelect_answered h hq
  | deselect => exact execDeselect_answered h hq
  | writeByte => exact execWriteByte_answered h hq
  | writeBytes => exact execWriteBytes_answered h hq
  | readByte => exact execReadByte_answered h hq
  | readBytes => exact execReadBytes_answered h hq

end Sys2Proof.Machine
end

section
/-! SUPPORT. The assembler: the delay literal, long bulk commands and the numbers of the text
(spec/30_encoding.md R70 to R72; spec/00_scope.md R5). -/

namespace Sys2Proof.Machine

/-! ### The delay literal (R71) -/

/-- The rounded-up quotient is the least count that is not shorter than the time asked for. -/
theorem dqOfMicros_le_iff {num den : Nat} (hd : den ≠ 0) (k : Nat) : dqOfMicros num den ≤ k ↔ 16 * num ≤ k * den := by
  have hpos : 0 < den := Nat.pos_of_ne_zero hd
  rw [dqOfMicros, ← Nat.add_sub_assoc hpos, ← Nat.ceilDiv_eq_add_pred_div, ceilDiv_le_iff_le_mul hpos,
    Nat.mul_comm den k]
  rfl

/-- A literal has its rounded count as its value where 16 bits hold it. -/
theorem DelayLit.value_us {num den : Nat} (hd : den ≠ 0) :
    (DelayLit.us num den).value =
      if dqOfMicros num den ≤ 65535 then some (BitVec.ofNat 16 (dqOfMicros num den)) else none := by
  simp only [DelayLit.value, hd, if_false]

/-- Settles O55: both clauses are `dqOfMicros_le_iff`, at the value and at the largest delay. -/
theorem delayLiteralRoundsUp : Obligations.DelayLiteralRoundsUp := by
  intro num den hd
  rw [DelayLit.value_us hd]
  by_cases hle : dqOfMicros num den ≤ 65535
  · rw [if_pos hle]
    have hn : (BitVec.ofNat 16 (dqOfMicros num den)).toNat = dqOfMicros num den :=
      Nat.mod_eq_of_lt (by omega)
    refine ⟨?_, iff_of_false nofun (not_lt.mpr ((dqOfMicros_le_iff hd _).mp hle))⟩
    rintro d ⟨⟩
    rw [hn]
    exact ⟨(dqOfMicros_le_iff hd _).mp le_rfl, fun k => (dqOfMicros_le_iff hd k).mpr⟩
  · rw [if_neg hle]
    exact ⟨nofun, iff_of_true rfl (not_le.mp (mt (dqOfMicros_le_iff hd _).mpr hle))⟩

/-! ### Long bulk commands (R72) -/

/-- A count of more than 255 takes one packet more than the count less 255. -/
theorem div_255_of_gt {n : Nat} (h : 255 < n) : n / 255 = (n - 255) / 255 + 1 := by omega

theorem splitRead_of_le {fuel n : Nat} (h : n ≤ 255) : splitRead fuel n = encode (.readBytes (BitVec.ofNat 8 n)) := by
  cases fuel with
  | zero => rfl
  | succ => simp only [splitRead, h, if_true]

theorem splitWrite_of_le {fuel : Nat} {buf : List Byte} (h : buf.length ≤ 255) :
    splitWrite fuel buf = encode (.writeBytes (BitVec.ofNat 8 buf.length)) ++ buf := by
  cases fuel with
  | zero => rfl
  | succ => simp only [splitWrite, h, if_true]

theorem assemble_readBytes_of_gt {n : Nat} (h : 255 < n) :
    assemble (.readBytes n) = (assemble (.readBytes (n - 255))).map fun bs => [0x08#8, 0xFF#8] ++ bs := by
  simp only [assemble, div_255_of_gt h, splitRead, not_le.mpr h, if_false]
  rfl

theorem assemble_writeBytes_of_gt {buf : List Byte} (h : 255 < buf.length) :
    assemble (.writeBytes buf) =
      (assemble (.writeBytes (buf.drop 255))).map fun bs => [0x06#8, 0xFF#8] ++ buf.take 255 ++ bs := by
  simp only [assemble, div_255_of_gt h, splitWrite, not_le.mpr h, if_false, List.length_drop]
  rfl

/-- Settles O56: a long command is one packet of 255 and the rest, a short one a single packet. -/
theorem longBulkSplits : Obligations.LongBulkSplits := by
  refine ⟨fun _ => assemble_readBytes_of_gt, fun _ => assemble_writeBytes_of_gt, fun n => ?_, fun n buf hb => ?_⟩
  · rw [assemble, splitRead_of_le (by omega), BitVec.ofNat_toNat, BitVec.setWidth_eq]
    rfl
  · rw [assemble, splitWrite_of_le (by omega), hb, BitVec.ofNat_toNat, BitVec.setWidth_eq]
    rfl

/-! ### Numbers (R70, R5) -/

/-- Reading digits goes on from what the first part of them gave. -/
theorem readDigitsFrom_append {base a b : Nat} {l : List Char} (r : List Char)
    (h : readDigitsFrom base a l = some b) : readDigitsFrom base a (l ++ r) = readDigitsFrom base b r := by
  induction l generalizing a with
  | nil => cases h; rfl
  | cons c l ih =>
    simp only [readDigitsFrom, List.cons_append] at h ⊢
    cases hc : digitOf base c with
    | none => simp [hc] at h
    | some d => exact ih (by simpa only [hc] using h)

/-- Digits written so that each is read as its own value (`f` is their case) are read as the number: by
recursion on the number, as `Nat.toDigits` writes it. -/
theorem readDigitsFrom_map_toDigits {base : Nat} {f : Char → Char} (hb : 1 < base)
    (hf : ∀ d < base, digitOf base (f d.digitChar) = some d) (n : Nat) :
    readDigitsFrom base 0 ((Nat.toDigits base n).map f) = some n := by
  induction n using Nat.strongRec with
  | ind n ih =>
    rcases lt_or_ge n base with hlt | hge
    · simp [Nat.toDigits_of_lt_base hlt, readDigitsFrom, hf n hlt]
    · have hdiv : n / base < n := Nat.div_lt_self (by omega) hb
      rw [Nat.toDigits_of_base_le hb hge, List.map_append, readDigitsFrom_append _ (ih _ hdiv)]
      simp [readDigitsFrom, hf _ (Nat.mod_lt n (by omega)), Nat.div_add_mod']

theorem readDigits_map_toDigits {base : Nat} {f : Char → Char} (hb : 1 < base)
    (hf : ∀ d < base, digitOf base (f d.digitChar) = some d) (n : Nat) :
    readDigits base ((Nat.toDigits base n).map f) = some n := by
  have hne : (Nat.toDigits base n).map f ≠ [] := by simp
  rw [readDigits, if_neg hne, readDigitsFrom_map_toDigits hb hf]

theorem readDigits_toDigits {base : Nat} (hb : 1 < base) (hf : ∀ d < base, digitOf base d.digitChar = some d)
    (n : Nat) : readDigits base (Nat.toDigits base n) = some n := by
  simpa using readDigits_map_toDigits (f := id) hb hf n

/-- Decimal digits have no base written before them. -/
theorem readNumber_of_isDigit {l : List Char} (h : ∀ c ∈ l, c.isDigit = true) : readNumber l = readDigits 10 l := by
  unfold readNumber
  split
  next => exact absurd (h 'x' (by simp)) (by decide)
  next => exact absurd (h 'b' (by simp)) (by decide)
  next => rfl

/-- Settles O57: the digits of each base are read back, as `Nat.toDigits` writes them or in upper case. -/
theorem numbersReadBack : Obligations.NumbersReadBack := by
  intro n
  have hdec : readNumber (Nat.toDigits 10 n) = readDigits 10 (Nat.toDigits 10 n) :=
    readNumber_of_isDigit fun _ => Nat.isDigit_of_mem_toDigits (by decide) (by decide)
  exact ⟨readDigits_toDigits (by decide) (by decide) n, readDigits_map_toDigits (by decide) (by decide) n,
    readDigits_toDigits (by decide) (by decide) n, hdec.trans (readDigits_toDigits (by decide) (by decide) n)⟩

end Sys2Proof.Machine
end

section
/-! SUPPORT. REGISTER_SLAVE (spec/40_registry.md R81): the checks in their order (spec/60_exceptions.md R138),
what the command has written when it comes to its status byte, and how it ends. -/

namespace Sys2Proof.Machine

/-! ### The checks -/

section
variable {n : Nat} {id port b3 info : Byte} {rsv : BitVec 5} {bit : BitPos} {sel desel : Delay} {f : CoreFault}

theorem registerFault_eq_none_iff_wellFormed :
    registerFault n id port rsv b3 = none ↔ Instr.wellFormed n (.registerSlave id port rsv bit sel desel) = true := by
  simp only [registerFault_none, Instr.wellFormed, Bool.and_eq_true, and_assoc]

theorem registerFault_of_not_wellFormed
    (h : Instr.wellFormed n (.registerSlave id port rsv bit sel desel) = false) :
    ∃ f info, registerFault n id port rsv b3 = some (f, info) := by
  have hne : registerFault n id port rsv b3 ≠ none := fun e =>
    absurd (registerFault_eq_none_iff_wellFormed.mp e) (ne_true_of_eq_false h)
  obtain ⟨⟨f, info⟩, e⟩ := Option.ne_none_iff_exists'.mp hne
  exact ⟨f, info, e⟩

/-- The first check that fails decides the code and the byte for `FINFO` (spec/60_exceptions.md R130, R138). -/
theorem registerFault_code_info (h : registerFault n id port rsv b3 = some (f, info)) :
    if 8 ≤ id.toNat then f.code = 0x02#8 ∧ info = id
    else if n ≤ port.toNat then f.code = 0x04#8 ∧ info = port
    else f.code = 0x04#8 ∧ info = b3 := by
  simp only [registerFault, idLegal, portLegal, decide_eq_false_iff_not, not_lt] at h
  split_ifs at h ⊢ <;> cases h <;> exact ⟨rfl, rfl⟩

/-- No fault of REGISTER_SLAVE halts the sequencer (spec/60_exceptions.md R132). -/
theorem seqAfterStatus_of_registerFault (h : registerFault n id port rsv b3 = some (f, info)) :
    seqAfterStatus f.code = .idle := by
  have hc := registerFault_code h
  simp only [List.mem_cons, List.not_mem_nil, or_false] at hc
  rcases hc with hc | hc <;> rw [hc] <;> rfl

end

/-! ### The writes -/

/-- The state once the line of descriptor `d` is high and slot `id` holds `d`, before the status byte (R81). -/
def State.registered (s : State) (id : Byte) (d : Slot) : State :=
  { s.rmwResult (valAddr d.port) (bitMask d.bit) 0#8 (.line d.port d.bit true) with
    slots := (s.writeSlot id d).slots }

section
variable {s : State} {d : Slot}

/-- The two writes of REGISTER_SLAVE, one after the other. -/
theorem State.rmwResult_writeSlot (s : State) (id : Byte) (d : Slot) :
    (s.rmwResult (valAddr d.port) (bitMask d.bit) 0#8 (.line d.port d.bit true)).writeSlot id d =
      s.registered id d := by
  unfold State.registered State.writeSlot
  cases slotIndex id <;> rfl

theorem State.registered_slot_same {id : Byte} (h : idLegal id = true) : (s.registered id d).slot id = some d :=
  s.writeSlot_slot_same d h

theorem State.registered_slot_other {id j : Byte} (h : j ≠ id) : (s.registered id d).slot j = s.slot j :=
  s.writeSlot_slot_other d h

theorem State.registered_lineByte_other {a : Nat} (id : Byte) (h : a ≠ valAddr d.port) :
    (s.registered id d).lineByte a = s.lineByte a :=
  s.setLineByte_lineByte_other _ h

theorem State.registered_valBit (id : Byte) (h : Memory.wf s.lines = true) (l : Line) :
    (s.registered id d).valBit l = (s.valBit l || decide (l = ⟨d.port, d.bit⟩)) :=
  State.rmwResult_valBit_set d.port d.bit (.line d.port d.bit true) l h

theorem State.registered_valBit_other {l : Line} (id : Byte) (h : Memory.wf s.lines = true)
    (hl : l ≠ ⟨d.port, d.bit⟩) : (s.registered id d).valBit l = s.valBit l := by
  simp [State.registered_valBit id h, hl]

theorem State.registered_dirBit (id : Byte) (l : Line) : (s.registered id d).dirBit l = s.dirBit l :=
  s.rmwResult_dirBit d.port _ _ (.line d.port d.bit true) l

end

/-! ### The whole command -/

section
variable {s : State} {id port : Byte} {rsv : BitVec 5} {bit : BitPos} {sel desel : Delay}

theorem exec_registerSlave_of_wellFormed
    (h : Instr.wellFormed s.cfg.nports (.registerSlave id port rsv bit sel desel) = true) :
    exec (.registerSlave id port rsv bit sel desel) s = .next
      (((s.begin (.registerSlave id port rsv bit sel desel)).registered id ⟨port, bit, sel, desel⟩).putStatus
        statusOk) := by
  have hf : registerFault s.cfg.nports id port rsv (byte3 rsv bit) = none :=
    registerFault_eq_none_iff_wellFormed.mpr h
  obtain ⟨-, hp, -⟩ := registerFault_none.mp hf
  rw [← State.rmwResult_writeSlot]
  simp only [exec, execRegisterSlave, hf, State.lineSet_next (s := s.begin _) bit hp, Out.andThen_next]

theorem exec_registerSlave_of_fault {f : CoreFault} {info : Byte}
    (h : registerFault s.cfg.nports id port rsv (byte3 rsv bit) = some (f, info)) :
    exec (.registerSlave id port rsv bit sel desel) s =
      .next ((s.begin (.registerSlave id port rsv bit sel desel)).raise f info) := by
  simp only [exec, execRegisterSlave, h]

end

/-- Settles O11: what the status byte does not touch is as `State.registered` leaves it. -/
theorem registerSlaveCompletes : Obligations.RegisterSlaveCompletes := by
  intro s id port bit sel desel hid hp hwf ht
  have hw : Instr.wellFormed s.cfg.nports (.registerSlave id port 0#5 bit sel desel) = true := by
    simp [Instr.wellFormed, hid, hp, rsvLegal]
  refine ⟨_, exec_registerSlave_of_wellFormed hw, ?_⟩
  rw [State.putStatus_takes (s := (s.begin _).registered _ _) statusOk ht]
  exact ⟨rfl, State.registered_slot_same hid, fun _ => State.registered_slot_other,
    State.registered_valBit id hwf, State.registered_dirBit id, List.append_assoc _ _ _, rfl, rfl, rfl, rfl, rfl⟩

/-- Settles O12: the fault of the first check that fails, raised with a host that takes the status byte. -/
theorem registerSlaveFaults : Obligations.RegisterSlaveFaults := by
  intro s id port rsv bit sel desel hw ht
  obtain ⟨f, info, hf⟩ := registerFault_of_not_wellFormed (b3 := byte3 rsv bit) hw
  refine ⟨f.code, info, ?_, registerFault_code_info hf⟩
  rw [exec_registerSlave_of_fault hf, State.raise_fields (s := s.begin _) f info ht, seqAfterStatus_of_registerFault hf]
  rfl

/-- Settles O13: by the laws of `State.registered` and `State.putStatus_frame` with legal operands, by
`State.raise_frame` with an illegal one. -/
theorem registerSlaveFrame : Obligations.RegisterSlaveFrame := by
  intro s t id port rsv bit sel desel h
  cases hw : Instr.wellFormed s.cfg.nports (.registerSlave id port rsv bit sel desel) with
  | false =>
    obtain ⟨f, info, hf⟩ := registerFault_of_not_wellFormed (b3 := byte3 rsv bit) hw
    cases (exec_registerSlave_of_fault hf).symm.trans h
    obtain ⟨a, b, q, r, added, e⟩ := State.raise_frame (s.begin (.registerSlave id port rsv bit sel desel)) f info
    rw [e]
    exact ⟨fun _ _ => rfl, fun _ _ => rfl, fun _ _ _ => rfl, nofun, fun _ => ⟨rfl, rfl⟩, rfl, rfl, rfl, rfl, rfl,
      rfl, rfl, rfl, rfl, rfl, rfl, rfl⟩
  | true =>
    cases (exec_registerSlave_of_wellFormed hw).symm.trans h
    obtain ⟨q, r, added, e⟩ := State.putStatus_frame
      ((s.begin (.registerSlave id port rsv bit sel desel)).registered id ⟨port, bit, sel, desel⟩) statusOk
    rw [e]
    exact ⟨fun _ => State.registered_slot_other, fun _ ha => State.registered_lineByte_other id ha,
      fun hwf _ hl => State.registered_valBit_other id hwf hl, fun _ => ⟨rfl, rfl⟩, nofun, rfl, rfl, rfl, rfl, rfl,
      rfl, rfl, rfl, rfl, rfl, rfl, rfl⟩

end Sys2Proof.Machine
end

section
/-! SUPPORT. INIT (spec/41_init.md R92): what it has written when it comes to its status byte, and how it ends. -/

namespace Sys2Proof.Machine

/-! ### The writes -/

/-- The events of INIT up to its status byte, in order (R92). -/
def initEvents (c : Config) : List Event := c.ownLines.map (fun l => Event.dir l.port l.bit) ++ [.ctrl ctrlInit]

/-- The state once the own lines are outputs and `CTRL` is written, before the status byte (R92). -/
def State.initWritten (s : State) : State :=
  { s with lines := dirLines s.cfg.ownLines s.lines, ctrl := ctrlInit, hist := s.hist ++ initEvents s.cfg }

/-- `DirSet` of a list a second time changes nothing (spec/41_init.md R93). -/
theorem dirLines_idem (ls : List Line) {m : Memory} (h : Memory.wf m = true) :
    dirLines ls (dirLines ls m) = dirLines ls m :=
  dirLines_same ls (dirLines_wf ls h) fun l hl => by simp [dirLines_getLsbD ls l h, hl]

section
variable {s t : State}

theorem State.initWritten_dirBit (h : Memory.wf s.lines = true) (l : Line) :
    s.initWritten.dirBit l = (s.dirBit l || decide (l ∈ s.cfg.ownLines)) :=
  dirLines_getLsbD s.cfg.ownLines l h

theorem State.initWritten_lineByte_other {a : Nat} (h : ∀ l ∈ s.cfg.ownLines, a ≠ dirAddr l.port) :
    s.initWritten.lineByte a = s.lineByte a :=
  dirLines_read_other s.cfg.ownLines s.lines h

theorem State.initWritten_valBit (s : State) (l : Line) : s.initWritten.valBit l = s.valBit l :=
  congrArg (BitVec.getLsbD · l.bit.toNat)
    (State.initWritten_lineByte_other fun k _ => valAddr_ne_dirAddr l.port k.port)

/-! ### The whole command -/

/-- However INIT ends, its writes are done and its status byte is offered. -/
theorem exec_init_cases (h : exec .init s = .next t) : t = (s.begin .init).initWritten.putStatus statusOk := by
  obtain ⟨u, hu, ht⟩ := Out.andThen_eq_next.mp h
  cases ht
  rw [State.dirSetAll_cases hu]
  simp only [State.writeCtrl, State.emit, State.initWritten, initEvents, State.begin, List.append_assoc]

/-- With legal own lines INIT comes to its status byte. -/
theorem exec_init_next (h : configOk s.cfg) :
    exec .init s = .next ((s.begin .init).initWritten.putStatus statusOk) := by
  obtain ⟨-, -, -, hp⟩ := h
  obtain ⟨u, hu⟩ := State.dirSetAll_next (s := s.begin .init) hp
  have he : exec .init s = .next ((u.writeCtrl ctrlInit).putStatus statusOk) :=
    Out.andThen_eq_next.mpr ⟨u, hu, rfl⟩
  rw [he, exec_init_cases he]

/-- The end of INIT, the host taking the status byte. -/
theorem State.putStatus_initWritten (h : s.takes 1) :
    (s.begin .init).initWritten.putStatus statusOk = { s.initWritten with
      seq := .idle, rspReady := s.rspReady.afterTake, hist := s.hist ++ (initEvents s.cfg ++ [.rsp statusOk]) } := by
  rw [State.putStatus_takes (s := (s.begin .init).initWritten) statusOk h, ← List.append_assoc]
  rfl

end

/-- Settles O8: what the status byte does not touch is as `State.initWritten` leaves it. -/
theorem initCompletes : Obligations.InitCompletes := by
  intro s hc hwf ht
  refine ⟨rfl, _, exec_init_next hc, ?_⟩
  rw [State.putStatus_initWritten ht]
  have hh : s.hist ++ (initEvents s.cfg ++ [.rsp statusOk]) =
      s.hist ++ s.cfg.ownLines.map (fun l => Event.dir l.port l.bit) ++ [.ctrl 0x03#8, .rsp 0x00#8] := by
    simp [initEvents, ctrlInit, statusOk]
  exact ⟨rfl, rfl, State.initWritten_dirBit hwf, s.initWritten_valBit, hh,
    rfl, rfl, rfl, rfl, rfl, rfl, rfl, rfl, rfl⟩

/-- Settles O9: the writes of INIT are those of `State.initWritten`, and the status byte touches no register. -/
theorem initFrame : Obligations.InitFrame := by
  intro s t h
  obtain ⟨q, r, added, e⟩ := State.putStatus_frame (s.begin .init).initWritten statusOk
  rw [exec_init_cases h, e]
  exact ⟨rfl, rfl, rfl, rfl, rfl, rfl, rfl, rfl, rfl, rfl, rfl, rfl, rfl, rfl,
    fun _ => State.initWritten_lineByte_other⟩

/-- Settles O10: the second INIT finds the direction bits set (`dirLines_idem`) and `CTRL` as it writes it. -/
theorem initIdempotent : Obligations.InitIdempotent := by
  intro s t u hwf ht hst htu
  obtain rfl := (exec_init_cases hst).trans (State.putStatus_initWritten (State.takes_one ht))
  obtain rfl := (exec_init_cases htu).trans (State.putStatus_initWritten (State.takes_after ht))
  simp only [State.initWritten, dirLines_idem _ hwf, List.drop_left]

end Sys2Proof.Machine
end

section
/-! SUPPORT. The commands of the registry and of the chip selects on two states that differ in `CTRL` alone
(spec/42_select.md R98, R101): what each operation does with another `CTRL` is what it does, with that `CTRL`. -/

namespace Sys2Proof.Machine

/-- The same state but for `CTRL`. -/
def State.withCtrl (s : State) (c : Byte) : State := { s with ctrl := c }

section
variable {s t : State} {c : Byte}

/-! ### Operations -/

theorem State.cfg_withCtrl (s : State) (c : Byte) : (s.withCtrl c).cfg = s.cfg := rfl

theorem State.emit_withCtrl (s : State) (c : Byte) (e : Event) : (s.withCtrl c).emit e = (s.emit e).withCtrl c := rfl

theorem State.begin_withCtrl (s : State) (c : Byte) (i : Instr) : (s.withCtrl c).begin i = (s.begin i).withCtrl c := rfl

theorem State.wait_withCtrl (s : State) (c : Byte) (d : Delay) : (s.withCtrl c).wait d = (s.wait d).withCtrl c := rfl

theorem State.lookup_withCtrl (s : State) (c id : Byte) : (s.withCtrl c).lookup id = s.lookup id := rfl

theorem State.putStatus_withCtrl (s : State) (c v : Byte) :
    (s.withCtrl c).putStatus v = (s.putStatus v).withCtrl c := by
  by_cases ht : s.takes 1
  · rw [State.putStatus_takes v ht, State.putStatus_takes (s := s.withCtrl c) v ht]; rfl
  · rw [State.putStatus_holds v ht, State.putStatus_holds (s := s.withCtrl c) v ht]; rfl

theorem State.recordFault_withCtrl (s : State) (c : Byte) (f : CoreFault) (info : Byte) :
    (s.withCtrl c).recordFault f info = (s.recordFault f info).withCtrl c := by
  unfold State.recordFault
  by_cases h0 : s.fault = 0x00#8
  · rw [if_pos h0, if_pos (show (s.withCtrl c).fault = 0x00#8 from h0)]; rfl
  · rw [if_neg h0, if_neg (show (s.withCtrl c).fault ≠ 0x00#8 from h0)]

theorem State.raise_withCtrl (s : State) (c : Byte) (f : CoreFault) (info : Byte) :
    (s.withCtrl c).raise f info = (s.raise f info).withCtrl c := by
  unfold State.raise State.enterFault
  rw [State.recordFault_withCtrl, State.emit_withCtrl, State.putStatus_withCtrl]

theorem State.writeSlot_withCtrl (s : State) (c id : Byte) (d : Slot) :
    (s.withCtrl c).writeSlot id d = (s.writeSlot id d).withCtrl c := by
  unfold State.writeSlot
  cases slotIndex id <;> rfl

/-- A single-bit line write and what the command does after it. -/
theorem State.rmw_andThen_withCtrl {addr : Nat} {set clear : Byte} {e : Event} {f : State → State}
    (h : (s.rmw addr set clear e).andThen (fun u => .next (f u)) = .next t)
    (hf : ∀ u, f (u.withCtrl c) = (f u).withCtrl c) :
    ((s.withCtrl c).rmw addr set clear e).andThen (fun u => .next (f u)) = .next (t.withCtrl c) := by
  obtain ⟨u, hu, ht⟩ := Out.andThen_eq_next.mp h
  cases ht
  obtain ⟨hx, rfl⟩ := State.rmw_cases hu
  rw [State.rmw_next (s := s.withCtrl c) set clear e hx, Out.andThen_next, ← hf]
  rfl

/-! ### Whole commands -/

theorem execRegisterSlave_withCtrl {id port : Byte} {rsv : BitVec 5} {bit : BitPos} {sel desel : Delay}
    (h : execRegisterSlave id port rsv bit sel desel s = .next t) :
    execRegisterSlave id port rsv bit sel desel (s.withCtrl c) = .next (t.withCtrl c) := by
  unfold execRegisterSlave at h ⊢
  rw [State.cfg_withCtrl]
  split at h
  next =>
    cases h
    rw [State.begin_withCtrl, State.raise_withCtrl]
  next => exact State.rmw_andThen_withCtrl h fun u => by rw [State.writeSlot_withCtrl, State.putStatus_withCtrl]

theorem execSelect_withCtrl {id : Byte} (h : execSelect id s = .next t) :
    execSelect id (s.withCtrl c) = .next (t.withCtrl c) := by
  unfold execSelect at h ⊢
  rw [State.lookup_withCtrl]
  split at h
  next =>
    cases h
    rw [State.begin_withCtrl, State.raise_withCtrl]
  next => exact State.rmw_andThen_withCtrl h fun u => by rw [State.wait_withCtrl, State.putStatus_withCtrl]

theorem execDeselect_withCtrl {id : Byte} (h : execDeselect id s = .next t) :
    execDeselect id (s.withCtrl c) = .next (t.withCtrl c) := by
  unfold execDeselect at h ⊢
  rw [State.lookup_withCtrl]
  split at h
  next =>
    cases h
    rw [State.begin_withCtrl, State.raise_withCtrl]
  next => exact State.rmw_andThen_withCtrl h fun u => by rw [State.wait_withCtrl, State.putStatus_withCtrl]

end

/-- Settles O21: one lemma per command that is neither INIT nor a transfer. -/
theorem chipSelectIgnoresControl : Obligations.ChipSelectIgnoresControl := by
  intro i s t c hi hne h
  cases i with
  | registerSlave => exact execRegisterSlave_withCtrl h
  | select => exact execSelect_withCtrl h
  | deselect => exact execDeselect_withCtrl h
  | init => exact absurd rfl hne
  | writeByte | writeBytes | readByte | readBytes => exact absurd hi (by simp [isTransfer])

end Sys2Proof.Machine
end

section
/-! SUPPORT. SELECT and DESELECT (spec/42_select.md R102, R104) as one command, told apart by the level it gives
the slave's line: the line write, the wait, how the command ends, and the count of the wait step by step. -/

namespace Sys2Proof.Machine

/-! ### The command and its delay -/

/-- SELECT or DESELECT, by the level it gives the slave's line (R102, R104). -/
def chipSelect (level : Bool) (id : Byte) : Instr :=
  match level with
  | false => .select id
  | true => .deselect id

/-- The delay the command waits once the line has its level (R102, R104). -/
def Slot.delayAt (d : Slot) (level : Bool) : Delay :=
  match level with
  | false => d.sel
  | true => d.desel

theorem exists_chipSelect {i : Instr} {id : Byte} (h : i = .select id ∨ i = .deselect id) :
    ∃ level, i = chipSelect level id := by
  rcases h with rfl | rfl
  · exact ⟨false, rfl⟩
  · exact ⟨true, rfl⟩

/-! ### The line write -/

/-- The write of one level (spec/20_memory.md R43). -/
def State.driveLine (s : State) (d : Slot) (level : Bool) : Out :=
  match level with
  | false => s.lineClear d.port d.bit
  | true => s.lineSet d.port d.bit

/-- What the write of one level leaves. -/
def State.lineDriven (s : State) (d : Slot) (level : Bool) : State :=
  s.rmwResult (valAddr d.port) (cond level (bitMask d.bit) 0#8) (cond level 0#8 (bitMask d.bit))
    (.line d.port d.bit level)

section
variable {s t : State} {d : Slot} {level : Bool}

theorem State.driveLine_next (level : Bool) (h : portLegal s.cfg.nports d.port = true) :
    s.driveLine d level = .next (s.lineDriven d level) := by
  cases level with
  | false => exact State.lineClear_next d.bit h
  | true => exact State.lineSet_next d.bit h

theorem State.driveLine_cases (h : s.driveLine d level = .next t) : t = s.lineDriven d level := by
  cases level with
  | false | true => exact (State.rmw_cases h).2

theorem State.lineDriven_lineByte_other {a : Nat} (level : Bool) (h : a ≠ valAddr d.port) :
    (s.lineDriven d level).lineByte a = s.lineByte a :=
  s.setLineByte_lineByte_other _ h

theorem State.lineDriven_dirBit (s : State) (d : Slot) (level : Bool) (l : Line) :
    (s.lineDriven d level).dirBit l = s.dirBit l :=
  s.rmwResult_dirBit d.port _ _ _ l

/-- The slave's line has the level, every other line has the one it had. -/
theorem State.lineDriven_valBit (level : Bool) (h : Memory.wf s.lines = true) (l : Line) :
    (s.lineDriven d level).valBit l = if l = ⟨d.port, d.bit⟩ then level else s.valBit l := by
  have hv : (s.lineDriven d level).valBit l =
      cond level (s.valBit l || decide (l = ⟨d.port, d.bit⟩)) (s.valBit l && !decide (l = ⟨d.port, d.bit⟩)) := by
    cases level with
    | false => exact State.rmwResult_valBit_clear _ _ _ l h
    | true => exact State.rmwResult_valBit_set _ _ _ l h
  rw [hv]
  by_cases hl : l = ⟨d.port, d.bit⟩ <;> cases level <;> simp [hl]

theorem State.lineDriven_valBit_same (level : Bool) (h : Memory.wf s.lines = true) :
    (s.lineDriven d level).valBit ⟨d.port, d.bit⟩ = level := by
  rw [State.lineDriven_valBit level h, if_pos rfl]

theorem State.lineDriven_valBit_other {l : Line} (level : Bool) (h : Memory.wf s.lines = true)
    (hl : l ≠ ⟨d.port, d.bit⟩) : (s.lineDriven d level).valBit l = s.valBit l := by
  rw [State.lineDriven_valBit level h, if_neg hl]

theorem State.lineDriven_wf (level : Bool) (h : Memory.wf s.lines = true) :
    Memory.wf (s.lineDriven d level).lines = true :=
  Memory.wf_write _ _ h

/-- A port whose levels are all as they were has its register as it was. -/
theorem State.lineByte_of_valBit {p : Byte} (h : ∀ b, t.valBit ⟨p, b⟩ = s.valBit ⟨p, b⟩) :
    t.lineByte (valAddr p) = s.lineByte (valAddr p) := by
  apply BitVec.eq_of_getLsbD_eq
  intro j hj
  have hb := h (BitVec.ofNat 3 j)
  simpa [State.valBit, Nat.mod_eq_of_lt hj] using hb

/-- A line driven to the other level and back leaves the line registers as they were (R105). -/
theorem State.lineDriven_back (h : Memory.wf s.lines = true) (hv : s.valBit ⟨d.port, d.bit⟩ = level) :
    ((s.lineDriven d (!level)).lineDriven d level).lines = s.lines := by
  have hwf : Memory.wf (s.lineDriven d (!level)).lines = true := State.lineDriven_wf (!level) h
  have hwf' : Memory.wf ((s.lineDriven d (!level)).lineDriven d level).lines = true := State.lineDriven_wf level hwf
  refine Memory.ext_of_read hwf' h fun a => ?_
  change ((s.lineDriven d (!level)).lineDriven d level).lineByte a = s.lineByte a
  by_cases ha : a = valAddr d.port
  · subst ha
    refine State.lineByte_of_valBit fun b => ?_
    by_cases hb : (⟨d.port, b⟩ : Line) = ⟨d.port, d.bit⟩
    · rw [hb, State.lineDriven_valBit_same level hwf, hv]
    · rw [State.lineDriven_valBit_other level hwf hb, State.lineDriven_valBit_other _ h hb]
  · rw [State.lineDriven_lineByte_other level ha, State.lineDriven_lineByte_other _ ha]

end

/-! ### The whole command -/

/-- The state once the command has ended and the host has taken its status byte (R102, R104). -/
def State.chipSelected (s : State) (d : Slot) (level : Bool) : State :=
  { s.lineDriven d level with
    seq := .idle, dcnt := 0x0000#16, rspReady := s.rspReady.afterTake,
    hist := s.hist ++ [.line d.port d.bit level, .wait (d.delayAt level), .rsp statusOk] }

section
variable {s t : State} {id : Byte} {d : Slot}

/-- With its slot written the command drives the line, waits and offers the status byte. -/
theorem exec_chipSelect_of_slot (level : Bool) (hd : s.slot id = some d) :
    exec (chipSelect level id) s = ((s.begin (chipSelect level id)).driveLine d level).andThen fun u =>
      .next ((u.wait (d.delayAt level)).putStatus statusOk) := by
  have hl : s.lookup id = .ok d := State.lookup_ok.mpr hd
  cases level with
  | false | true => simp only [chipSelect, exec, execSelect, execDeselect, hl]; rfl

/-- However the command ends, its line is driven, its wait is over, and nothing else but the sequencer, the
response stream and the history changes. -/
theorem exec_chipSelect_cases {level : Bool} (hd : s.slot id = some d) (h : exec (chipSelect level id) s = .next t) :
    ∃ q r k, t = { s.lineDriven d level with seq := q, dcnt := 0x0000#16, rspReady := r, hist := k } := by
  obtain ⟨u, hu, ht⟩ := Out.andThen_eq_next.mp ((exec_chipSelect_of_slot level hd).symm.trans h)
  cases ht
  obtain ⟨q, r, added, e⟩ := State.putStatus_frame (u.wait (d.delayAt level)) statusOk
  rw [e, State.driveLine_cases hu]
  exact ⟨q, r, _, rfl⟩

/-- Without a slot the command faults (spec/60_exceptions.md R133, R134). -/
theorem exec_chipSelect_of_no_slot (level : Bool) (hd : s.slot id = none) :
    ∃ f, exec (chipSelect level id) s = .next ((s.begin (chipSelect level id)).raise f id) := by
  cases hl : s.lookup id with
  | ok d => simp [State.lookup_ok.mp hl] at hd
  | error f =>
    cases level with
    | false | true => exact ⟨f, by simp only [chipSelect, exec, execSelect, execDeselect, hl]⟩

/-- With a legal port and a host that takes the status byte the command completes. -/
theorem exec_chipSelect_next (level : Bool) (hd : s.slot id = some d) (hp : portLegal s.cfg.nports d.port = true)
    (ht : s.takes 1) : exec (chipSelect level id) s = .next (s.chipSelected d level) := by
  have hline : (s.begin (chipSelect level id)).driveLine d level =
      .next (State.lineDriven (s.begin (chipSelect level id)) d level) := State.driveLine_next level hp
  have htake : (((s.begin (chipSelect level id)).lineDriven d level).wait (d.delayAt level)).takes 1 := ht
  rw [exec_chipSelect_of_slot level hd, hline, Out.andThen_next, State.putStatus_takes statusOk htake]
  simp [State.taken, State.lineDriven, State.rmwResult, State.lineByte, State.chipSelected, seqAfterStatus, statusOk,
    CoreFault.code]

end

/-- Settles O14: SELECT ends in `State.chipSelected`, at level 0. -/
theorem selectCompletes : Obligations.SelectCompletes := by
  intro s id d hd hp hwf ht
  exact ⟨_, exec_chipSelect_next false hd hp ht, rfl, rfl,
    fun l => State.rmwResult_valBit_clear d.port d.bit (.line d.port d.bit false) l hwf,
    s.lineDriven_dirBit d false, rfl, rfl, rfl, rfl, rfl, rfl, rfl⟩

/-- Settles O15: DESELECT ends in `State.chipSelected`, at level 1. -/
theorem deselectCompletes : Obligations.DeselectCompletes := by
  intro s id d hd hp hwf ht
  exact ⟨_, exec_chipSelect_next true hd hp ht, rfl, rfl,
    fun l => State.rmwResult_valBit_set d.port d.bit (.line d.port d.bit true) l hwf,
    s.lineDriven_dirBit d true, rfl, rfl, rfl, rfl, rfl, rfl, rfl⟩

/-- Settles O17: with a slot by `exec_chipSelect_cases` and the laws of `State.lineDriven`, without one by
`State.raise_frame`. -/
theorem chipSelectFrame : Obligations.ChipSelectFrame := by
  intro s t id i hi h
  obtain ⟨level, rfl⟩ := exists_chipSelect hi
  cases hd : s.slot id with
  | none =>
    obtain ⟨f, hf⟩ := exec_chipSelect_of_no_slot level hd
    cases hf.symm.trans h
    obtain ⟨a, b, q, r, added, e⟩ := State.raise_frame (s.begin (chipSelect level id)) f id
    rw [e]
    exact ⟨fun _ _ => rfl, fun _ _ _ => rfl, fun hne => absurd rfl hne, fun _ => rfl, rfl, rfl, rfl, rfl, rfl,
      rfl, rfl, rfl, rfl, rfl, rfl, rfl⟩
  | some d =>
    obtain ⟨q, r, k, rfl⟩ := exec_chipSelect_cases hd h
    exact ⟨fun _ ha => State.lineDriven_lineByte_other level (ha d rfl),
      fun hwf _ hl => State.lineDriven_valBit_other level hwf (hl d rfl), fun _ => ⟨rfl, rfl⟩, nofun, rfl, rfl, rfl,
      rfl, rfl, rfl, rfl, rfl, rfl, rfl, rfl, rfl⟩

/-- Settles O18: the line is driven low and back to the level it had. -/
theorem selectDeselectRoundTrip : Obligations.SelectDeselectRoundTrip := by
  intro s id d hd hp hwf ht hv
  have hsel := exec_chipSelect_next false hd hp (State.takes_one ht)
  have hdesel := exec_chipSelect_next (s := s.chipSelected d false) true hd hp (State.takes_after ht)
  have hlow : (s.chipSelected d false).valBit ⟨d.port, d.bit⟩ = false := State.lineDriven_valBit_same false hwf
  have hback : ((s.chipSelected d false).chipSelected d true).lines = s.lines :=
    State.lineDriven_back (s := s) (d := d) (level := true) hwf hv
  exact ⟨_, _, hsel, hlow, hdesel, hback⟩

/-- Settles O19: the line of the other slave is one that `chipSelectFrame` keeps. -/
theorem lineIndependence : Obligations.LineIndependence := by
  intro s t i j d e c hc hd he hne hwf h
  obtain ⟨hbyte, hval, -, -, hslots, -⟩ := chipSelectFrame s t i c hc h
  have hv : t.valBit ⟨e.port, e.bit⟩ = s.valBit ⟨e.port, e.bit⟩ :=
    hval hwf _ fun d' hd' => by cases hd.symm.trans hd'; exact hne.symm
  have hdir : t.dirBit ⟨e.port, e.bit⟩ = s.dirBit ⟨e.port, e.bit⟩ := by
    simp only [State.dirBit, hbyte _ fun d' _ => dirAddr_ne_valAddr e.port d'.port]
  have het : t.slot j = some e := by rw [State.slot, hslots]; exact he
  exact ⟨hv, hdir, by simp only [State.linePin, hv, hdir],
    by simp only [State.selected, he, het, State.lineSelected, hv, hdir]⟩

/-! ### Selected and Deselected (spec/00_scope.md R8) -/

section
variable {s : State} {id : Byte} {d : Slot} {level : Bool}

/-- On an output line at `level` the slave is selected or deselected by that level alone (spec/10_state.md R27). -/
theorem State.selection_of_output (hd : s.slot id = some d) (ho : s.dirBit ⟨d.port, d.bit⟩ = true)
    (hv : s.valBit ⟨d.port, d.bit⟩ = level) :
    s.selected id = !level ∧ s.deselected id = level ∧ s.linePin ⟨d.port, d.bit⟩ = .driven level := by
  simp [State.selected, State.deselected, State.lineSelected, State.lineDeselected, State.linePin, hd, ho, hv]

theorem State.chipSelected_selection (level : Bool) (hd : s.slot id = some d) (hwf : Memory.wf s.lines = true)
    (ho : s.dirBit ⟨d.port, d.bit⟩ = true) :
    (s.chipSelected d level).selected id = !level ∧ (s.chipSelected d level).deselected id = level ∧
      (s.chipSelected d level).linePin ⟨d.port, d.bit⟩ = .driven level :=
  State.selection_of_output hd ((s.lineDriven_dirBit d level _).trans ho) (State.lineDriven_valBit_same level hwf)

end

/-- Settles O20: both commands end in `State.chipSelected`, on a line that is still an output. -/
theorem selectSelects : Obligations.SelectSelects := by
  intro s id d hd hp hwf ht ho
  exact ⟨⟨_, exec_chipSelect_next false hd hp ht, State.chipSelected_selection false hd hwf ho⟩,
    ⟨_, exec_chipSelect_next true hd hp ht, State.chipSelected_selection true hd hwf ho⟩⟩

/-! ### The count of a wait (R100) -/

section
variable {s : State} {opc : Byte} {latch rest : List Byte} {i : Instr} {d : Delay}

/-- While `SEQ = BUSY` at a position of its own the command in the latches has CORE's turn. -/
theorem coreTurn_of_command {p : Pos} (hq : s.seq = .busy ⟨opc, latch, p⟩) (hp : p.isOwn = true)
    (hd : decode (opc :: latch) = .command i rest) : coreTurn s = microCommand i p s := by
  rw [coreTurn_of_busy hq]
  exact microStep_command (by rintro rfl; cases hp) (by rintro v rfl; cases hp) hd

/-- One DQ of the wait. -/
theorem coreTurn_delay_count (hq : s.seq = .busy ⟨opc, latch, .delay d⟩)
    (hd : decode (opc :: latch) = .command i rest) (h0 : s.dcnt ≠ 0x0000#16) :
    coreTurn s = .next { s with dcnt := s.dcnt - 1#16 } := by
  rw [coreTurn_of_command hq rfl hd]
  simp only [microCommand, microDelay, h0, if_false]

/-- The end of the wait. -/
theorem coreTurn_delay_end (hq : s.seq = .busy ⟨opc, latch, .delay d⟩)
    (hd : decode (opc :: latch) = .command i rest) (h0 : s.dcnt = 0x0000#16) :
    coreTurn s = .next ((s.emit (.wait d)).moveTo (.status statusOk)) := by
  rw [coreTurn_of_command hq rfl hd]
  simp only [microCommand, microDelay, h0, if_true]

/-- As long as the count lasts nothing but the count changes. -/
theorem State.runs_delay {k : Nat} (hq : s.seq = .busy ⟨opc, latch, .delay d⟩) (hh : s.host = [])
    (hd : decode (opc :: latch) = .command i rest) (hk : k ≤ s.dcnt.toNat) :
    s.runs k = .next { s with dcnt := s.dcnt - BitVec.ofNat 16 k } := by
  induction k with
  | zero => simp
  | succ k ih =>
    rw [State.runs_add 1 (ih (by omega))]
    have h0 : s.dcnt - BitVec.ofNat 16 k ≠ 0x0000#16 := by bv_omega
    have hn : s.dcnt - BitVec.ofNat 16 (k + 1) = s.dcnt - BitVec.ofNat 16 k - 1#16 := by bv_omega
    rw [hn]
    exact State.runs_one hh (coreTurn_delay_count hq hd h0)

/-- The whole wait, to the status byte. -/
theorem State.runs_delay_end (hq : s.seq = .busy ⟨opc, latch, .delay d⟩) (hh : s.host = [])
    (hd : decode (opc :: latch) = .command i rest) :
    s.runs (s.dcnt.toNat + 1) = .next
      { s with dcnt := 0x0000#16, hist := s.hist ++ [.wait d], seq := .busy ⟨opc, latch, .status statusOk⟩ } := by
  have h0 : s.dcnt - BitVec.ofNat 16 s.dcnt.toNat = 0x0000#16 := by bv_omega
  rw [State.runs_add 1 (State.runs_delay hq hh hd le_rfl), h0,
    State.runs_one (s := { s with dcnt := 0x0000#16 }) hh (coreTurn_delay_end hq hd rfl)]
  simp only [State.emit, State.moveTo, hq, Seq.moveTo]

end

/-- What a count of `k` leaves of a delay that has so many left. -/
theorem toNat_sub_count {d : Delay} {k : Nat} (h : k ≤ d.toNat) : (d - BitVec.ofNat 16 k).toNat = d.toNat - k := by
  bv_omega

/-- Settles O38: `State.runs_delay` for each count, `State.runs_delay_end` for the step after the last. -/
theorem waitCountsDown : Obligations.WaitCountsDown := by
  intro s opc latch d i rest hq hh hd
  exact ⟨fun k hk => ⟨_, State.runs_delay hq hh hd hk, rfl, toNat_sub_count hk⟩, State.runs_delay_end hq hh hd⟩

/-! ### The wait of SELECT and DESELECT (R170) -/

/-- The state once the line has its level and `DCNT` the slot's delay. -/
def State.waiting (s : State) (d : Slot) (level : Bool) : State :=
  State.moveTo { s.lineDriven d level with dcnt := d.delayAt level } (.delay (d.delayAt level))

/-- The first micro-step drives the line and loads `DCNT`. -/
theorem coreTurn_chipSelect {s : State} {opc id : Byte} {latch rest : List Byte} {d : Slot} {level : Bool}
    (hq : s.seq = .busy ⟨opc, latch, .body⟩) (hc : decode (opc :: latch) = .command (chipSelect level id) rest)
    (hd : s.slot id = some d) (hp : portLegal s.cfg.nports d.port = true) :
    coreTurn s = .next (s.waiting d level) := by
  have hl : s.lookup id = .ok d := State.lookup_ok.mpr hd
  have hm : microBody (chipSelect level id) s = (s.driveLine d level).andThen fun u =>
      .next (State.moveTo { u with dcnt := d.delayAt level } (.delay (d.delayAt level))) := by
    cases level with
    | false | true => simp only [chipSelect, microBody, hl]; rfl
  rw [coreTurn_of_command hq rfl hc]
  simp only [microCommand, hm, State.driveLine_next level hp, Out.andThen_next, State.waiting]

/-- Settles O58: after the first micro-step the run is the wait, which `State.runs_delay` and
`State.runs_delay_end` count. -/
theorem chipSelectWaitsItsDelay : Obligations.ChipSelectWaitsItsDelay := by
  intro s opc latch rest i id d level delay hq hh hc hi hd hp
  obtain ⟨rfl, rfl⟩ : i = chipSelect level id ∧ delay = d.delayAt level := by
    obtain ⟨rfl, rfl, rfl⟩ | ⟨rfl, rfl, rfl⟩ := hi <;> exact ⟨rfl, rfl⟩
  have h1 : s.runs 1 = .next (s.waiting d level) := State.runs_one hh (coreTurn_chipSelect hq hc hd hp)
  have hw : (s.waiting d level).seq = .busy ⟨opc, latch, .delay (d.delayAt level)⟩ := congrArg (Seq.moveTo · _) hq
  have hafter (k : Nat) : s.runs (k + 1) = (s.waiting d level).runs k := by rw [Nat.add_comm, State.runs_add k h1]
  exact ⟨fun k hk => ⟨_, (hafter k).trans (State.runs_delay hw hh hc hk), toNat_sub_count hk, rfl, hw⟩,
    _, (hafter _).trans (State.runs_delay_end hw hh hc), rfl, List.append_assoc _ _ _, rfl⟩

end Sys2Proof.Machine
end

section
/-! SUPPORT. The passes of the byte shifter (spec/43_transfer.md R113, R114): each moves `DATA` up by one bit and
takes the next level of `miso`, so that the bits of both bytes are found pass by pass. -/

namespace Sys2Proof.Machine

/-! ### One pass -/

section
variable {s : State}

theorem State.sampleMiso_cons {m : Bool} {rest : List Bool} (h : s.miso = m :: rest) :
    s.sampleMiso = (m, { s with miso := rest }) := by
  simp only [State.sampleMiso, h]

theorem State.sampleMiso_miso (s : State) : s.sampleMiso.2.miso = s.miso.tail := by
  cases h : s.miso with
  | nil => simp only [State.sampleMiso, h, List.tail_nil]
  | cons m rest => rw [State.sampleMiso_cons h, List.tail_cons]

theorem State.sckRise_miso (s : State) : s.sckRise.miso = s.miso.tail := s.sampleMiso_miso

theorem State.shiftBit_miso (s : State) : s.shiftBit.miso = s.miso.tail := s.sampleMiso_miso

theorem State.shiftBit_data (s : State) : s.shiftBit.data = shiftIn s.data s.sampleMiso.1 := by
  have hd : s.sckRise.data = s.data := by obtain ⟨b, m, r, e⟩ := s.sckRise_frame; rw [e]
  rw [← hd]
  rfl

/-! ### Many passes -/

theorem State.shiftBits_eq_iterate (n : Nat) (s : State) : State.shiftBits n s = State.shiftBit^[n] s := by
  induction n generalizing s with
  | zero => rfl
  | succ n ih => exact ih s.shiftBit

theorem State.shiftBits_succ (n : Nat) (s : State) :
    State.shiftBits (n + 1) s = (State.shiftBits n s).shiftBit := by
  simp only [State.shiftBits_eq_iterate, Function.iterate_succ_apply']

theorem State.shiftBits_add (m n : Nat) (s : State) :
    State.shiftBits (m + n) s = State.shiftBits m (State.shiftBits n s) := by
  simp only [State.shiftBits_eq_iterate, Function.iterate_add_apply]

theorem State.shiftBits_miso (n : Nat) (s : State) : (State.shiftBits n s).miso = s.miso.drop n := by
  induction n with
  | zero => rfl
  | succ n ih => rw [State.shiftBits_succ, State.shiftBit_miso, ih, List.tail_drop]

theorem State.shiftBits_bitcnt (n : Nat) (s : State) :
    (State.shiftBits n s).bitcnt = s.bitcnt - BitVec.ofNat 4 n := by
  induction n with
  | zero => simp [State.shiftBits]
  | succ n ih =>
    rw [State.shiftBits_succ, (State.shiftBit_count _).1, ih]
    bv_omega

/-- Between two passes the clock is low, if it was before the first. -/
theorem State.shiftBits_sck (n : Nat) (h : s.sck = .low) : (State.shiftBits n s).sck = .low := by
  cases n with
  | zero => exact h
  | succ n => rw [State.shiftBits_succ]; exact (State.shiftBit_count _).2.1

theorem State.shiftBits_enabled (n : Nat) (s : State) : (State.shiftBits n s).enabled = s.enabled := by
  obtain ⟨d, tc, b, k, m, r, e⟩ := State.shiftBits_frame n s
  rw [e]
  rfl

/-- A bit that is not yet shifted out stands `n` places higher after `n` passes (R113). -/
theorem State.shiftBits_getLsbD {n i : Nat} (h : i + n < 8) :
    (State.shiftBits n s).data.getLsbD (i + n) = s.data.getLsbD i := by
  induction n with
  | zero => rfl
  | succ n ih =>
    have h0 : i + (n + 1) ≠ 0 := by omega
    rw [State.shiftBits_succ, State.shiftBit_data, shiftIn_getLsbD, if_neg h0, decide_eq_true h, Bool.true_and]
    exact ih (by omega)

/-- The level `miso` has at the rising edge of a pass is bit 0 after that pass (R113). -/
theorem State.shiftBits_succ_getLsbD_zero {n : Nat} (h : n < s.miso.length) :
    (State.shiftBits (n + 1) s).data.getLsbD 0 = s.miso[n] := by
  have hm : (State.shiftBits n s).miso = s.miso[n] :: s.miso.drop (n + 1) := by
    rw [State.shiftBits_miso, List.drop_eq_getElem_cons h]
  rw [State.shiftBits_succ, State.shiftBit_data, shiftIn_getLsbD, if_pos rfl, State.sampleMiso_cons hm]

/-- After eight passes the level sampled in the pass after `k` passes is bit `7 - k` (R114 (b)). -/
theorem State.shiftBits_eight_getLsbD {k : Nat} (hk : k < 8) (h : k < s.miso.length) :
    (State.shiftBits 8 s).data.getLsbD (7 - k) = s.miso[k] := by
  have h8 : 8 = (7 - k) + (k + 1) := by omega
  have hshift := State.shiftBits_getLsbD (s := State.shiftBits (k + 1) s) (n := 7 - k) (i := 0) (by omega)
  rw [Nat.zero_add, ← State.shiftBits_add, ← h8] at hshift
  rw [hshift, State.shiftBits_succ_getLsbD_zero h]

end

/-! ### The pins during an exchange -/

section
variable {s t : State} {tx : Byte} {k : Nat}

/-- Inside a pass the pins are those before it, but for a clock that is high. -/
theorem State.sckRise_pins (h : s.enabled = true) :
    s.sckRise.mosiPin = s.mosiPin ∧ s.sckRise.sckPin = .driven true := by
  obtain ⟨b, m, r, e⟩ := s.sckRise_frame
  have hsck : s.sckRise.sckPin = if s.enabled then .driven true else .unspecified := by rw [e]; rfl
  exact ⟨by rw [e]; rfl, by rw [hsck, if_pos h]⟩

/-- Before the pass after `k` passes the clock is low and `mosi` carries bit `7 - k` of the loaded byte. -/
theorem State.shiftBits_loadData_pins (h : s.enabled = true) (hs : s.sck = .low) (hk : k < 8) :
    (State.shiftBits k (s.loadData tx)).mosiPin = .driven (tx.getLsbD (7 - k)) ∧
      (State.shiftBits k (s.loadData tx)).sckPin = .driven false := by
  have he : (State.shiftBits k (s.loadData tx)).enabled = true := (State.shiftBits_enabled k _).trans h
  have hlow : (State.shiftBits k (s.loadData tx)).sck = .low := State.shiftBits_sck (s := s.loadData tx) k hs
  have hcnt : (State.shiftBits k (s.loadData tx)).bitcnt ≠ 0#4 := by
    rw [State.shiftBits_bitcnt, State.loadData_bitcnt, if_pos h]
    bv_omega
  have hbit : (State.shiftBits k (s.loadData tx)).data.getLsbD 7 = tx.getLsbD (7 - k) := by
    have hshift := State.shiftBits_getLsbD (s := s.loadData tx) (n := k) (i := 7 - k) (by omega)
    rwa [Nat.sub_add_cancel (by omega)] at hshift
  have hdriven : (State.shiftBits k (s.loadData tx)).enabled &&
      decide ((State.shiftBits k (s.loadData tx)).bitcnt ≠ 0#4) := by simp [he, hcnt]
  exact ⟨by rw [State.mosiPin, if_pos hdriven, hbit], by simp only [State.sckPin, he, hlow, if_true]⟩

end

/-- Settles O23: the pins before the pass, and what its rising edge does to them. -/
theorem mosiMostSignificantFirst : Obligations.MosiMostSignificantFirst := by
  intro s tx k he hs hk
  obtain ⟨hmosi, hsck⟩ := State.shiftBits_loadData_pins (tx := tx) he hs hk
  obtain ⟨hmosi', hsck'⟩ := State.sckRise_pins (s := State.shiftBits k (s.loadData tx))
    ((State.shiftBits_enabled k _).trans he)
  exact ⟨hmosi, hsck, hmosi'.trans hmosi, hsck'⟩

end Sys2Proof.Machine
end

section
/-! SUPPORT. Exchanges one after the other with `EN = 1` and `MSTR = 1` (spec/43_transfer.md R110): what they do to
the shifter does not depend on the sequencer, the counter, the streams or the history around it, so a transfer
command is its exchanges with an ending of its own. -/

namespace Sys2Proof.Machine

/-! ### What stands around the shifter -/

/-- The sequencer, the counter, the two byte streams and the history: the shifter reads none of them, and an exchange
that completes adds to the history alone. -/
structure Around where
  seq : Seq
  cnt : Byte
  cmdIn : List Byte
  rspReady : RspReady
  hist : List Event

/-- The same shifter with other fields around it. -/
def State.withAround (s : State) (a : Around) : State :=
  { s with seq := a.seq, cnt := a.cnt, cmdIn := a.cmdIn, rspReady := a.rspReady, hist := a.hist }

def State.around (s : State) : Around := ⟨s.seq, s.cnt, s.cmdIn, s.rspReady, s.hist⟩

/-- More events in the history. -/
def Around.record (a : Around) (added : List Event) : Around := { a with hist := a.hist ++ added }

@[simp] theorem Around.record_record (a : Around) (h k : List Event) :
    (a.record h).record k = a.record (h ++ k) := by
  simp only [Around.record, List.append_assoc]

@[simp] theorem Around.record_nil (a : Around) : a.record [] = a := by
  simp only [Around.record, List.append_nil]

theorem State.shiftBit_withAround (s : State) (a : Around) : (s.withAround a).shiftBit = s.shiftBit.withAround a := by
  have hm : (s.withAround a).sampleMiso = (s.sampleMiso.1, s.sampleMiso.2.withAround a) := by
    cases h : s.miso with
    | nil =>
      have h' : (s.withAround a).miso = [] := h
      simp only [State.sampleMiso, h, h']
      rfl
    | cons m rest => rw [State.sampleMiso_cons h, State.sampleMiso_cons (s := s.withAround a) h]; rfl
  simp only [State.shiftBit, State.sckRise, hm]
  rfl

theorem State.shiftBits_withAround (n : Nat) (s : State) (a : Around) :
    State.shiftBits n (s.withAround a) = (State.shiftBits n s).withAround a := by
  induction n generalizing s with
  | zero => rfl
  | succ n ih => simp only [State.shiftBits, State.shiftBit_withAround, ih]

/-! ### One exchange -/

/-- What an exchange that completes leaves (R110, R113). -/
def State.exchanged (s : State) (tx : Byte) : State := (State.shiftBits 8 (s.loadData tx)).readData

section
variable {s : State}

theorem State.exchange_eq_done (tx : Byte) (h : s.enabled = true) :
    s.exchange tx = .done (s.exchanged tx).data (s.exchanged tx) := by
  rw [State.exchange, if_pos h]
  rfl

theorem State.exchanged_done (tx : Byte) (h : s.enabled = true) :
    (s.exchanged tx).tc = true ∧ (s.exchanged tx).bitcnt = 0#4 := by
  obtain ⟨hcnt, -, htc⟩ := State.shiftBits_eight (s := s.loadData tx) (if_pos h)
  exact ⟨htc, hcnt⟩

@[simp] theorem State.exchanged_enabled (s : State) (tx : Byte) : (s.exchanged tx).enabled = s.enabled :=
  State.shiftBits_enabled 8 (s.loadData tx)

theorem State.exchanged_around (s : State) (tx : Byte) :
    (s.exchanged tx).around = s.around.record [.load tx, .done (s.exchanged tx).data] := by
  obtain ⟨d, tc, b, k, m, r, e⟩ := State.shiftBits_frame 8 (s.loadData tx)
  rw [State.exchanged, e]
  simp [State.around, Around.record]

theorem State.exchanged_withAround (s : State) (tx : Byte) (a : Around) :
    (s.withAround a).exchanged tx =
      (s.exchanged tx).withAround (a.record [.load tx, .done (s.exchanged tx).data]) := by
  have hload : (s.withAround a).loadData tx = (s.loadData tx).withAround (a.record [.load tx]) := rfl
  have hdone : ∀ (u : State) (b : Around), (u.withAround b).readData = u.withAround (b.record [.done u.data]) :=
    fun _ _ => rfl
  rw [State.exchanged, hload, State.shiftBits_withAround, hdone, Around.record_record]
  rfl

end

/-- Settles O22: bit by bit `State.shiftBits_eight_getLsbD`, the rest by what the eight passes leave. -/
theorem exchangeCaptures : Obligations.ExchangeCaptures := by
  intro s tx bits rest he hlen hmiso
  obtain ⟨htc, hcnt⟩ := State.exchanged_done tx he
  refine ⟨_, _, State.exchange_eq_done tx he, fun k hk => ?_, rfl, htc, hcnt, ?_, ?_⟩
  · have hin : k < s.miso.length := by rw [hmiso, List.length_append]; omega
    have hbit : (s.exchanged tx).data.getLsbD (7 - k) = s.miso[k] :=
      State.shiftBits_eight_getLsbD (s := s.loadData tx) hk hin
    rw [hbit, ← List.getElem?_eq_getElem hin, hmiso, List.getElem?_append_left (by omega)]
  · have hdrop : (s.exchanged tx).miso = s.miso.drop 8 := State.shiftBits_miso 8 (s.loadData tx)
    rw [hdrop, hmiso, ← hlen, List.drop_left]
  · exact congrArg Around.hist (s.exchanged_around tx)

/-! ### Exchanges one after the other -/

/-- What the exchanges of a list of bytes leave, one for each byte in order. -/
def State.exchangedAll : List Byte → State → State
  | [], s => s
  | tx :: rest, s => State.exchangedAll rest (s.exchanged tx)

/-- The bytes those exchanges capture. -/
def State.captured : List Byte → State → List Byte
  | [], _ => []
  | tx :: rest, s => (s.exchanged tx).data :: State.captured rest (s.exchanged tx)

@[simp] theorem State.captured_length (txs : List Byte) (s : State) : (s.captured txs).length = txs.length := by
  induction txs generalizing s with
  | nil => rfl
  | cons tx rest ih => simp [State.captured, ih]

end Sys2Proof.Machine
end

section
/-! SUPPORT. The transfer commands with `EN = 1` and `MSTR = 1` (spec/43_transfer.md R115, R117, R119, R121): each is
its exchanges and the end of a command, with events of its own in between. -/

namespace Sys2Proof.Machine

/-! ### The events of exchanges -/

/-- The events of the exchanges of `txs` that capture `rxs`, with the response bytes `answer rx` after each. -/
def exchangeEvents (answer : Byte → List Byte) (txs rxs : List Byte) : List Event :=
  (List.zipWith (fun tx rx => .load tx :: .done rx :: (answer rx).map .rsp) txs rxs).flatten

section
variable (answer : Byte → List Byte) {txs rxs : List Byte}

@[simp] theorem exchangeEvents_cons (tx rx : Byte) : exchangeEvents answer (tx :: txs) (rx :: rxs) =
    .load tx :: .done rx :: ((answer rx).map .rsp ++ exchangeEvents answer txs rxs) := rfl

/-- With the same byte loaded each time the events are a function of the byte captured. -/
theorem exchangeEvents_replicate (tx : Byte) (rxs : List Byte) :
    exchangeEvents answer (List.replicate rxs.length tx) rxs =
      (rxs.map fun rx => .load tx :: .done rx :: (answer rx).map .rsp).flatten := by
  induction rxs with
  | nil => rfl
  | cons rx rxs ih =>
    rw [List.length_cons, List.replicate_succ, exchangeEvents_cons, ih]
    rfl

theorem transfers_append (h k : List Event) : transfers (h ++ k) = transfers h ++ transfers k :=
  List.filter_append h k

@[simp] theorem transfers_rsps (vs : List Byte) : transfers (vs.map .rsp) = [] := by
  simp [transfers]

@[simp] theorem responses_rsps (vs : List Byte) : responses (vs.map .rsp) = vs := by
  simp [responses, List.filterMap_map]

/-- The `EvLoad` and `EvDone` events do not depend on the bytes answered. -/
theorem transfers_exchangeEvents (txs rxs : List Byte) :
    transfers (exchangeEvents answer txs rxs) = exchangeEvents (fun _ => []) txs rxs := by
  induction txs generalizing rxs with
  | nil => rfl
  | cons tx txs ih =>
    cases rxs with
    | nil => rfl
    | cons rx rxs =>
      have hcons : ∀ k : List Event, transfers (.load tx :: .done rx :: k) = .load tx :: .done rx :: transfers k :=
        fun _ => rfl
      simp only [exchangeEvents_cons, hcons, transfers_append, transfers_rsps, ih, List.map_nil, List.nil_append]

/-- The response of exchanges: the answers to the bytes captured, in order. -/
theorem responses_exchangeEvents (h : rxs.length = txs.length) :
    responses (exchangeEvents answer txs rxs) = (rxs.map answer).flatten := by
  induction rxs generalizing txs with
  | nil => rw [List.eq_nil_of_length_eq_zero h.symm]; rfl
  | cons rx rxs ih =>
    obtain ⟨tx, txs, rfl⟩ := List.exists_cons_of_length_eq_add_one h.symm
    have hcons : ∀ k : List Event, responses (.load tx :: .done rx :: k) = responses k := fun _ => rfl
    simp only [exchangeEvents_cons, hcons, responses_append, responses_rsps, ih (Nat.succ.inj h), List.map_cons,
      List.flatten_cons]

end

/-! ### The bytes of a response, and the end of a command -/

/-- The host takes a byte. -/
def Around.sent (a : Around) (v : Byte) : Around := { a.record [.rsp v] with rspReady := a.rspReady.afterTake }

/-- The host takes the status byte of a command that has completed. -/
def Around.ended (a : Around) : Around := { a.sent statusOk with seq := .idle }

/-- The events of an exchange. -/
def Around.exchanged (a : Around) (tx rx : Byte) : Around := a.record [.load tx, .done rx]

section
variable {s : State} {a : Around}

theorem State.withAround_takeRsp (v : Byte) (h : (s.withAround a).takes 1) :
    (s.withAround a).takeRsp v = some (s.withAround (a.sent v)) :=
  State.takeRsp_takes v h

theorem State.withAround_putStatus (h : (s.withAround a).takes 1) :
    (s.withAround a).putStatus statusOk = s.withAround a.ended :=
  State.putStatus_takes statusOk h

theorem State.withAround_exchange (a : Around) (tx : Byte) (h : s.enabled = true) :
    (s.withAround a).exchange tx = .done (s.exchanged tx).data
      ((s.exchanged tx).withAround (a.exchanged tx (s.exchanged tx).data)) := by
  rw [State.exchange_eq_done (s := s.withAround a) tx h, State.exchanged_withAround]
  rfl

/-! ### WRITE_BYTE and READ_BYTE -/

/-- What the packet of a command in `SEQ` leaves around the shifter. -/
def Around.begin (a : Around) (i : Instr) : Around := { a with seq := .busy ⟨i.opcode, i.operandBytes, .body⟩ }

theorem State.withAround_begin (s : State) (a : Around) (i : Instr) :
    (s.withAround a).begin i = s.withAround (a.begin i) := rfl

theorem exec_writeByte (b : Byte) (he : s.enabled = true) (ht : (s.withAround a).takes 1) :
    exec (.writeByte b) (s.withAround a) =
      .next ((s.exchanged b).withAround (a.exchanged b (s.exchanged b).data).ended) := by
  simp only [exec, execWriteByte, State.withAround_begin, State.withAround_exchange _ _ he]
  exact congrArg Host.Outcome.next (State.withAround_putStatus ht)

theorem exec_readByte (he : s.enabled = true) (ht : (s.withAround a).takes 2) :
    exec .readByte (s.withAround a) = .next ((s.exchanged dummyByte).withAround
      ((a.exchanged dummyByte (s.exchanged dummyByte).data).sent (s.exchanged dummyByte).data).ended) := by
  have hr := State.withAround_takeRsp (s := s.exchanged dummyByte)
    (a := (a.begin .readByte).exchanged dummyByte (s.exchanged dummyByte).data)
    (s.exchanged dummyByte).data (State.takes_one ht)
  simp only [exec, execReadByte, State.withAround_begin, State.withAround_exchange _ _ he, hr]
  exact congrArg Host.Outcome.next (State.withAround_putStatus (State.takes_after ht))

/-! ### WRITE_BYTES and READ_BYTES -/

/-- One byte less to go. -/
def Around.counted (a : Around) : Around := { a with cnt := a.cnt - 1#8 }

theorem State.withAround_countByte (s : State) (a : Around) : (s.withAround a).countByte = s.withAround a.counted := rfl

/-- What WRITE_BYTES leaves around the shifter up to its status byte: the payload `buf` taken and exchanged, nothing
left to count (R117). -/
def Around.written (a : Around) (buf rxs rest : List Byte) : Around :=
  { a.record (exchangeEvents (fun _ => []) buf rxs) with cnt := 0x00#8, cmdIn := rest }

/-- What READ_BYTES leaves around the shifter up to its status byte: `n` captured bytes sent, nothing left to count
(R121). -/
def Around.read (a : Around) (n : Nat) (rxs : List Byte) : Around :=
  { a.record (exchangeEvents (fun rx => [rx]) (List.replicate n dummyByte) rxs) with
    cnt := 0x00#8, rspReady := RspReady.afterTake^[n] a.rspReady }

/-- The count of one byte less. -/
theorem ofNat_succ_sub_one (n : Nat) : BitVec.ofNat 8 (n + 1) - 1#8 = BitVec.ofNat 8 n := by bv_omega

theorem writeLoop_of_payload {buf rest : List Byte} (he : s.enabled = true) (ht : (s.withAround a).takes 1)
    (hn : a.cnt = BitVec.ofNat 8 buf.length) (hc : a.cmdIn = buf ++ rest) :
    writeLoop buf.length (s.withAround a) =
      (s.exchangedAll buf).withAround (a.written buf (s.captured buf) rest).ended := by
  induction buf generalizing s a with
  | nil =>
    have ha : a.written [] [] rest = a := by
      have hrest : rest = a.cmdIn := hc.symm
      have hzero : 0x00#8 = a.cnt := hn.symm
      simp [Around.written, Around.record, exchangeEvents, hrest, hzero]
    refine (State.withAround_putStatus ht).trans ?_
    rw [State.captured, ha, State.exchangedAll]
  | cons b buf ih =>
    have hnext : (s.withAround a).cmdNext = some (b, s.withAround { a with cmdIn := buf ++ rest }) := by
      simp only [State.cmdNext, State.withAround, hc, List.cons_append]
    simp only [List.length_cons, writeLoop, hnext, State.withAround_exchange _ _ he, State.withAround_countByte]
    rw [ih ((s.exchanged_enabled b).trans he) ?takes ?count ?payload]
    case takes => exact ht
    case count => exact (congrArg (· - 1#8) hn).trans (ofNat_succ_sub_one _)
    case payload => rfl
    simp [State.exchangedAll, State.captured, Around.written, Around.counted, Around.exchanged, Around.record]

theorem readLoop_of_takes {n : Nat} (he : s.enabled = true) (ht : (s.withAround a).takes (n + 1))
    (hn : a.cnt = BitVec.ofNat 8 n) :
    readLoop n (s.withAround a) = (s.exchangedAll (List.replicate n dummyByte)).withAround
      (a.read n (s.captured (List.replicate n dummyByte))).ended := by
  induction n generalizing s a with
  | zero =>
    have ha : a.read 0 [] = a := by
      have hzero : 0x00#8 = a.cnt := hn.symm
      simp [Around.read, Around.record, exchangeEvents, hzero]
    refine (State.withAround_putStatus ht).trans ?_
    rw [List.replicate_zero, State.captured, ha, State.exchangedAll]
  | succ n ih =>
    have hr := State.withAround_takeRsp (s := s.exchanged dummyByte)
      (a := a.exchanged dummyByte (s.exchanged dummyByte).data)
      (s.exchanged dummyByte).data (State.takes_one ht)
    simp only [readLoop, State.withAround_exchange _ _ he, hr, State.withAround_countByte]
    rw [ih ((s.exchanged_enabled dummyByte).trans he) ?takes ?count]
    case takes => exact State.takes_after ht
    case count => exact (congrArg (· - 1#8) hn).trans (ofNat_succ_sub_one n)
    simp [List.replicate_succ, State.exchangedAll, State.captured, Around.read, Around.counted, Around.sent,
      Around.exchanged, Around.record]

/-- WRITE_BYTES with its payload offered (R117). -/
theorem exec_writeBytes {n : Byte} {buf rest : List Byte} (he : s.enabled = true) (ht : (s.withAround a).takes 1)
    (hlen : buf.length = n.toNat) (hc : a.cmdIn = buf ++ rest) :
    exec (.writeBytes n) (s.withAround a) =
      .next ((s.exchangedAll buf).withAround (a.written buf (s.captured buf) rest).ended) := by
  have hn : n = BitVec.ofNat 8 buf.length := by simp [hlen]
  have hloop := writeLoop_of_payload (a := { a.begin (.writeBytes n) with cnt := n }) he ht hn hc
  rw [hlen] at hloop
  exact congrArg Host.Outcome.next hloop

/-- READ_BYTES with a host that takes all its bytes (R121). -/
theorem exec_readBytes {n : Byte} (he : s.enabled = true) (ht : (s.withAround a).takes (n.toNat + 1)) :
    exec (.readBytes n) (s.withAround a) = .next ((s.exchangedAll (List.replicate n.toNat dummyByte)).withAround
      (a.read n.toNat (s.captured (List.replicate n.toNat dummyByte))).ended) := by
  have hn : n = BitVec.ofNat 8 n.toNat := by simp
  exact congrArg Host.Outcome.next
    (readLoop_of_takes (a := { a.begin (.readBytes n) with cnt := n }) he ht hn)

end

/-- Settles O24: one exchange, as `exec_writeByte` says. -/
theorem writeByteCompletes : Obligations.WriteByteCompletes := by
  intro s b he ht
  obtain ⟨htc, hcnt⟩ := State.exchanged_done b he
  exact ⟨_, exec_writeByte (a := s.around) b he ht, rfl, htc, hcnt, List.append_assoc _ _ _⟩

/-- Settles O25: one exchange of the dummy byte, as `exec_readByte` says. -/
theorem readByteCompletes : Obligations.ReadByteCompletes := by
  intro s he ht
  obtain ⟨htc, hcnt⟩ := State.exchanged_done dummyByte he
  refine ⟨_, exec_readByte (a := s.around) he ht, rfl, htc, hcnt, ?_⟩
  simp [State.withAround, Around.ended, Around.sent, Around.exchanged, Around.record, State.around, dummyByte, statusOk]

/-- Settles O26: the exchanges of the payload, as `exec_writeBytes` says. -/
theorem writeBytesCompletes : Obligations.WriteBytesCompletes := by
  intro s n buf rest he hlen hc ht
  exact ⟨_, s.captured buf, exec_writeBytes (a := s.around) he ht hlen hc, rfl, rfl, rfl, s.captured_length buf,
    rfl⟩

/-- Settles O27: `n` exchanges of the dummy byte, as `exec_readBytes` says. -/
theorem readBytesCompletes : Obligations.ReadBytesCompletes := by
  intro s n he ht
  have hlen : (s.captured (List.replicate n.toNat dummyByte)).length = n.toNat := by simp
  have hevents := exchangeEvents_replicate (fun rx => [rx]) dummyByte (s.captured (List.replicate n.toNat dummyByte))
  rw [hlen] at hevents
  exact ⟨_, _, exec_readBytes (a := s.around) he ht, rfl, rfl, hlen,
    congrArg (fun k => s.hist ++ k ++ [.rsp 0x00#8]) hevents⟩

end Sys2Proof.Machine
end

section
/-! SUPPORT. The bulk commands against their single ones (spec/43_transfer.md R118, R122): the same exchanges, with
other response bytes in between. -/

namespace Sys2Proof.Machine

/-- With a host that takes every byte only the byte's event is left to see. -/
theorem Around.sent_of_always {a : Around} (v : Byte) (hr : a.rspReady = .always) : a.sent v = a.record [.rsp v] := by
  simp only [Around.sent, Around.record, hr, RspReady.afterTake]

theorem Around.ended_of_always {a : Around} (hr : a.rspReady = .always) (hq : a.seq = .idle) :
    a.ended = a.record [.rsp statusOk] := by
  simp only [Around.ended, Around.sent_of_always statusOk hr, Around.record, hq]

theorem State.takes_of_always {s : State} (n : Nat) (h : s.rspReady = .always) : s.takes n := by
  simp only [State.takes, h]

/-- The same exchanges make the same `EvLoad` and `EvDone` events, whatever is answered, with a status byte after
them or not. -/
theorem transfers_of_exchanges (h : List Event) (answer answer' : Byte → List Byte) (txs rxs : List Byte) :
    transfers (h ++ (exchangeEvents answer txs rxs ++ [.rsp statusOk])) =
      transfers (h ++ exchangeEvents answer' txs rxs) := by
  have hstatus : transfers [.rsp statusOk] = [] := rfl
  simp only [transfers_append, transfers_exchangeEvents, hstatus, List.append_nil]

/-! ### The single commands, one after the other -/

/-- From `IDLE`, with `EN = 1` and `MSTR = 1` and a host that takes every byte, the command is one exchange of `tx`,
which it answers with the response bytes `answer rx`. -/
def IsExchange (i : Instr) (tx : Byte) (answer : Byte → List Byte) : Prop :=
  ∀ (s : State) (a : Around), s.enabled = true → a.rspReady = .always → a.seq = .idle →
    exec i (s.withAround a) = .next ((s.exchanged tx).withAround
      (a.record (exchangeEvents answer [tx] [(s.exchanged tx).data])))

theorem isExchange_writeByte (b : Byte) : IsExchange (.writeByte b) b fun _ => [statusOk] := by
  intro s a he hr hq
  rw [exec_writeByte b he (State.takes_of_always 1 hr), Around.ended_of_always (a := a.exchanged b _) hr hq]
  simp [Around.exchanged, exchangeEvents]

theorem isExchange_readByte : IsExchange .readByte dummyByte fun rx => [rx, statusOk] := by
  intro s a he hr hq
  rw [exec_readByte he (State.takes_of_always 2 hr), Around.sent_of_always (a := a.exchanged dummyByte _) _ hr,
    Around.ended_of_always (a := (a.exchanged dummyByte _).record _) hr hq]
  simp [Around.exchanged, exchangeEvents]

section
variable {s : State} {a : Around}

/-- Commands that are one exchange each are the exchanges of all their bytes. -/
theorem execAll_exchanges {cmd : Byte → Instr} {answer : Byte → List Byte} {txs : List Byte}
    (hcmd : ∀ tx ∈ txs, IsExchange (cmd tx) tx answer) (he : s.enabled = true) (hr : a.rspReady = .always)
    (hq : a.seq = .idle) :
    execAll (txs.map cmd) (s.withAround a) = .next ((s.exchangedAll txs).withAround
      (a.record (exchangeEvents answer txs (s.captured txs)))) := by
  induction txs generalizing s a with
  | nil => exact congrArg (fun b => Host.Outcome.next (s.withAround b)) a.record_nil.symm
  | cons tx txs ih =>
    have hrest := ih (s := s.exchanged tx) (a := a.record (exchangeEvents answer [tx] [(s.exchanged tx).data]))
      (fun tx' h => hcmd tx' (List.mem_cons_of_mem tx h)) ((s.exchanged_enabled tx).trans he) hr hq
    rw [List.map_cons, execAll, hcmd tx List.mem_cons_self s a he hr hq, Out.andThen_next, hrest,
      Around.record_record]
    simp [State.exchangedAll, State.captured, exchangeEvents]

theorem execAll_writeByte (buf : List Byte) (he : s.enabled = true) (hr : a.rspReady = .always) (hq : a.seq = .idle) :
    execAll (buf.map .writeByte) (s.withAround a) = .next ((s.exchangedAll buf).withAround
      (a.record (exchangeEvents (fun _ => [statusOk]) buf (s.captured buf)))) :=
  execAll_exchanges (fun tx _ => isExchange_writeByte tx) he hr hq

theorem execAll_readByte (n : Nat) (he : s.enabled = true) (hr : a.rspReady = .always) (hq : a.seq = .idle) :
    execAll (List.replicate n .readByte) (s.withAround a) =
      .next ((s.exchangedAll (List.replicate n dummyByte)).withAround
        (a.record (exchangeEvents (fun rx => [rx, statusOk]) (List.replicate n dummyByte)
          (s.captured (List.replicate n dummyByte))))) := by
  have hmap : List.replicate n Instr.readByte = (List.replicate n dummyByte).map fun _ => .readByte := by simp
  rw [hmap]
  exact execAll_exchanges (fun tx h => List.eq_of_mem_replicate h ▸ isExchange_readByte) he hr hq

/-! ### The bulk commands -/

theorem Around.written_of_cnt (buf rxs rest : List Byte) (h0 : a.cnt = 0x00#8) :
    a.written buf rxs rest = Around.record { a with cmdIn := rest } (exchangeEvents (fun _ => []) buf rxs) := by
  simp only [Around.written, Around.record, h0]

theorem Around.read_of_always (n : Nat) (rxs : List Byte) (hr : a.rspReady = .always) (h0 : a.cnt = 0x00#8) :
    a.read n rxs = a.record (exchangeEvents (fun rx => [rx]) (List.replicate n dummyByte) rxs) := by
  have halways : RspReady.afterTake^[n] .always = .always := Function.iterate_fixed rfl n
  simp only [Around.read, Around.record, hr, h0, halways]

theorem exec_writeBytes_of_always {n : Byte} {buf rest : List Byte} (he : s.enabled = true)
    (hr : a.rspReady = .always) (hq : a.seq = .idle) (h0 : a.cnt = 0x00#8) (hlen : buf.length = n.toNat)
    (hc : a.cmdIn = buf ++ rest) :
    exec (.writeBytes n) (s.withAround a) = .next ((s.exchangedAll buf).withAround
      (Around.record { a with cmdIn := rest }
        (exchangeEvents (fun _ => []) buf (s.captured buf) ++ [.rsp statusOk]))) := by
  rw [exec_writeBytes he (State.takes_of_always 1 hr) hlen hc, Around.written_of_cnt _ _ _ h0,
    Around.ended_of_always (a := Around.record { a with cmdIn := rest } _) hr hq, Around.record_record]

theorem exec_readBytes_of_always {n : Byte} (he : s.enabled = true) (hr : a.rspReady = .always)
    (hq : a.seq = .idle) (h0 : a.cnt = 0x00#8) :
    exec (.readBytes n) (s.withAround a) = .next ((s.exchangedAll (List.replicate n.toNat dummyByte)).withAround
      (a.record (exchangeEvents (fun rx => [rx]) (List.replicate n.toNat dummyByte)
        (s.captured (List.replicate n.toNat dummyByte)) ++ [.rsp statusOk]))) := by
  rw [exec_readBytes he (State.takes_of_always _ hr), Around.read_of_always _ _ hr h0,
    Around.ended_of_always (a := a.record _) hr hq, Around.record_record]

end

/-- Settles O28: both sides are the exchanges of the payload, which differ in the bytes answered. -/
theorem writeBytesIsWriteByteRepeated : Obligations.WriteBytesIsWriteByteRepeated := by
  intro s n buf rest he hr hcnt hq hlen hc
  refine ⟨_, _, exec_writeBytes_of_always (a := s.around) he hr hq hcnt hlen hc,
    execAll_writeByte (s := s) (a := { s.around with cmdIn := rest }) buf he hr hq, ?_, rfl⟩
  exact transfers_of_exchanges s.hist _ _ buf (s.captured buf)

/-- Settles O29: both sides are `n` exchanges of the dummy byte, which differ in the bytes answered. -/
theorem readBytesIsReadByteRepeated : Obligations.ReadBytesIsReadByteRepeated := by
  intro s n he hr hcnt hq
  have hlen : (s.captured (List.replicate n.toNat dummyByte)).length = (List.replicate n.toNat dummyByte).length :=
    s.captured_length _
  refine ⟨_, _, exec_readBytes_of_always (a := s.around) he hr hq hcnt,
    execAll_readByte (s := s) (a := s.around) n.toNat he hr hq, transfers_of_exchanges s.hist _ _ _ _, rfl,
    s.captured (List.replicate n.toNat dummyByte), hlen.trans List.length_replicate, ?_, ?_⟩
  · show responses (s.hist ++ (exchangeEvents _ _ _ ++ [.rsp statusOk])) = _
    rw [responses_append, responses_append, responses_exchangeEvents _ hlen, ← List.flatMap_def,
      List.flatMap_singleton', ← List.append_assoc]
    rfl
  · show responses (s.hist ++ exchangeEvents _ _ _) = _
    rw [responses_append, responses_exchangeEvents _ hlen]
    rfl

end Sys2Proof.Machine
end

section
/-! SUPPORT. The transfer commands whatever `CTRL` holds (spec/43_transfer.md R111, R117, R121, R124): no byte to go,
the hang of an exchange that is not enabled, and what is left unchanged. -/

namespace Sys2Proof.Machine

/-- Settles O30: with no byte to go both loops are the status byte alone. -/
theorem zeroCountDoesNothing : Obligations.ZeroCountDoesNothing := by
  intro s i hi ht
  rcases hi with rfl | rfl
  · exact congrArg Host.Outcome.next
      (State.putStatus_takes (s := { s.begin (.writeBytes 0#8) with cnt := 0#8 }) statusOk ht)
  · exact congrArg Host.Outcome.next
      (State.putStatus_takes (s := { s.begin (.readBytes 0#8) with cnt := 0#8 }) statusOk ht)

/-! ### The hang of an exchange (R111) -/

/-- The state of a command at its exchange of `tx`, the shifter not started. -/
def State.stuckAt (s : State) (i : Instr) (tx cnt : Byte) (left : List Byte) : State :=
  { s with data := tx, tc := false, seq := .busy ⟨i.opcode, i.operandBytes, .shifting⟩, cnt := cnt, cmdIn := left,
           hist := s.hist ++ [.load tx] }

section
variable {s : State}

theorem exec_writeByte_stuck (b : Byte) (he : s.enabled = false) :
    exec (.writeByte b) s = .next (s.stuckAt (.writeByte b) b s.cnt s.cmdIn) := by
  have hx := State.exchange_stuck (s := s.begin (.writeByte b)) b he
  simp only [exec, execWriteByte, hx]
  rfl

theorem exec_readByte_stuck (he : s.enabled = false) :
    exec .readByte s = .next (s.stuckAt .readByte dummyByte s.cnt s.cmdIn) := by
  have hx := State.exchange_stuck (s := s.begin .readByte) dummyByte he
  simp only [exec, execReadByte, hx]
  rfl

/-- With a byte to go the loop of READ_BYTES comes to an exchange. -/
theorem exec_readBytes_stuck {n : Byte} (hn : n ≠ 0#8) (he : s.enabled = false) :
    exec (.readBytes n) s = .next (s.stuckAt (.readBytes n) dummyByte n s.cmdIn) := by
  obtain ⟨k, hk⟩ : ∃ k, n.toNat = k + 1 := Nat.exists_eq_succ_of_ne_zero fun h => hn (BitVec.eq_of_toNat_eq h)
  have hx := State.exchange_stuck (s := { s.begin (.readBytes n) with cnt := n }) dummyByte he
  simp only [exec, execReadBytes, hk, readLoop, hx]
  rfl

/-- With a byte to go and one offered the loop of WRITE_BYTES takes that byte and comes to an exchange. -/
theorem exec_writeBytes_stuck {n b : Byte} {left : List Byte} (hn : n ≠ 0#8) (hc : s.cmdIn = b :: left)
    (he : s.enabled = false) :
    exec (.writeBytes n) s = .next (s.stuckAt (.writeBytes n) b n left) := by
  obtain ⟨k, hk⟩ : ∃ k, n.toNat = k + 1 := Nat.exists_eq_succ_of_ne_zero fun h => hn (BitVec.eq_of_toNat_eq h)
  have hx := State.exchange_stuck (s := { s.begin (.writeBytes n) with cnt := n, cmdIn := left }) b he
  have hnext : State.cmdNext { s.begin (.writeBytes n) with cnt := n } =
      some (b, { s.begin (.writeBytes n) with cnt := n, cmdIn := left }) := by
    simp only [State.cmdNext, State.begin, hc]
  simp only [exec, execWriteBytes, hk, writeLoop, hnext, hx]
  rfl

end

/-- Settles O31: each of the four commands comes to `State.stuckAt`. -/
theorem transferHangsWhenDisabled : Obligations.TransferHangsWhenDisabled := by
  intro s i tx left he hb hi
  have hstuck : ∃ cnt, exec i s = .next (s.stuckAt i tx cnt left) := by
    obtain ⟨rfl, rfl⟩ | ⟨rfl, rfl, rfl⟩ | ⟨n, rfl, hn, rfl, rfl⟩ | ⟨n, rfl, hn, hc⟩ := hi
    · exact ⟨_, exec_writeByte_stuck tx he⟩
    · exact ⟨_, exec_readByte_stuck he⟩
    · exact ⟨_, exec_readBytes_stuck hn he⟩
    · exact ⟨_, exec_writeBytes_stuck hn hc he⟩
  obtain ⟨cnt, hexec⟩ := hstuck
  exact ⟨_, hexec, .inl ⟨i.opcode, i.operandBytes, rfl, rfl, hb⟩, rfl, rfl, rfl, rfl, rfl, rfl, rfl⟩

/-! ### What is left unchanged (R124) -/

/-- From `s` to `t` only the shifter, the sequencer, the host's readiness and the history changed. -/
def SingleTransferFrame (s t : State) : Prop :=
  ∃ d tc b k m r q y e, t =
    { s with data := d, tc := tc, bitcnt := b, sck := k, miso := m, draws := r, seq := q, rspReady := y, hist := e }

section
variable {s t : State}

/-- Whether it completes, waits for the host to take its status byte, or hangs. -/
theorem exec_writeByte_frame {b : Byte} (h : exec (.writeByte b) s = .next t) : SingleTransferFrame s t := by
  rcases State.exchange_cases (s.begin (.writeByte b)) b with ⟨rx, m, r, -, hx⟩ | ⟨-, hx⟩
  · simp only [exec, execWriteByte, hx] at h
    obtain ⟨q, y, e, hput⟩ := State.putStatus_frame _ statusOk
    rw [hput] at h
    cases h
    exact ⟨_, _, _, _, _, _, _, _, _, rfl⟩
  · simp only [exec, execWriteByte, hx] at h
    cases h
    exact ⟨_, _, _, _, _, _, _, _, _, rfl⟩

/-- Whether it completes, waits for the host to take one of its two bytes, or hangs. -/
theorem exec_readByte_frame (h : exec .readByte s = .next t) : SingleTransferFrame s t := by
  rcases State.exchange_cases (s.begin .readByte) dummyByte with ⟨rx, m, r, -, hx⟩ | ⟨-, hx⟩
  · simp only [exec, execReadByte, hx] at h
    split at h
    next u hr =>
      obtain ⟨-, rfl⟩ := State.takeRsp_cases hr
      obtain ⟨q, y, e, hput⟩ := State.putStatus_frame (State.taken _ rx) statusOk
      rw [hput] at h
      cases h
      exact ⟨_, _, _, _, _, _, _, _, _, rfl⟩
    next =>
      cases h
      exact ⟨_, _, _, _, _, _, _, _, _, rfl⟩
  · simp only [exec, execReadByte, hx] at h
    cases h
    exact ⟨_, _, _, _, _, _, _, _, _, rfl⟩

end

/-- Settles O33: all that each of the four commands can change is in its frame. -/
theorem transferFrame : Obligations.TransferFrame := by
  intro s t i hi h
  cases i with
  | writeByte b =>
    obtain ⟨d, tc, bc, k, m, r, q, y, e, rfl⟩ := exec_writeByte_frame h
    exact ⟨fun _ => rfl, rfl, rfl, rfl, rfl, rfl, rfl, rfl, rfl, fun _ => ⟨rfl, rfl⟩, nofun⟩
  | readByte =>
    obtain ⟨d, tc, bc, k, m, r, q, y, e, rfl⟩ := exec_readByte_frame h
    exact ⟨fun _ => rfl, rfl, rfl, rfl, rfl, rfl, rfl, rfl, rfl, fun _ => ⟨rfl, rfl⟩, nofun⟩
  | writeBytes n =>
    obtain ⟨d, tc, bc, k, m, r, c, l, q, y, e, hloop⟩ :=
      writeLoop_frame n.toNat { s.begin (.writeBytes n) with cnt := n }
    cases (congrArg Host.Outcome.next hloop).symm.trans h
    exact ⟨fun _ => rfl, rfl, rfl, rfl, rfl, rfl, rfl, rfl, rfl, nofun, nofun⟩
  | readBytes n =>
    obtain ⟨d, tc, bc, k, m, r, c, q, y, e, hloop⟩ := readLoop_frame n.toNat { s.begin (.readBytes n) with cnt := n }
    cases (congrArg Host.Outcome.next hloop).symm.trans h
    exact ⟨fun _ => rfl, rfl, rfl, rfl, rfl, rfl, rfl, rfl, rfl, nofun, fun _ => rfl⟩
  | init | registerSlave | select | deselect => cases hi

end Sys2Proof.Machine
end

section
/-! SUPPORT. Faults and hangs (spec/60_exceptions.md R131 to R134, R137): what raising a fault does to each field, the
fault of SELECT and DESELECT without a slot, and a hang that only a reset ends. -/

namespace Sys2Proof.Machine

/-! ### Raising a fault (R131) -/

/-- Of the four faults only IllegalCommand halts the sequencer (R132). -/
theorem seqAfterStatus_code (f : CoreFault) :
    seqAfterStatus f.code = if f = .illegalCommand then .halted else .idle := by
  cases f with
  | illegalCommand | invalidSlaveId | notRegistered | illegalOperand => rfl

/-- Settles O39: each field by `State.raise_fields`, the sequencer by `seqAfterStatus_code`. -/
theorem raiseEffect : Obligations.RaiseEffect := by
  intro s f info ht
  rw [State.raise_fields f info ht, seqAfterStatus_code]

/-! ### SELECT and DESELECT without a slot (R133, R134) -/

/-- The fault of SELECT and DESELECT where `id` names no slot or one never written (R138 (2), (5)). -/
def noSlotFault (id : Byte) : CoreFault := if 8 ≤ id.toNat then .invalidSlaveId else .notRegistered

theorem noSlotFault_code (id : Byte) : (noSlotFault id).code = if 8 ≤ id.toNat then 0x02#8 else 0x03#8 :=
  apply_ite CoreFault.code _ _ _

theorem seqAfterStatus_noSlotFault (id : Byte) : seqAfterStatus (noSlotFault id).code = .idle := by
  unfold noSlotFault
  split <;> rfl

theorem State.lookup_of_no_slot {s : State} {id : Byte} (hd : s.slot id = none) :
    s.lookup id = .error (noSlotFault id) := by
  cases hl : s.lookup id with
  | ok d => cases hd.symm.trans (State.lookup_ok.mp hl)
  | error f => rw [(State.lookup_error hl).2, noSlotFault]

/-- Without a slot the command is its fault and nothing else. -/
theorem exec_chipSelect_eq_raise {s : State} {id : Byte} (level : Bool) (hd : s.slot id = none) :
    exec (chipSelect level id) s = .next ((s.begin (chipSelect level id)).raise (noSlotFault id) id) := by
  have hl := State.lookup_of_no_slot hd
  cases level with
  | false | true => simp only [chipSelect, exec, execSelect, execDeselect, hl]

/-- Settles O16: the command is the raise of `noSlotFault`, and what that does to each field is `State.raise_fields`. -/
theorem chipSelectFaults : Obligations.ChipSelectFaults := by
  intro s id i hi hd ht
  obtain ⟨level, rfl⟩ := exists_chipSelect hi
  rw [exec_chipSelect_eq_raise level hd, State.raise_fields (s := s.begin _) _ _ ht, seqAfterStatus_noSlotFault,
    noSlotFault_code]
  rfl

/-! ### Hangs (R137, first and last row) -/

section
variable {s : State}

/-- The shifter that was not started stays as it is, whatever command waits for it (spec/43_transfer.md R111). -/
theorem microCommand_shifting_of_not_started (ht : s.tc = false) (hb : s.bitcnt = 0#4) (i : Instr) :
    microCommand i .shifting s = .next s := by
  simp [microCommand, microShifter, ht, hb]

theorem coreTurn_of_hung (h : s.hung) : coreTurn s = .next s := by
  rcases h with ⟨opc, latch, hq, ht, hb⟩ | hq
  · rw [coreTurn_of_busy hq]
    exact microStep_stays nofun nofun (microCommand_shifting_of_not_started ht hb)
  · exact coreTurn_of_halted hq

theorem State.isIdle_of_hung (h : s.hung) : s.seq.isIdle = false := by
  rcases h with ⟨opc, latch, hq, -, -⟩ | hq <;> rw [hq] <;> rfl

/-- All that a step of a hung state can change: the host's script, the bytes it has offered and its readiness. -/
theorem step_of_hung (h : s.hung) (hr : ¬ s.resetNext) :
    ∃ r offered q, step s = .next { s with host := r, cmdIn := s.cmdIn ++ offered, rspReady := q } := by
  cases hh : s.host with
  | nil => exact ⟨s.host, [], s.rspReady, by rw [step_of_host_nil hh, coreTurn_of_hung h, List.append_nil]⟩
  | cons m r =>
    cases m with
    | run =>
      have hrun : State.hung { s with host := r } := h
      exact ⟨r, [], s.rspReady, by rw [step_of_host_run hh, coreTurn_of_hung hrun, List.append_nil]⟩
    | offer b => exact ⟨r, [b], s.rspReady, by simp [step, hostTurn, hh, HostMove.enabled, State.hostMove]⟩
    | ready q => exact ⟨r, [], q, by simp [step, hostTurn, hh, HostMove.enabled, State.hostMove]⟩
    | platWrite a v =>
      have hwaits : HostMove.enabled (.platWrite a v) s = false := State.isIdle_of_hung h
      exact ⟨s.host, [], s.rspReady, by rw [step_of_host_waits hh hwaits, coreTurn_of_hung h, List.append_nil]⟩
    | reset => exact absurd ⟨r, hh⟩ hr

end

/-- Settles O32: none of what `step_of_hung` lets a step change ends the hang. -/
theorem hangEndsOnlyByReset : Obligations.HangEndsOnlyByReset := by
  intro s h hr
  obtain ⟨r, offered, q, hs⟩ := step_of_hung h hr
  exact ⟨_, hs, h, rfl, rfl, rfl, rfl, offered, rfl⟩

end Sys2Proof.Machine
end

section
/-! SUPPORT. A run that has ended well (spec/70_reset_and_hazards.md R168): with no byte left to take or to be offered
CORE stays in `IDLE`, and of the host's moves none is an offer. -/

namespace Sys2Proof.Machine

section
variable {s t : State}

/-- In `IDLE` no byte is on offer on the response stream, so R168's third condition follows from its second. -/
theorem State.endedWell_iff : s.endedWell ↔
    s.cmdIn = [] ∧ (∀ m ∈ s.host, m.offeredByte = none) ∧ s.seq = .idle ∧ s.fault = 0x00#8 := by
  simp only [State.endedWell, State.streamLeft, List.append_eq_nil_iff, List.filterMap_eq_nil_iff, and_assoc]
  exact and_congr_right fun _ => and_congr_right fun _ => and_congr_right fun hq =>
    and_iff_right (State.rspOffered_of_idle hq)

theorem State.not_hung_of_idle (hq : s.seq = .idle) : ¬ s.hung := by
  intro hh
  have hb := State.isIdle_of_hung hh
  rw [hq] at hb
  cases hb

/-- What is left of a script that offers no byte offers none. -/
theorem State.endedWell_of_host_suffix (h : s.endedWell) (hh : t.host <:+ s.host) (hc : t.cmdIn = [])
    (hq : t.seq = .idle) (hf : t.fault = 0x00#8) : t.endedWell := by
  obtain ⟨-, hoffers, -, -⟩ := State.endedWell_iff.mp h
  exact State.endedWell_iff.mpr ⟨hc, fun m hm => hoffers m (hh.subset hm), hq, hf⟩

/-- All that a step of a run that has ended well can be: CORE's turn, which changes nothing, or a move of the host
that offers no byte. -/
theorem step_of_endedWell (h : s.endedWell) (hs : step s = .next t) :
    ∃ r, r <:+ s.host ∧
      ((∃ q, t = { s with host := r, rspReady := q }) ∨
       (∃ a v, t = (State.setLineByte { s with host := r } a.toNat v).emit (.plat a v)) ∨
       (s.host = .reset :: r ∧ t = State.applyReset { s with host := r })) := by
  obtain ⟨hc, hoffers, hq, -⟩ := State.endedWell_iff.mp h
  have htail {m r} (hh : s.host = m :: r) : r <:+ s.host := hh ▸ List.suffix_cons m r
  rcases step_cases hs with
    ⟨r, hr, ht⟩ | ⟨b, r, hh, -⟩ | ⟨q, r, hh, rfl⟩ | ⟨a, v, r, hh, -, -, rfl⟩ | ⟨r, hh, rfl⟩
  · rw [coreTurn_of_no_opcode (s := { s with host := r }) hq hc] at ht
    exact ⟨r, hr.elim htail fun hh => hh.1 ▸ List.suffix_refl _, .inl ⟨s.rspReady, (Host.Outcome.next.inj ht).symm⟩⟩
  · cases hoffers (.offer b) (hh ▸ List.mem_cons_self)
  · exact ⟨r, htail hh, .inl ⟨q, rfl⟩⟩
  · exact ⟨r, htail hh, .inr (.inl ⟨a, v, rfl⟩)⟩
  · exact ⟨r, htail hh, .inr (.inr ⟨hh, rfl⟩)⟩

@[simp] theorem responses_plat (a : BitVec 9) (v : Byte) : responses [.plat a v] = [] := rfl

@[simp] theorem transfers_plat (a : BitVec 9) (v : Byte) : transfers [.plat a v] = [] := rfl

end

/-- Settles O59: what `step_of_endedWell` lets a step be keeps the end, and but for a reset adds at most the event of
a `PlatWrite` to the history. -/
theorem endedWellIsTheEnd : Obligations.EndedWellIsTheEnd := by
  intro s t h hs
  obtain ⟨hc, -, hq, hf⟩ := State.endedWell_iff.mp h
  refine ⟨State.not_hung_of_idle hq, ?_⟩
  obtain ⟨r, hr, ⟨q, rfl⟩ | ⟨a, v, rfl⟩ | ⟨hh, rfl⟩⟩ := step_of_endedWell h hs
  · exact ⟨State.endedWell_of_host_suffix h hr hc hq hf, fun _ => ⟨rfl, rfl⟩⟩
  · refine ⟨State.endedWell_of_host_suffix h hr hc hq hf, fun _ => ?_⟩
    simp [transfers_append]
  · exact ⟨State.endedWell_of_host_suffix h hr rfl rfl rfl, fun hnr => absurd ⟨r, hh⟩ hnr⟩

end Sys2Proof.Machine
end
